-- ==== Sys2Proof/Word.lean ====
section
/-!
DEFINITION. The core's value types: bytes, 32-bit words, 64-bit counter values, byte strings of any length
(`In`, `Out`) and byte strings of a fixed length (a key, a block, an IV, a nonce), and the two byte orders.
spec/00_scope.md R6, R8, R9.
-/

namespace Sys2Proof

/-- One byte of a byte string. -/
abbrev Byte := BitVec 8

/-- A 32-bit word: a command word, a key or block word, a readback word. All arithmetic wraps (R9). -/
abbrev Word := BitVec 32

/-- The 64-bit values: the counter (R34) and the CMAC `L`, `K1`, `K2` (R221). -/
abbrev DWord := BitVec 64

/-- A byte string in transmission order: the head is the first byte sent or received (R8). -/
abbrev Bytes := List Byte

/-- A byte string of exactly `n` bytes: the 16-byte keys and 8-byte blocks of R6 carry their length. -/
@[ext] structure ByteVec (n : Nat) where
  toList : Bytes
  len : toList.length = n
deriving DecidableEq, Repr

/-- `0^n`: the string of `n` zero bytes (R8). -/
def ByteVec.zero (n : Nat) : ByteVec n := ⟨List.replicate n 0, List.length_replicate⟩

/-- A 16-byte key (R6). -/
abbrev Key := ByteVec 16

/-- An 8-byte block, IV, nonce, counter block, subkey or tag (R6). -/
abbrev Block := ByteVec 8

/-- The byte orders of R53. The two reserved codes of an ORD field are no byte order (R78). -/
inductive Order where
  | big
  | little
deriving DecidableEq, Repr

end Sys2Proof
end

