-- ==== Sys2Proof/Syntax.lean ====
section
/-!
DEFINITION. The commands of the XTEA core: one constructor per row of spec/opcode_table.json
(spec/30_encoding.md R71, R73). A constructor holds the command word's fields AS THE WORD HAS THEM: MODE, ORD and
ROUNDS are checked by the command's own rule, not by the decoder (R74), so an INIT with MODE 4 is an instruction.
-/

namespace Sys2Proof

/-- The thirteen commands of R73. The input byte string is not part of the command word (R70). -/
inductive Instr where
  /-- 0x01, format N (R140). -/
  | ldkey
  /-- 0x02, format N (R141). -/
  | ldiv
  /-- 0x03, format I: MODE [10:8], ORD [13:12], CNT [31:16] as ROUNDS (R142). -/
  | init (mode : BitVec 3) (ord : BitVec 2) (rounds : BitVec 16)
  /-- 0x04, format N (R170). -/
  | enc
  /-- 0x05, format N (R170). -/
  | dec
  /-- 0x06, format B: ORD [13:12], CNT [31:16] as CYCLES (R126). -/
  | benc (ord : BitVec 2) (cycles : BitVec 16)
  /-- 0x07, format B: ORD [13:12], CNT [31:16] as CYCLES (R127). -/
  | bdec (ord : BitVec 2) (cycles : BitVec 16)
  /-- 0x08, format C: ORD [13:12] (R200). -/
  | ctrld (ord : BitVec 2)
  /-- 0x09, format N (R201). -/
  | ctrrst
  /-- 0x0A, format N (R202). -/
  | ctrnxt
  /-- 0x0B, format N (R222). -/
  | cmacsk
  /-- 0x0C, format R: REG [11:8] (R145). -/
  | rdreg (reg : BitVec 4)
  /-- 0x0D, format N (R146). -/
  | clear
deriving DecidableEq, Repr

end Sys2Proof
end

