-- ==== Sys2Proof/WellFormed.lean ====
section
/-!
DEFINITION. Which instructions a command word can stand for: the one operand check that spec/30_encoding.md R74
makes while decoding. ORD, MODE and ROUNDS are full-width fields there, so every value of them is encodable.
-/

namespace Sys2Proof

/-- The last register number of R81: 0 STATUS, 1 CONFIG, 2 CTRCFG, 3 CTRVAL, 4 NONCE. -/
def lastReg : Nat := 4

/-- R74, R81: a decoded RDREG has REG at most 4; every other field takes every value. -/
def Instr.wellFormed : Instr → Bool
  | .rdreg reg => reg.toNat ≤ lastReg
  | .ldkey => true
  | .ldiv => true
  | .init _ _ _ => true
  | .enc => true
  | .dec => true
  | .benc _ _ => true
  | .bdec _ _ => true
  | .ctrld _ => true
  | .ctrrst => true
  | .ctrnxt => true
  | .cmacsk => true
  | .clear => true

end Sys2Proof
end

