-- ==== Sys2Proof/Decode.lean ====
section
/-!
DEFINITION. The decoder, total on all 2^32 command words and refusing by name (spec/30_encoding.md R71 to R76, R81),
and after it the encoder, written from the same tables (R72, R73, R84).
-/

namespace Sys2Proof

/-! ## The opcode map and the formats -/

/-- The opcodes of R73. -/
inductive Opcode where
  | ldkey | ldiv | init | enc | dec | benc | bdec | ctrld | ctrrst | ctrnxt | cmacsk | rdreg | clear
deriving DecidableEq, Repr

/-- The five formats of R72. -/
inductive Format where
  | n | i | b | c | r
deriving DecidableEq, Repr

/-- The opcode a value of the OPC field is assigned to (R73); `none` for the unassigned values (R75). -/
def opcodeOf? (opc : BitVec 8) : Option Opcode :=
  match opc.toNat with
  | 0x01 => some .ldkey
  | 0x02 => some .ldiv
  | 0x03 => some .init
  | 0x04 => some .enc
  | 0x05 => some .dec
  | 0x06 => some .benc
  | 0x07 => some .bdec
  | 0x08 => some .ctrld
  | 0x09 => some .ctrrst
  | 0x0A => some .ctrnxt
  | 0x0B => some .cmacsk
  | 0x0C => some .rdreg
  | 0x0D => some .clear
  | _ => none

/-- The OPC value of an opcode (R73). -/
def Opcode.byte : Opcode → Word
  | .ldkey => 0x01
  | .ldiv => 0x02
  | .init => 0x03
  | .enc => 0x04
  | .dec => 0x05
  | .benc => 0x06
  | .bdec => 0x07
  | .ctrld => 0x08
  | .ctrrst => 0x09
  | .ctrnxt => 0x0A
  | .cmacsk => 0x0B
  | .rdreg => 0x0C
  | .clear => 0x0D

/-- The format column of R73. -/
def Opcode.format : Opcode → Format
  | .init => .i
  | .benc | .bdec => .b
  | .ctrld => .c
  | .rdreg => .r
  | .ldkey | .ldiv | .enc | .dec | .ctrrst | .ctrnxt | .cmacsk | .clear => .n

/-- The reserved-bit mask of a format (R72): the bits that must be 0. -/
def reservedMask : Format → Word
  | .n => 0xFFFFFF00
  | .i => 0x0000C800
  | .b => 0x0000CF00
  | .c => 0xFFFFCF00
  | .r => 0xFFFFF000

/-! ## The fields of a command word (R71) -/

def opcField (w : Word) : BitVec 8 := w.extractLsb' 0 8
def modeField (w : Word) : BitVec 3 := w.extractLsb' 8 3
def regField (w : Word) : BitVec 4 := w.extractLsb' 8 4
def ordField (w : Word) : BitVec 2 := w.extractLsb' 12 2
def cntField (w : Word) : BitVec 16 := w.extractLsb' 16 16

/-! ## Decoding -/

/-- Why a word is no command. Every one of them is reported as InvalidCommand (R74). -/
inductive DecodeError where
  /-- OPC is 0x00 or 0x0E to 0xFF (R75). -/
  | unassignedOpcode
  /-- A bit the format does not assign is 1 (R76). -/
  | reservedBits
  /-- RDREG with REG above 4 (R81). -/
  | badRegister
deriving DecidableEq, Repr

/-- The instruction of an opcode, its operands taken from the word's fields (R71, R83). -/
def Opcode.instr (op : Opcode) (w : Word) : Instr :=
  match op with
  | .ldkey => .ldkey
  | .ldiv => .ldiv
  | .init => .init (modeField w) (ordField w) (cntField w)
  | .enc => .enc
  | .dec => .dec
  | .benc => .benc (ordField w) (cntField w)
  | .bdec => .bdec (ordField w) (cntField w)
  | .ctrld => .ctrld (ordField w)
  | .ctrrst => .ctrrst
  | .ctrnxt => .ctrnxt
  | .cmacsk => .cmacsk
  | .rdreg => .rdreg (regField w)
  | .clear => .clear

/-- R74: total over all words, in the rule's order of checks. -/
def decode (w : Word) : Except DecodeError Instr :=
  match opcodeOf? (opcField w) with
  | none => .error .unassignedOpcode
  | some op =>
    if w &&& reservedMask op.format ≠ 0 then .error .reservedBits
    else if op.format = .r ∧ lastReg < (regField w).toNat then .error .badRegister
    else .ok (op.instr w)

/-- The decoder read on an opcode-table row's own numbering: bit 0 is the least significant bit of the command
word, and a command is that one word (R70), so a numeral with a bit above 31 is no command. -/
def decodeTableWord (nbits w : Nat) : Option Instr :=
  if w % 2 ^ nbits < 2 ^ 32 then (decode (BitVec.ofNat 32 (w % 2 ^ nbits))).toOption else none

/-! ## Encoding -/

/-- The word of an instruction (R71, R84): the opcode with each field shifted to its place. -/
def encode : Instr → Word
  | .ldkey => Opcode.ldkey.byte
  | .ldiv => Opcode.ldiv.byte
  | .init mode ord rounds =>
      Opcode.init.byte ||| mode.setWidth 32 <<< 8 ||| ord.setWidth 32 <<< 12 ||| rounds.setWidth 32 <<< 16
  | .enc => Opcode.enc.byte
  | .dec => Opcode.dec.byte
  | .benc ord cycles => Opcode.benc.byte ||| ord.setWidth 32 <<< 12 ||| cycles.setWidth 32 <<< 16
  | .bdec ord cycles => Opcode.bdec.byte ||| ord.setWidth 32 <<< 12 ||| cycles.setWidth 32 <<< 16
  | .ctrld ord => Opcode.ctrld.byte ||| ord.setWidth 32 <<< 12
  | .ctrrst => Opcode.ctrrst.byte
  | .ctrnxt => Opcode.ctrnxt.byte
  | .cmacsk => Opcode.cmacsk.byte
  | .rdreg reg => Opcode.rdreg.byte ||| reg.setWidth 32 <<< 8
  | .clear => Opcode.clear.byte

end Sys2Proof
end

