-- ==== Sys2Proof/Machine/Codec.lean ====
section
/-!
DEFINITION. The byte-order codec (spec/40_codec.md R100 to R106) and the byte-string notation of spec/00_scope.md
R8 and R9: sub-strings, concatenation, XOR.
-/

namespace Sys2Proof.Machine

/-! ## Byte strings (R8, R9) -/

/-- `B[i:j]`, half-open (R8). -/
def sub (B : Bytes) (i j : Nat) : Bytes := (B.drop i).take (j - i)

/-- `B` as a string of exactly `n` bytes, when its length is `n`. -/
def ofBytes? (n : Nat) (B : Bytes) : Option (ByteVec n) :=
  if h : B.length = n then some ⟨B, h⟩ else none

/-- Byte `i` of a string. Every call keeps `i` below the length; past the end it would be 0. -/
def byteAt {n : Nat} (B : ByteVec n) (i : Nat) : Byte := B.toList.getD i 0

/-- `A ‖ B`. -/
def append {m n : Nat} (A : ByteVec m) (B : ByteVec n) : ByteVec (m + n) :=
  ⟨A.toList ++ B.toList, by rw [List.length_append, A.len, B.len]⟩

/-- `A ^ B`, byte by byte. -/
def xor {n : Nat} (A B : ByteVec n) : ByteVec n :=
  ⟨List.zipWith (· ^^^ ·) A.toList B.toList, by rw [List.length_zipWith, A.len, B.len, Nat.min_self]⟩

/-- The blocks `X_j = In[8j : 8j+8]` for `j` in `0 .. floor(N/8) - 1` (R170). -/
def blocks : Bytes → List Block
  | b0 :: b1 :: b2 :: b3 :: b4 :: b5 :: b6 :: b7 :: rest => ⟨[b0, b1, b2, b3, b4, b5, b6, b7], rfl⟩ :: blocks rest
  | _ => []

/-- The bytes of a sequence of blocks, first block first. -/
def unblocks (Xs : List Block) : Bytes := Xs.flatMap ByteVec.toList

/-! ## Integers and words -/

/-- `(n >> 8k) & 0xFF` (R100). -/
def byteOf (n k : Nat) : Byte := BitVec.ofNat 8 (n >>> (8 * k))

/-- `to_bytes(n, L, o)` (R100). -/
def toBytes (n L : Nat) : Order → ByteVec L
  | .big => ⟨(List.range L).map fun i => byteOf n (L - 1 - i), by rw [List.length_map, List.length_range]⟩
  | .little => ⟨(List.range L).map fun i => byteOf n i, by rw [List.length_map, List.length_range]⟩

/-- `from_bytes(B, o)` (R101), by Horner's rule from the most significant byte. -/
def fromBytes (B : Bytes) : Order → Nat
  | .big => B.foldl (fun n b => 256 * n + b.toNat) 0
  | .little => B.foldr (fun b n => 256 * n + b.toNat) 0

/-- The 32-bit word of a group of four bytes. -/
def wordOf (B : Bytes) (o : Order) : Word := BitVec.ofNat 32 (fromBytes B o)

/-- The four key words `K[0..3]` (R104). -/
structure KeyWords where
  k0 : Word
  k1 : Word
  k2 : Word
  k3 : Word
deriving DecidableEq, Repr

/-- `key_words(KB, o)` (R104). -/
def keyWords (KB : Key) (o : Order) : KeyWords where
  k0 := wordOf (sub KB.toList 0 4) o
  k1 := wordOf (sub KB.toList 4 8) o
  k2 := wordOf (sub KB.toList 8 12) o
  k3 := wordOf (sub KB.toList 12 16) o

/-- `block_words(BB, o)`: `(v0, v1)` from the first and the last four bytes (R105). -/
def blockWords (BB : Block) (o : Order) : Word × Word :=
  (wordOf (sub BB.toList 0 4) o, wordOf (sub BB.toList 4 8) o)

/-- `block_bytes(v0, v1, o)` (R106). -/
def blockBytes (v : Word × Word) (o : Order) : Block :=
  append (toBytes v.1.toNat 4 o) (toBytes v.2.toNat 4 o)

end Sys2Proof.Machine
end

