-- ==== Sys2Proof/Config.lean ====
section
/-!
DEFINITION. What an implementation of the core fixes: the parameters of spec/00_scope.md R7 that stay arguments of
the model (`92_eei_decisions.md` D14, D25). The spec leaves no value free, so there is no opaque constant here.
-/

namespace Sys2Proof

/-- The two named arguments of R7. -/
structure Params where
  /-- `KS_CARRY`: unused OFB and CTR keystream bytes are kept for the next ENC or DEC (R183, D14). -/
  ksCarry : Bool
  /-- `MAX_XFER`: the bound on the input length `N`, `none` for unbounded (R58, D25). -/
  maxXfer : Option Nat
deriving DecidableEq, Repr

/-- The decided values of R7: `KS_CARRY = true`, `MAX_XFER = none`. -/
def Params.decided : Params := ⟨true, none⟩

/-- The default round count of R79, which the encoding 0 of ROUNDS stands for. -/
def Config.defaultRounds : Nat := 64

/-- The cycle count of the CMAC block cipher (R7, R221, D18). -/
def Config.cmacCycles : Nat := 32

end Sys2Proof
end

