-- ==== Sys2Proof/Machine/State.lean ====
section
/-!
DEFINITION. The state of the XTEA core. `Arch` is the complete architectural state of spec/10_state.md R23, field for
field; `State` adds the command interface of spec/00_scope.md R5 (the outstanding command with its input, the last
response) and the parameters of R7. Reset: spec/70_reset_and_hazards.md R280.
-/

namespace Sys2Proof.Machine

/-- CTX (R23, R36): 0 NONE, 1 CONFIGURED, 2 ACTIVE. No command writes 3. -/
inductive CtxState where
  | none
  | configured
  | active
deriving DecidableEq, Repr

/-- The implemented modes of R77, the values MODE can hold in a context (R27). -/
inductive Mode where
  | ecb
  | cbc
  | cfb
  | ofb
  | ctr
deriving DecidableEq, Repr

/-- The errors of R251, in the order of their codes 1 to 10. -/
inductive Error where
  | invalidKeyLength
  | invalidIVLength
  | missingIV
  | missingCounter
  | invalidLength
  | unsupportedMode
  | invalidByteOrder
  | invalidState
  | invalidRounds
  | invalidCommand
deriving DecidableEq, Repr

/-- The status of a response (R251): OK, or the one error that is reported. -/
inductive Status where
  | ok
  | failed (e : Error)
deriving DecidableEq, Repr

/-- The response of a command (R5): its status and its output byte string. -/
structure Response where
  st : Status
  out : Bytes
deriving DecidableEq, Repr

/-- The complete architectural state `S` of R23. -/
structure Arch where
  /-- KSTG, staged key (R24). -/
  kstg : Key
  /-- KSTGV, a key is staged (R24). -/
  kstgv : Bool
  /-- IVSTG, staged IV (R25). -/
  ivstg : Block
  /-- IVSTGV, an IV is staged (R25). -/
  ivstgv : Bool
  /-- CTX, context state (R36). -/
  ctx : CtxState
  /-- KEY, context key (R26). -/
  key : Key
  /-- MODE, context mode (R27); `none` is the code 0. -/
  mode : Option Mode
  /-- ORD, context byte order (R28). -/
  ord : Order
  /-- ROUNDS, effective round count (R29). -/
  rounds : BitVec 16
  /-- FB, feedback register (R30). -/
  fb : Block
  /-- KSBUF, current keystream block (R31). -/
  ksbuf : Block
  /-- KSREM, unused bytes left in KSBUF (R31). -/
  ksrem : BitVec 3
  /-- NONCE, counter nonce as loaded (R32). -/
  nonce : Block
  /-- CORD, counter byte order (R33). -/
  cord : Order
  /-- CVAL, counter current value (R34). -/
  cval : DWord
  /-- CTRV, the counter has been loaded (R35). -/
  ctrv : Bool
deriving DecidableEq, Repr

/-- The reset values of R280: every field 0. -/
def Arch.reset : Arch where
  kstg := .zero 16
  kstgv := false
  ivstg := .zero 8
  ivstgv := false
  ctx := .none
  key := .zero 16
  mode := none
  ord := .big
  rounds := 0
  fb := .zero 8
  ksbuf := .zero 8
  ksrem := 0
  nonce := .zero 8
  cord := .big
  cval := 0
  ctrv := false

/-- A command as the host issues it: the word and the input string `In` (R5, R70). -/
structure Request where
  word : Word
  inp : Bytes
deriving DecidableEq, Repr

/-- One core with its command interface. -/
structure State where
  /-- The architectural state `S` (R23). -/
  arch : Arch
  /-- The parameters of R7: fixed for a core, read by its commands and written by none of them. -/
  params : Params
  /-- The command issued and not yet answered, at most one (R5). DESIGN CHOICE, log 1. -/
  cmd : Option Request
  /-- The response to the last command, `none` before the first (R5). DESIGN CHOICE, log 1. -/
  resp : Option Response
deriving DecidableEq, Repr

/-- `In`, the input string of the outstanding command (R5); with no command outstanding there is none to read. -/
def State.inp (s : State) : Bytes :=
  match s.cmd with
  | some r => r.inp
  | none => []

/-- The core right after reset (R280, R281): all of `S` zero, the decided parameters of R7, no command outstanding. -/
def State.reset : State where
  arch := .reset
  params := .decided
  cmd := none
  resp := none

/-- Why a step stops the model. An ERROR of the core is no fault: it is an ordinary response (R250). -/
inductive Fault where
  /-- Raised by ENC and DEC in a state with a context (`CTX ≠ 0`) whose MODE is 0, which R27 and R37(b) say the core
  never holds and for which R170 names no case. Safe: the model stops where the spec says nothing (log 5). -/
  | contextWithoutMode
deriving DecidableEq, Repr

/-- Why an instruction has no meaning. -/
inductive Refusal where
  /-- Reserved for an arm of `exec` that has no meaning yet; every arm has one, so nothing raises it. Safe. -/
  | notModelled (mnemonic : String)
deriving DecidableEq, Repr

/-- What a step of this machine answers. -/
abbrev Result := Host.Outcome State Fault Refusal

end Sys2Proof.Machine
end

