-- ==== Sys2Proof/Machine/Operands.lean ====
section
/-!
DEFINITION. The operand forms: how the fields of a command word are read (spec/30_encoding.md R77 to R83) and the
values a mode or an order code stands for.
-/

namespace Sys2Proof.Machine

/-- The ORD field: 0 big, 1 little, 2 and 3 no byte order (R78). -/
def orderOf? (ord : BitVec 2) : Option Order :=
  match ord.toNat with
  | 0 => some .big
  | 1 => some .little
  | _ => none

/-- The MODE field: the accepted codes of R77; 0, 4 (PGP) and 7 are unsupported. -/
def modeOf? (mode : BitVec 3) : Option Mode :=
  match mode.toNat with
  | 1 => some .ecb
  | 2 => some .cbc
  | 3 => some .cfb
  | 5 => some .ofb
  | 6 => some .ctr
  | _ => none

/-- CBC, CFB and OFB need an IV (R142, C2). -/
def Mode.needsIV : Mode → Bool
  | .cbc | .cfb | .ofb => true
  | .ecb | .ctr => false

/-- ECB, CBC and CFB take whole blocks only (R57, R170, C4). -/
def Mode.wholeBlocks : Mode → Bool
  | .ecb | .cbc | .cfb => true
  | .ofb | .ctr => false

/-- `rounds_eff(CNT)`: the encoding 0 is the default 64 (R79). -/
def roundsEff (rounds : BitVec 16) : BitVec 16 :=
  if rounds = 0 then BitVec.ofNat 16 Config.defaultRounds else rounds

/-- CYCLES is the literal count 0 to 65535 (R80, R83). -/
def cyclesOf (cycles : BitVec 16) : Nat := cycles.toNat

end Sys2Proof.Machine
end

