-- ==== Sys2Proof/Machine/Round.lean ====
section
/-!
DEFINITION. The XTEA round function (spec/41_round_function.md R120 to R122) and the block functions on byte strings
(R125). The working values v0, v1 and sum exist only here; they are not state (R43).
-/

namespace Sys2Proof.Machine

/-- R120. -/
def delta : Word := 0x9E3779B9

/-- The working values of one block operation (R43). -/
structure Work where
  v0 : Word
  v1 : Word
  sum : Word
deriving DecidableEq, Repr

/-- `K[i]` for an index already masked to two bits. -/
def KeyWords.at (K : KeyWords) (i : Word) : Word :=
  match i.toNat with
  | 0 => K.k0
  | 1 => K.k1
  | 2 => K.k2
  | _ => K.k3

/-- `((v << 4) ^ (v >> 5)) + v`, with logical shifts (R121). -/
def mix (v : Word) : Word := ((v <<< 4) ^^^ (v >>> 5)) + v

/-- `sum + K[sum & 3]`, the key term of the v0 half-step (R121). -/
def keyTerm0 (K : KeyWords) (sum : Word) : Word := sum + K.at (sum &&& 3)

/-- `sum + K[(sum >> 11) & 3]`, the key term of the v1 half-step (R121). -/
def keyTerm1 (K : KeyWords) (sum : Word) : Word := sum + K.at ((sum >>> 11) &&& 3)

/-- One cycle of R121: the v1 half-step uses the new v0 and the new sum. -/
def encCycle (K : KeyWords) (w : Work) : Work :=
  let v0 := w.v0 + (mix w.v1 ^^^ keyTerm0 K w.sum)
  let sum := w.sum + delta
  let v1 := w.v1 + (mix v0 ^^^ keyTerm1 K sum)
  ⟨v0, v1, sum⟩

/-- One cycle of R122: the inverse half-steps in the reverse order. -/
def decCycle (K : KeyWords) (w : Work) : Work :=
  let v1 := w.v1 - (mix w.v0 ^^^ keyTerm1 K w.sum)
  let sum := w.sum - delta
  let v0 := w.v0 - (mix v1 ^^^ keyTerm0 K sum)
  ⟨v0, v1, sum⟩

/-- `repeat n times`. -/
def repeatCycle (f : Work → Work) : Nat → Work → Work
  | 0, w => w
  | n + 1, w => repeatCycle f n (f w)

/-- `xtea_enc(K, (v0, v1), n)` (R121). -/
def xteaEnc (K : KeyWords) (v : Word × Word) (n : Nat) : Word × Word :=
  let w := repeatCycle (encCycle K) n ⟨v.1, v.2, 0⟩
  (w.v0, w.v1)

/-- `xtea_dec(K, (v0, v1), n)` (R122); the sum starts at `(delta * n) mod 2^32`. -/
def xteaDec (K : KeyWords) (v : Word × Word) (n : Nat) : Word × Word :=
  let w := repeatCycle (decCycle K) n ⟨v.1, v.2, delta * BitVec.ofNat 32 n⟩
  (w.v0, w.v1)

/-- `E_blk(KB, BB, n, o)` (R125). -/
def eBlk (KB : Key) (BB : Block) (n : Nat) (o : Order) : Block :=
  blockBytes (xteaEnc (keyWords KB o) (blockWords BB o) n) o

/-- `D_blk(KB, BB, n, o)` (R125). -/
def dBlk (KB : Key) (BB : Block) (n : Nat) (o : Order) : Block :=
  blockBytes (xteaDec (keyWords KB o) (blockWords BB o) n) o

end Sys2Proof.Machine
end

