-- ==== Sys2Proof/Machine/Ops.lean ====
section
/-!
DEFINITION. The operations every command shares: ending with OK or with an error (spec/00_scope.md R10,
spec/60_exceptions.md R250 to R253), the MAX_XFER bound (spec/20_memory.md R58), the context's block functions
(R125), the counter operation (spec/44_counter.md R203), and the host's two moves at the interface (R5, R280).
-/

namespace Sys2Proof.Machine

/-! ## Ending a command -/

/-- The response of R5: the architectural state becomes `S`, the outstanding command is answered. -/
def State.respond (s : State) (st : Status) (S : Arch) (out : Bytes) : State :=
  { s with arch := S, cmd := none, resp := some ⟨st, out⟩ }

/-- `succeed` (R10): status OK, the command's writes take effect, `Out` is what it emitted. -/
def State.succeed (s : State) (S : Arch) (out : Bytes) : Result := .next (s.respond .ok S out)

/-- `fail <Error>` (R10), the core's one way of taking an error: no trap, no saved state, no vector (R250);
no field of `S` changes (R252) and `Out` is empty (R253). -/
def State.fail (s : State) (e : Error) : Result := .next (s.respond (.failed e) s.arch [])

/-- `MAX_XFER = some m` and `N > m` (R58). -/
def State.tooLong (s : State) : Bool :=
  match s.params.maxXfer with
  | some m => m < s.inp.length
  | none => false

/-! ## The context's block functions and the counter -/

/-- The context's cycle count `ROUNDS / 2` (R29). -/
def Arch.cycles (S : Arch) : Nat := S.rounds.toNat / 2

/-- `E_ctx(BB)` (R125). -/
def Arch.eCtx (S : Arch) (BB : Block) : Block := eBlk S.key BB S.cycles S.ord

/-- `D_ctx(BB)` (R125). -/
def Arch.dCtx (S : Arch) (BB : Block) : Block := dBlk S.key BB S.cycles S.ord

/-- The value a nonce decodes to (R34, R200, R201). -/
def nonceValue (nonce : Block) (o : Order) : DWord := BitVec.ofNat 64 (fromBytes nonce.toList o)

/-- The block `ctr_block()` returns: CVAL encoded in CORD, before the increment (R203). -/
def Arch.ctrBlock (S : Arch) : Block := toBytes S.cval.toNat 8 S.cord

/-- What `ctr_block()` leaves: CVAL + 1 modulo 2^64 (R203, R204). -/
def Arch.ctrNext (S : Arch) : Arch := { S with cval := S.cval + 1 }

/-! ## The host's moves at the interface -/

/-- The host issues a command (R5, R265). No move exists while a command is outstanding (D33). -/
def State.issue (s : State) (r : Request) : Option State :=
  match s.cmd with
  | none => some { s with cmd := some r, resp := none }
  | some _ => none

/-- Reset of a running core (R280, R281): every field of `S` takes its reset value and no command is outstanding.
The core keeps its parameters. DESIGN CHOICE for a command that was outstanding, log 10. -/
def State.hardReset (s : State) : State := { State.reset with params := s.params }

end Sys2Proof.Machine
end

