-- ==== Sys2Proof/Machine/Block.lean ====
section
/-!
DEFINITION. The standalone block commands (spec/41_round_function.md R126 to R128): BENC and BDEC. They read no state
and write none.
-/

namespace Sys2Proof.Machine

/-- The operands of BENC and BDEC: `In[0:16]` is the key and `In[16:24]` the block, when `N = 24` (R126, D30). -/
def keyAndBlock? (B : Bytes) : Option (Key × Block) :=
  if h : B.length = 24 then
    some (⟨sub B 0 16, by simp [sub, h]⟩,
      ⟨sub B 16 24, by simp [sub, h]⟩)
  else none

/-- The shared body of BENC and BDEC, `f` being `E_blk` or `D_blk`. -/
def blockCommand (f : Key → Block → Nat → Order → Block) (ord : BitVec 2) (cycles : BitVec 16) (s : State) : Result :=
  match orderOf? ord with
  | none => s.fail .invalidByteOrder
  | some o =>
    if s.tooLong then s.fail .invalidLength
    else match keyAndBlock? s.inp with
      | none => s.fail .invalidLength
      | some (KB, BB) => s.succeed s.arch (f KB BB (cyclesOf cycles) o).toList

/-- BENC (R126). -/
def execBenc (ord : BitVec 2) (cycles : BitVec 16) (s : State) : Result := blockCommand eBlk ord cycles s

/-- BDEC (R127). -/
def execBdec (ord : BitVec 2) (cycles : BitVec 16) (s : State) : Result := blockCommand dBlk ord cycles s

end Sys2Proof.Machine
end

