-- ==== Sys2Proof/Machine/Cmac.lean ====
section
/-!
DEFINITION. CMAC subkey derivation (spec/45_cmac.md R220 to R222): CMACSK. It reads no state and writes none.
-/

namespace Sys2Proof.Machine

/-- `dbl(x)`, doubling in GF(2^64) (R220). -/
def dbl (x : DWord) : DWord :=
  let y := x <<< 1
  if x.getLsbD 63 then y ^^^ 0x1B else y

/-- `L = E_blk(KB, 0^8, 32, big)` as a big-endian integer (R221). -/
def cmacL (KB : Key) : DWord :=
  BitVec.ofNat 64 (fromBytes (eBlk KB (.zero 8) Config.cmacCycles .big).toList .big)

/-- `subkeys(KB) = (K1, K2)` (R221). -/
def subkeys (KB : Key) : DWord × DWord :=
  let K1 := dbl (cmacL KB)
  (K1, dbl K1)

/-- A subkey as the 8 bytes CMACSK emits, big-endian (R222). -/
def subkeyBytes (K : DWord) : Block := toBytes K.toNat 8 .big

/-- CMACSK (R222). -/
def execCmacsk (s : State) : Result :=
  if s.tooLong then s.fail .invalidLength
  else match ofBytes? 16 s.inp with
    | none => s.fail .invalidKeyLength
    | some KB => s.succeed s.arch ((subkeyBytes (subkeys KB).1).toList ++ (subkeyBytes (subkeys KB).2).toList)

end Sys2Proof.Machine
end

