-- ==== Sys2Proof/Machine/Flags.lean ====
section
/-!
DEFINITION. The core has no arithmetic flags (spec/10_state.md R22); its only status bits are the readback words
STATUS, CONFIG and CTRCFG (R38 to R40), the codes their fields hold, and the 4-bit status code of a response
(spec/60_exceptions.md R251).
-/

namespace Sys2Proof.Machine

/-- The code of CTX (R23): 0 NONE, 1 CONFIGURED, 2 ACTIVE. -/
def CtxState.code : CtxState → BitVec 2
  | .none => 0
  | .configured => 1
  | .active => 2

/-- The code of a mode (R77). -/
def Mode.code : Mode → BitVec 3
  | .ecb => 1
  | .cbc => 2
  | .cfb => 3
  | .ofb => 5
  | .ctr => 6

/-- The MODE field of R23: 0 where no mode is held (R27). -/
def modeCode : Option Mode → BitVec 3
  | none => 0
  | some m => m.code

/-- The code of a byte order in ORD and CORD (R23). -/
def orderCode : Order → BitVec 2
  | .big => 0
  | .little => 1

/-- A one-bit field. -/
def flag (b : Bool) : BitVec 1 := BitVec.ofBool b

/-- The STATUS word (R38): CTX [1:0], KSTGV [2], IVSTGV [3], CTRV [4], KSREM [10:8], every other bit 0. -/
def statusWord (S : Arch) : Word :=
  S.ctx.code.setWidth 32 ||| (flag S.kstgv).setWidth 32 <<< 2 ||| (flag S.ivstgv).setWidth 32 <<< 3 |||
    (flag S.ctrv).setWidth 32 <<< 4 ||| S.ksrem.setWidth 32 <<< 8

/-- The CONFIG word (R39): MODE [10:8], ORD [13:12], ROUNDS [31:16], every other bit 0. -/
def configWord (S : Arch) : Word :=
  (modeCode S.mode).setWidth 32 <<< 8 ||| (orderCode S.ord).setWidth 32 <<< 12 ||| S.rounds.setWidth 32 <<< 16

/-- The CTRCFG word (R40): CORD [13:12], every other bit 0. -/
def ctrcfgWord (S : Arch) : Word := (orderCode S.cord).setWidth 32 <<< 12

/-- The codes 1 to 10 of R251. -/
def Error.code : Error → BitVec 4
  | .invalidKeyLength => 1
  | .invalidIVLength => 2
  | .missingIV => 3
  | .missingCounter => 4
  | .invalidLength => 5
  | .unsupportedMode => 6
  | .invalidByteOrder => 7
  | .invalidState => 8
  | .invalidRounds => 9
  | .invalidCommand => 10

/-- The 4-bit status code of a response (R251). -/
def Status.code : Status → BitVec 4
  | .ok => 0
  | .failed e => e.code

end Sys2Proof.Machine
end

