-- ==== Sys2Proof/Machine/Context.lean ====
section
/-!
DEFINITION. Context construction, readback and clear (spec/42_context.md): LDKEY, LDIV, INIT, RDREG, CLEAR.
-/

namespace Sys2Proof.Machine

/-- LDKEY (R140). -/
def execLdkey (s : State) : Result :=
  if s.tooLong then s.fail .invalidLength
  else match ofBytes? 16 s.inp with
    | none => s.fail .invalidKeyLength
    | some k => s.succeed { s.arch with kstg := k, kstgv := true } []

/-- LDIV (R141). -/
def execLdiv (s : State) : Result :=
  if s.tooLong then s.fail .invalidLength
  else match ofBytes? 8 s.inp with
    | none => s.fail .invalidIVLength
    | some v => s.succeed { s.arch with ivstg := v, ivstgv := true } []

/-- The initial feedback register of a mode (R143). -/
def initialFb (m : Mode) (S : Arch) : Block := if m.needsIV then S.ivstg else .zero 8

/-- The context a successful INIT builds, the staging registers used up (R142, R143, R144). -/
def initContext (m : Mode) (o : Order) (r : BitVec 16) (S : Arch) : Arch :=
  { S with
    key := S.kstg, mode := some m, ord := o, rounds := r
    fb := initialFb m S
    ksbuf := .zero 8, ksrem := 0
    ctx := .configured
    kstg := .zero 16, kstgv := false, ivstg := .zero 8, ivstgv := false }

/-- INIT (R142), its checks in the order of R254. -/
def execInit (mode : BitVec 3) (ord : BitVec 2) (rounds : BitVec 16) (s : State) : Result :=
  match orderOf? ord with
  | none => s.fail .invalidByteOrder
  | some o =>
    match modeOf? mode with
    | none => s.fail .unsupportedMode
    | some m =>
      if (roundsEff rounds).toNat % 2 ≠ 0 then s.fail .invalidRounds
      else if s.tooLong then s.fail .invalidLength
      else if s.inp.length ≠ 0 then s.fail .invalidLength
      else if s.arch.kstgv = false then s.fail .invalidKeyLength
      else if m.needsIV = true ∧ s.arch.ivstgv = false then s.fail .missingIV
      else if m = .ctr ∧ s.arch.ctrv = false then s.fail .missingCounter
      else s.succeed (initContext m o (roundsEff rounds) s.arch) []

/-- What RDREG emits for a register number of R81; no register above 4 exists. -/
def readReg? (reg : BitVec 4) (S : Arch) : Option Bytes :=
  match reg.toNat with
  | 0 => some (toBytes (statusWord S).toNat 4 .big).toList
  | 1 => some (toBytes (configWord S).toNat 4 .big).toList
  | 2 => some (toBytes (ctrcfgWord S).toNat 4 .big).toList
  | 3 => some (toBytes S.cval.toNat 8 .big).toList
  | 4 => some S.nonce.toList
  | _ => none

/-- RDREG (R145). No word decodes to a REG above 4 (R74); such an instruction is answered as the decoder answers its
word, with InvalidCommand before every other check (R81, R254). -/
def execRdreg (reg : BitVec 4) (s : State) : Result :=
  match readReg? reg s.arch with
  | none => s.fail .invalidCommand
  | some out =>
    if s.tooLong then s.fail .invalidLength
    else if s.inp.length ≠ 0 then s.fail .invalidLength
    else s.succeed s.arch out

/-- CLEAR (R146, R283). -/
def execClear (s : State) : Result :=
  if s.tooLong then s.fail .invalidLength
  else if s.inp.length ≠ 0 then s.fail .invalidLength
  else s.succeed .reset []

end Sys2Proof.Machine
end

