-- ==== Sys2Proof/Machine/Counter.lean ====
section
/-!
DEFINITION. The counter generator (spec/44_counter.md): CTRLD, CTRRST, CTRNXT. None of them touches the context or its
keystream carry (D17).
-/

namespace Sys2Proof.Machine

/-- CTRLD (R200). -/
def execCtrld (ord : BitVec 2) (s : State) : Result :=
  match orderOf? ord with
  | none => s.fail .invalidByteOrder
  | some o =>
    if s.tooLong then s.fail .invalidLength
    else match ofBytes? 8 s.inp with
      | none => s.fail .invalidLength
      | some n => s.succeed { s.arch with nonce := n, cord := o, cval := nonceValue n o, ctrv := true } []

/-- CTRRST (R201). -/
def execCtrrst (s : State) : Result :=
  if s.tooLong then s.fail .invalidLength
  else if s.inp.length ≠ 0 then s.fail .invalidLength
  else if s.arch.ctrv = false then s.fail .invalidState
  else s.succeed { s.arch with cval := nonceValue s.arch.nonce s.arch.cord } []

/-- CTRNXT (R202). -/
def execCtrnxt (s : State) : Result :=
  if s.tooLong then s.fail .invalidLength
  else if s.inp.length ≠ 0 then s.fail .invalidLength
  else if s.arch.ctrv = false then s.fail .invalidState
  else s.succeed s.arch.ctrNext s.arch.ctrBlock.toList

end Sys2Proof.Machine
end

