-- ==== Sys2Proof/Machine/Modes.lean ====
section
/-!
DEFINITION. The mode engine (spec/43_modes.md): ENC and DEC in ECB, CBC, CFB, OFB and CTR. `E` and `D` stand for the
context's `E_ctx` and `D_ctx`; a chained transform returns the output blocks and the register it leaves.
-/

namespace Sys2Proof.Machine

/-! ## The whole-block modes -/

/-- CBC encrypt (R175). -/
def cbcEnc (E : Block → Block) : Block → List Block → List Block × Block
  | fb, [] => ([], fb)
  | fb, X :: Xs =>
    let C := E (xor X fb)
    let r := cbcEnc E C Xs
    (C :: r.1, r.2)

/-- CBC decrypt (R176). -/
def cbcDec (D : Block → Block) : Block → List Block → List Block × Block
  | fb, [] => ([], fb)
  | fb, X :: Xs =>
    let r := cbcDec D X Xs
    (xor (D X) fb :: r.1, r.2)

/-- CFB encrypt (R177). -/
def cfbEnc (E : Block → Block) : Block → List Block → List Block × Block
  | fb, [] => ([], fb)
  | fb, X :: Xs =>
    let C := xor X (E fb)
    let r := cfbEnc E C Xs
    (C :: r.1, r.2)

/-- CFB decrypt (R178): the register goes through `E_ctx`, never `D_ctx`. -/
def cfbDec (E : Block → Block) : Block → List Block → List Block × Block
  | fb, [] => ([], fb)
  | fb, X :: Xs =>
    let r := cfbDec E X Xs
    (xor X (E fb) :: r.1, r.2)

/-! ## The keystream modes -/

/-- The next keystream block (R179): OFB encrypts the register into itself, CTR encrypts a counter block. -/
def Arch.refill (S : Arch) : Arch :=
  match S.mode with
  | some .ofb => { S with fb := S.eCtx S.fb, ksbuf := S.eCtx S.fb }
  | _ => { S.ctrNext with ksbuf := S.eCtx S.ctrBlock }

/-- `next_ks_byte()` (R179): the byte, and the state it leaves. The value 8 of `left` is KSREM right after a new block is
made; it exists only inside this function. -/
def Arch.nextKsByte (S : Arch) : Byte × Arch :=
  let S1 := if S.ksrem = 0 then S.refill else S
  let left := if S.ksrem = 0 then 8 else S.ksrem.toNat
  (byteAt S1.ksbuf (8 - left), { S1 with ksrem := BitVec.ofNat 3 (left - 1) })

/-- `for i in 0 .. N-1: emit(In[i] ^ next_ks_byte())` (R180, R181). -/
def xorKeystream : Bytes → Arch → Bytes × Arch
  | [], S => ([], S)
  | b :: bs, S =>
    let k := S.nextKsByte
    let r := xorKeystream bs k.2
    ((b ^^^ k.1) :: r.1, r.2)

/-- OFB and CTR in either direction (R180, R181, R182); without `KS_CARRY` the unused bytes are dropped (R183). -/
def keystreamCipher (p : Params) (S : Arch) (In : Bytes) : Bytes × Arch :=
  let r := xorKeystream In S
  (r.1, if p.ksCarry then r.2 else { r.2 with ksrem := 0 })

/-! ## ENC and DEC -/

/-- The transform of ENC per mode (R173, R175, R177, R180, R181). -/
def encTransform (p : Params) (m : Mode) (S : Arch) (In : Bytes) : Bytes × Arch :=
  match m with
  | .ecb => (unblocks ((blocks In).map S.eCtx), S)
  | .cbc =>
    let r := cbcEnc S.eCtx S.fb (blocks In)
    (unblocks r.1, { S with fb := r.2 })
  | .cfb =>
    let r := cfbEnc S.eCtx S.fb (blocks In)
    (unblocks r.1, { S with fb := r.2 })
  | .ofb | .ctr => keystreamCipher p S In

/-- The transform of DEC per mode (R174, R176, R178, R180, R181). -/
def decTransform (p : Params) (m : Mode) (S : Arch) (In : Bytes) : Bytes × Arch :=
  match m with
  | .ecb => (unblocks ((blocks In).map S.dCtx), S)
  | .cbc =>
    let r := cbcDec S.dCtx S.fb (blocks In)
    (unblocks r.1, { S with fb := r.2 })
  | .cfb =>
    let r := cfbDec S.eCtx S.fb (blocks In)
    (unblocks r.1, { S with fb := r.2 })
  | .ofb | .ctr => keystreamCipher p S In

/-- The entry rule ENC and DEC share (R170, R171), `f` being the transform. A context without a mode is a state R27
and R37(b) rule out, for which R170 names no case: the model stops by name (log 5). -/
def cipherCommand (f : Params → Mode → Arch → Bytes → Bytes × Arch) (s : State) : Result :=
  if s.tooLong then s.fail .invalidLength
  else if s.arch.ctx = .none then s.fail .invalidState
  else match s.arch.mode with
    | none => .fault .contextWithoutMode
    | some m =>
      if m.wholeBlocks = true ∧ s.inp.length % 8 ≠ 0 then s.fail .invalidLength
      else
        let r := f s.params m s.arch s.inp
        s.succeed { r.2 with ctx := .active } r.1

/-- ENC (R170). -/
def execEnc (s : State) : Result := cipherCommand encTransform s

/-- DEC (R170). -/
def execDec (s : State) : Result := cipherCommand decTransform s

end Sys2Proof.Machine
end

