-- ==== Sys2Proof/Machine/Dispatch.lean ====
section
/-!
DEFINITION. exec: one arm per command of spec/opcode_table.json, each calling its own meaning.
-/

namespace Sys2Proof.Machine

def exec (i : Instr) (s : State) : Host.Outcome State Fault Refusal :=
  match i with
  | .ldkey => Sys2Proof.Machine.execLdkey s
  | .ldiv => Sys2Proof.Machine.execLdiv s
  | .init mode ord rounds => Sys2Proof.Machine.execInit mode ord rounds s
  | .enc => Sys2Proof.Machine.execEnc s
  | .dec => Sys2Proof.Machine.execDec s
  | .benc ord cycles => Sys2Proof.Machine.execBenc ord cycles s
  | .bdec ord cycles => Sys2Proof.Machine.execBdec ord cycles s
  | .ctrld ord => Sys2Proof.Machine.execCtrld ord s
  | .ctrrst => Sys2Proof.Machine.execCtrrst s
  | .ctrnxt => Sys2Proof.Machine.execCtrnxt s
  | .cmacsk => Sys2Proof.Machine.execCmacsk s
  | .rdreg reg => Sys2Proof.Machine.execRdreg reg s
  | .clear => Sys2Proof.Machine.execClear s

end Sys2Proof.Machine
end

