-- ==== Sys2Proof/Machine/Step.lean ====
section
/-!
DEFINITION. One step of the core (spec/00_scope.md R5): the outstanding command is decoded and performed as one
indivisible step. With no command outstanding the core is idle and nothing changes (spec/60_exceptions.md R264).
-/

namespace Sys2Proof.Machine

/-- A word that is no command is answered with InvalidCommand (R74 to R76, R81), an ordinary step (R250). -/
def runWord (w : Word) (s : State) : Result :=
  match decode w with
  | .ok i => exec i s
  | .error _ => s.fail .invalidCommand

/-- One step: idle when no command is outstanding, else the whole command (R5, R60, R264). -/
def step (s : State) : Host.Outcome State Fault Refusal :=
  match s.cmd with
  | none => .next s
  | some r => runWord r.word s

/-- The command word `w` made the outstanding command, with the input string of the one it replaces, or an empty one.
The core fetches nothing (R21): commands are loaded from outside, and this stands for the host's issue (log 2). -/
def State.withFetchWord (s : State) (nbits w : Nat) : State :=
  { s with cmd := some ⟨BitVec.ofNat 32 (w % 2 ^ nbits), s.inp⟩ }

end Sys2Proof.Machine
end

