-- ==== Sys2Proof/Machine/Asm.lean ====
section
/-!
DEFINITION. The assembler of the spec's programs (spec/30_encoding.md R84) and the pseudo-commands (R85): a line of
text to the request it stands for. Blanks inside an operand are dropped, and a hex operand may be of any even length,
as the programs of spec/95_test_vectors.md write them (log 11).
-/

namespace Sys2Proof.Machine

/-- A line of R84: a command with its input string, or a raw word. -/
inductive AsmLine where
  | command (i : Instr) (inp : Bytes)
  | raw (w : Word) (inp : Bytes)
deriving DecidableEq, Repr

/-- The request a line assembles to (R84). -/
def AsmLine.request : AsmLine → Request
  | .command i inp => ⟨encode i, inp⟩
  | .raw w inp => ⟨w, inp⟩

/-! ## Numbers and operands -/

/-- The value of a hexadecimal digit, either case. -/
def hexValue? (c : Char) : Option Nat :=
  let n := c.toNat
  if 48 ≤ n ∧ n ≤ 57 then some (n - 48)
  else if 97 ≤ n ∧ n ≤ 102 then some (n - 87)
  else if 65 ≤ n ∧ n ≤ 70 then some (n - 55)
  else none

/-- A hex string as bytes, first byte first (R11). -/
def hexBytes? : List Char → Option Bytes
  | [] => some []
  | hi :: lo :: rest =>
    match hexValue? hi, hexValue? lo, hexBytes? rest with
    | some h, some l, some B => some (BitVec.ofNat 8 (16 * h + l) :: B)
    | _, _, _ => none
  | [_] => none

/-- A number in a base, from digits already read. -/
def number? (base : Nat) (cs : List Char) : Option Nat :=
  if cs = [] then none
  else cs.foldl (fun acc c =>
    match acc, hexValue? c with
    | some n, some d => if d < base then some (base * n + d) else none
    | _, _ => none) (some 0)

/-- `#<n>` with `n` below `bound`. -/
def hashNumber? (bound : Nat) : List Char → Option Nat
  | '#' :: cs => (number? 10 cs).filter (· < bound)
  | _ => none

/-- `<name>=<n>` with `n` a 16-bit count. -/
def count? (name cs : List Char) : Option (BitVec 16) :=
  match cs.dropPrefix? (name ++ ['=']) with
  | some rest => ((number? 10 rest).filter (· < 65536)).map (BitVec.ofNat 16)
  | none => none

/-- The mode operand of INIT (R84, numbers R77). -/
def modeOperand? (cs : List Char) : Option (BitVec 3) :=
  match String.ofList cs with
  | "ECB" => some 1
  | "CBC" => some 2
  | "CFB" => some 3
  | "PGP" => some 4
  | "OFB" => some 5
  | "CTR" => some 6
  | _ => (hashNumber? 8 cs).map (BitVec.ofNat 3)

/-- The order operand (R84). -/
def orderOperand? (cs : List Char) : Option (BitVec 2) :=
  match String.ofList cs with
  | "BE" => some 0
  | "LE" => some 1
  | _ => (hashNumber? 4 cs).map (BitVec.ofNat 2)

/-- The register operand of RDREG (R84, numbers R81). -/
def regOperand? (cs : List Char) : Option (BitVec 4) :=
  match String.ofList cs with
  | "STATUS" => some 0
  | "CONFIG" => some 1
  | "CTRCFG" => some 2
  | "CTRVAL" => some 3
  | "NONCE" => some 4
  | _ => (hashNumber? 16 cs).map (BitVec.ofNat 4)

/-- `0x<8 hex digits>`. -/
def wordOperand? : List Char → Option Word
  | '0' :: 'x' :: cs => if cs.length = 8 then (number? 16 cs).map (BitVec.ofNat 32) else none
  | _ => none

/-- The operands of a line: split at commas, blanks dropped; no text at all is no operand. -/
def operands (cs : List Char) : List (List Char) :=
  let parts := (cs.splitOn ',').map fun p => p.filter fun c => !c.isWhitespace
  if parts = [[]] then [] else parts

/-! ## The lines -/

/-- A command whose one operand is a hex string, or none for the empty string. -/
def hexOnly (i : Instr) : List (List Char) → Option AsmLine
  | [] => some (.command i [])
  | [h] => (hexBytes? h).map (.command i)
  | _ => none

/-- A command with no operand. -/
def noOperand (i : Instr) : List (List Char) → Option AsmLine
  | [] => some (.command i [])
  | _ => none

/-- The operands of INIT: mode, then optionally an order, then optionally a round count. -/
def initLine : List (List Char) → Option AsmLine
  | [m] => (modeOperand? m).map fun mode => .command (.init mode 0 0) []
  | [m, x] =>
    match modeOperand? m, orderOperand? x, count? "rounds".toList x with
    | some mode, some o, _ => some (.command (.init mode o 0) [])
    | some mode, none, some r => some (.command (.init mode 0 r) [])
    | _, _, _ => none
  | [m, o, r] =>
    match modeOperand? m, orderOperand? o, count? "rounds".toList r with
    | some mode, some ord, some n => some (.command (.init mode ord n) [])
    | _, _, _ => none
  | _ => none

/-- The operands of BENC and BDEC: optionally an order, the cycle count, the key and block. -/
def blockLine (f : BitVec 2 → BitVec 16 → Instr) : List (List Char) → Option AsmLine
  | [c, h] =>
    match count? "cycles".toList c, hexBytes? h with
    | some n, some B => some (.command (f 0 n) B)
    | _, _ => none
  | [o, c, h] =>
    match orderOperand? o, count? "cycles".toList c, hexBytes? h with
    | some ord, some n, some B => some (.command (f ord n) B)
    | _, _, _ => none
  | _ => none

/-- The operands of CTRLD: optionally an order, the nonce. -/
def ctrldLine : List (List Char) → Option AsmLine
  | [h] => (hexBytes? h).map (.command (.ctrld 0))
  | [o, h] =>
    match orderOperand? o, hexBytes? h with
    | some ord, some B => some (.command (.ctrld ord) B)
    | _, _ => none
  | _ => none

/-- The operands of `.word`. -/
def rawLine : List (List Char) → Option AsmLine
  | [w] => (wordOperand? w).map fun x => .raw x []
  | [w, h] =>
    match wordOperand? w, hexBytes? h with
    | some x, some B => some (.raw x B)
    | _, _ => none
  | _ => none

/-- A line by its mnemonic (R84), the pseudo-commands expanded as R85 says. -/
def lineOf (mnemonic : String) (ops : List (List Char)) : Option AsmLine :=
  match mnemonic with
  | "LDKEY" => hexOnly .ldkey ops
  | "LDIV" => hexOnly .ldiv ops
  | "INIT" => initLine ops
  | "ENC" => hexOnly .enc ops
  | "DEC" => hexOnly .dec ops
  | "BENC" => blockLine .benc ops
  | "BDEC" => blockLine .bdec ops
  | "CTRLD" => ctrldLine ops
  | "CTRRST" => noOperand .ctrrst ops
  | "CTRNXT" => noOperand .ctrnxt ops
  | "CMACSK" => hexOnly .cmacsk ops
  | "RDREG" =>
    match ops with
    | [r] => (regOperand? r).map fun reg => .command (.rdreg reg) []
    | _ => none
  | "CLEAR" => noOperand .clear ops
  | ".word" => rawLine ops
  | "RDSTATUS" => noOperand (.rdreg 0) ops
  | "RDCONFIG" => noOperand (.rdreg 1) ops
  | "XTEA.E" => hexOnly (.benc 0 32) ops
  | "XTEA.D" => hexOnly (.bdec 0 32) ops
  | "INIT.DEFAULT" =>
    match ops with
    | [m] => (modeOperand? m).map fun mode => .command (.init mode 0 0) []
    | _ => none
  | _ => none

/-- A line of text: the comment after `;` dropped, the mnemonic up to the first blank, the operands after it. -/
def parseLine (line : String) : Option AsmLine :=
  let text := (line.toList.takeWhile (· ≠ ';')).dropWhile Char.isWhitespace
  let name := text.takeWhile fun c => !c.isWhitespace
  lineOf (String.ofList name) (operands (text.drop name.length))

/-- The request a line of text assembles to (R84). -/
def assemble (line : String) : Option Request := (parseLine line).map AsmLine.request

end Sys2Proof.Machine
end

