-- ==== Sys2Proof/Machine/Session.lean ====
section
/-!
DEFINITION. The host's side of the interface over several commands (spec/00_scope.md R5, spec/20_memory.md R62): issue
a command, let the core perform it, read the response, and only then issue the next.
-/

namespace Sys2Proof.Machine

/-- One transaction of R5: `none` when a command is still outstanding or the step gives no response. -/
def transact (s : State) (r : Request) : Option (State × Response) :=
  match s.issue r with
  | none => none
  | some s1 =>
    match step s1 with
    | .next t => t.resp.map fun a => (t, a)
    | .fault _ => none
    | .refused _ => none

/-- A sequence of transactions in issue order (R62): the state it leaves and the responses in order. -/
def session : State → List Request → Option (State × List Response)
  | s, [] => some (s, [])
  | s, r :: rs =>
    match transact s r with
    | none => none
    | some (t, a) => (session t rs).map fun q => (q.1, a :: q.2)

end Sys2Proof.Machine
end

