-- ==== Sys2Proof/Machine/HostMac.lean ====
section
/-!
DEFINITION. The MAC host compositions (spec/45_cmac.md R223 to R229), in scope by R3: the CMAC object with update,
final and hex_digest, the legacy CBC-MAC, and the same computations run on the core by commands (R226). Their state is
the host's, not the core's; their errors are host-side results, not status codes of the core (R251).
-/

namespace Sys2Proof.Machine

/-! ## The CMAC object (R223 to R227) -/

/-- The host-side CMAC object (R223). -/
structure CmacObject where
  /-- `KB`. -/
  kb : Key
  /-- `K1` and `K2`, computed once. -/
  k1 : DWord
  k2 : DWord
  /-- `M`, the accumulated message. -/
  msg : Bytes
  /-- `FIN`. -/
  fin : Bool
deriving DecidableEq, Repr

/-- Construction (R223). The subkeys are those of R221, taken from the function and not from a core's CMACSK: a core whose
MAX_XFER is below 16 would fail that command, and the spec does not say what construction then gives. DESIGN CHOICE, log
15: construction with a 16-byte key always succeeds. -/
def cmacNew (key : Bytes) : Except Error CmacObject :=
  match ofBytes? 16 key with
  | none => .error .invalidKeyLength
  | some KB => .ok ⟨KB, (subkeys KB).1, (subkeys KB).2, [], false⟩

/-- `update(B)` (R224). -/
def CmacObject.update (c : CmacObject) (B : Bytes) : Except Error CmacObject :=
  if c.fin then .error .invalidState else .ok { c with msg := c.msg ++ B }

/-- A last block of fewer than 8 bytes, padded: `T ‖ 0x80 ‖ 0^(7 - r)` (R225). -/
def padBlock (T : Bytes) (h : T.length < 8) : Block :=
  ⟨T ++ 0x80 :: List.replicate (7 - T.length) 0, by
    rw [List.length_append, List.length_cons, List.length_replicate]; omega⟩

/-- The blocks `M_1 .. M_t` of R225, the last one masked with `K1` or padded and masked with `K2`. -/
def cmacBlocks (K1 K2 : DWord) (M : Bytes) : List Block :=
  if h : 0 < M.length ∧ M.length % 8 = 0 then
    blocks (sub M 0 (M.length - 8)) ++
      [xor ⟨sub M (M.length - 8) M.length, by rw [sub, List.length_take, List.length_drop]; omega⟩ (subkeyBytes K1)]
  else
    blocks (sub M 0 (8 * (M.length / 8))) ++
      [xor (padBlock (sub M (8 * (M.length / 8)) M.length) (by rw [sub, List.length_take, List.length_drop]; omega))
        (subkeyBytes K2)]

/-- `X <- 0^8; for each M_j: X <- E_blk(KB, X ^ M_j, 32, big)` (R225, R229). -/
def macChain (KB : Key) (Ms : List Block) : Block :=
  Ms.foldl (fun X M => eBlk KB (xor X M) Config.cmacCycles .big) (.zero 8)

/-- `final()` (R225): the tag, and the object with `FIN` set. -/
def CmacObject.final (c : CmacObject) : Except Error (Block × CmacObject) :=
  if c.fin then .error .invalidState
  else .ok (macChain c.kb (cmacBlocks c.k1 c.k2 c.msg), { c with fin := true })

/-- A hexadecimal digit, lowercase (R227). -/
def hexDigit (n : Nat) : Char := if n < 10 then Char.ofNat (48 + n) else Char.ofNat (87 + n)

/-- The bytes of a string as hexadecimal digits, first byte first (R11, R227). -/
def hexOf (B : Bytes) : List Char := B.flatMap fun b => [hexDigit (b.toNat / 16), hexDigit (b.toNat % 16)]

/-- `hex_digest()` (R227): `final()` with the tag as 16 digits. -/
def CmacObject.hexDigest (c : CmacObject) : Except Error (String × CmacObject) :=
  match c.final with
  | .error e => .error e
  | .ok (X, c') => .ok (String.ofList (hexOf X.toList), c')

/-! ## Legacy CBC-MAC (R229) -/

/-- CBC-MAC takes one or more whole blocks (R229, D20). -/
def cbcMacTakes (M : Bytes) : Bool := M.length % 8 = 0 ∧ M.length ≠ 0

/-- CBC-MAC: no subkey, no padding; an empty or ragged message fails with InvalidLength (D20). -/
def cbcMac (KB : Key) (M : Bytes) : Except Error Block :=
  if cbcMacTakes M then .ok (macChain KB (blocks M)) else .error .invalidLength

/-! ## The same, run on the core (R226) -/

/-- One `BENC BE, cycles=32` on `KB ‖ B`: the word 0x00200006 (R226). -/
def bencRequest (KB : Key) (B : Block) : Request := ⟨0x00200006, KB.toList ++ B.toList⟩

/-- The chain of R226: one BENC per block, the host doing the XORs. The spec does not say what the host has when one of
them fails (MAX_XFER below 24). DESIGN CHOICE, log 14: no tag. -/
def chainOnCore (KB : Key) : State → Block → List Block → Option (State × Block)
  | s, X, [] => some (s, X)
  | s, X, M :: Ms =>
    match transact s (bencRequest KB (xor X M)) with
    | some (t, ⟨.ok, out⟩) =>
      match ofBytes? 8 out with
      | some Y => chainOnCore KB t Y Ms
      | none => none
    | _ => none

/-- `K1` and `K2` from one CMACSK (R226); none when it fails (log 14). -/
def subkeysOnCore (s : State) (KB : Key) : Option (State × DWord × DWord) :=
  match transact s ⟨0x0000000B, KB.toList⟩ with
  | some (t, ⟨.ok, out⟩) =>
    some (t, BitVec.ofNat 64 (fromBytes (sub out 0 8) .big), BitVec.ofNat 64 (fromBytes (sub out 8 16) .big))
  | _ => none

/-- The CMAC tag of a message by CMACSK and BENC (R226). DESIGN CHOICE, log 14: no tag when one of the commands fails, which
the spec leaves open. -/
def cmacOnCore (s : State) (KB : Key) (M : Bytes) : Option (State × Block) :=
  match subkeysOnCore s KB with
  | some (t, K1, K2) => chainOnCore KB t (.zero 8) (cmacBlocks K1 K2 M)
  | none => none

/-- Construction over a core (R223): the length check, then the subkeys by one CMACSK. The inner `none` is a CMACSK that
fails, which R223 leaves open (log 14). -/
def cmacNewOnCore (s : State) (key : Bytes) : Except Error (Option (State × CmacObject)) :=
  match ofBytes? 16 key with
  | none => .error .invalidKeyLength
  | some KB => .ok ((subkeysOnCore s KB).map fun q => (q.1, ⟨KB, q.2.1, q.2.2, [], false⟩))

/-- `final()` over a core (R225, R226): the FIN check, then one BENC per block. The inner `none` is a BENC that fails
(log 14). -/
def CmacObject.finalOnCore (s : State) (c : CmacObject) : Except Error (Option (State × Block × CmacObject)) :=
  if c.fin then .error .invalidState
  else .ok ((chainOnCore c.kb s (.zero 8) (cmacBlocks c.k1 c.k2 c.msg)).map fun q => (q.1, q.2, { c with fin := true }))

/-- `hex_digest()` over a core (R227): `finalOnCore` with the tag as 16 digits. -/
def CmacObject.hexDigestOnCore (s : State) (c : CmacObject) : Except Error (Option (State × String × CmacObject)) :=
  match c.finalOnCore s with
  | .error e => .error e
  | .ok q => .ok (q.map fun p => (p.1, String.ofList (hexOf p.2.1.toList), p.2.2))

/-- CBC-MAC over a core (R229, R3, D19): the length check of D20, then one BENC per block as in R226. The inner `none` is a
BENC that fails, which R229 leaves open (log 14). -/
def cbcMacOnCore (s : State) (KB : Key) (M : Bytes) : Except Error (Option (State × Block)) :=
  if cbcMacTakes M then .ok (chainOnCore KB s (.zero 8) (blocks M)) else .error .invalidLength

/-- The alternative of R226: a CBC context with a zero IV, ENC over all blocks, the last 8 output bytes. -/
def cbcContextRequests (KB : Key) (Ms : List Block) : List Request :=
  [⟨0x00000001, KB.toList⟩, ⟨0x00000002, (ByteVec.zero 8).toList⟩, ⟨0x00000203, []⟩, ⟨0x00000004, unblocks Ms⟩]

/-- The tag that alternative gives: the last 8 bytes of ENC's output. DESIGN CHOICE, log 14: no tag when any of the four
commands fails, which the spec leaves open. -/
def tagByCbcContext (s : State) (KB : Key) (Ms : List Block) : Option (State × Block) :=
  match session s (cbcContextRequests KB Ms) with
  | some (t, [⟨.ok, _⟩, ⟨.ok, _⟩, ⟨.ok, _⟩, ⟨.ok, out⟩]) =>
    (ofBytes? 8 (sub out (out.length - 8) out.length)).map fun X => (t, X)
  | _ => none

end Sys2Proof.Machine
end

