-- ==== Sys2Proof/Safety.lean ====
section
/-!
DEFINITION. The vocabulary of the claims: the invariants of spec/10_state.md R37, a step that answers, the spec's tables
of lengths (R82), errors (R251) and error priority (R254), the keystream of a context (R179), and what the host can read
of a core (R38 to R42). Each table is written from the spec's own table, not from the meanings.
-/

namespace Sys2Proof.Machine

/-! ## Invariants and outcomes -/

/-- The invariants of R37 (a) to (f), on the architectural state. -/
structure Arch.Inv (S : Arch) : Prop where
  /-- R37 (a). -/
  noContext : S.ctx = .none → S.key = .zero 16 ∧ S.mode = none ∧ S.ord = .big ∧ S.rounds = 0 ∧ S.fb = .zero 8 ∧
    S.ksbuf = .zero 8 ∧ S.ksrem = 0
  /-- R37 (b): MODE is one of the implemented modes, ORD is a byte order by its type, ROUNDS is even, 2 to 65534. -/
  context : S.ctx ≠ .none → S.mode ≠ none ∧ S.rounds.toNat % 2 = 0 ∧ 2 ≤ S.rounds.toNat ∧ S.rounds.toNat ≤ 65534
  /-- R37 (c). -/
  ctrHasCounter : S.ctx ≠ .none → S.mode = some .ctr → S.ctrv = true
  /-- R37 (d). -/
  wholeBlocksNoCarry : S.ctx ≠ .none → S.mode = some .ecb ∨ S.mode = some .cbc ∨ S.mode = some .cfb → S.ksrem = 0
  /-- R37 (e). -/
  noCounter : S.ctrv = false → S.nonce = .zero 8 ∧ S.cord = .big ∧ S.cval = 0
  /-- R37 (f). -/
  carryBelowBlock : S.ksrem.toNat ≤ 7

/-- The core once it has answered: `S` is its architectural state, the response is `(st, out)`, no command is outstanding,
and its parameters are as they were (R5). -/
def State.answered (s : State) (S : Arch) (st : Status) (out : Bytes) : State :=
  { arch := S, params := s.params, cmd := none, resp := some ⟨st, out⟩ }

/-- What an error answers: its status, no output, and every field of `S` as it was (R252, R253). -/
def State.answeredError (s : State) (e : Error) : State := s.answered s.arch (.failed e) []

/-- The input is within MAX_XFER, or there is no bound (R58). -/
def Fits (s : State) : Prop := ∀ m, s.params.maxXfer = some m → s.inp.length ≤ m

/-! ## The opcode table -/

/-- The match and mask columns of spec/opcode_table.json, in its order. -/
def opcodeRows : List (Word × Word) :=
  [(0x00000001, 0xFFFFFFFF), (0x00000002, 0xFFFFFFFF), (0x00000003, 0x0000C8FF), (0x00000004, 0xFFFFFFFF),
   (0x00000005, 0xFFFFFFFF), (0x00000006, 0x0000CFFF), (0x00000007, 0x0000CFFF), (0x00000008, 0xFFFFCFFF),
   (0x00000009, 0xFFFFFFFF), (0x0000000A, 0xFFFFFFFF), (0x0000000B, 0xFFFFFFFF), (0x0000000C, 0xFFFFF0FF),
   (0x0000000D, 0xFFFFFFFF)]

/-! ## Lengths and errors -/

/-- The fixed input length of a command and the error of another length (R82); ENC and DEC have none. -/
def fixedLength? : Instr → Option (Nat × Error)
  | .ldkey => some (16, .invalidKeyLength)
  | .ldiv => some (8, .invalidIVLength)
  | .init _ _ _ => some (0, .invalidLength)
  | .enc => none
  | .dec => none
  | .benc _ _ => some (24, .invalidLength)
  | .bdec _ _ => some (24, .invalidLength)
  | .ctrld _ => some (8, .invalidLength)
  | .ctrrst => some (0, .invalidLength)
  | .ctrnxt => some (0, .invalidLength)
  | .cmacsk => some (16, .invalidKeyLength)
  | .rdreg _ => some (0, .invalidLength)
  | .clear => some (0, .invalidLength)

/-- The output length of a command that succeeds on an input of length `N` (R59, R82). -/
def outLength (N : Nat) : Instr → Nat
  | .ldkey => 0
  | .ldiv => 0
  | .init _ _ _ => 0
  | .enc => N
  | .dec => N
  | .benc _ _ => 8
  | .bdec _ _ => 8
  | .ctrld _ => 0
  | .ctrrst => 0
  | .ctrnxt => 8
  | .cmacsk => 16
  | .rdreg reg => if reg.toNat ≤ 2 then 4 else 8
  | .clear => 0

/-- The ORD field of the commands that have one (formats I, B and C). -/
def ordOperand? : Instr → Option (BitVec 2)
  | .init _ ord _ => some ord
  | .benc ord _ => some ord
  | .bdec ord _ => some ord
  | .ctrld ord => some ord
  | .ldkey | .ldiv | .enc | .dec | .ctrrst | .ctrnxt | .cmacsk | .rdreg _ | .clear => none

/-- A context in ECB, CBC or CFB, which take whole blocks (R57). -/
def WholeBlocks (S : Arch) : Prop := S.mode = some .ecb ∨ S.mode = some .cbc ∨ S.mode = some .cfb

/-- A context in OFB or CTR, which take any length (R57). -/
def KeystreamMode (S : Arch) : Prop := S.mode = some .ofb ∨ S.mode = some .ctr

/-- Step 5 of R254: `N > MAX_XFER`. -/
def overMax (s : State) : Prop := ∃ m, s.params.maxXfer = some m ∧ m < s.inp.length

/-- Step 6 of R254: the fixed length of R82 is not met. -/
def wrongLength (i : Instr) (s : State) : Prop := ∃ n e, fixedLength? i = some (n, e) ∧ s.inp.length ≠ n

/-- The causes of R251, one line a code: command `i` in state `s` has the cause of error `e`. -/
def Cause (i : Instr) (s : State) : Error → Prop
  | .invalidKeyLength =>
      ((i = .ldkey ∨ i = .cmacsk) ∧ s.inp.length ≠ 16) ∨ ((∃ m o r, i = .init m o r) ∧ s.arch.kstgv = false)
  | .invalidIVLength => i = .ldiv ∧ s.inp.length ≠ 8
  | .missingIV => (∃ m o r, i = .init m o r ∧ (m = 2 ∨ m = 3 ∨ m = 5)) ∧ s.arch.ivstgv = false
  | .missingCounter => (∃ o r, i = .init 6 o r) ∧ s.arch.ctrv = false
  | .invalidLength =>
      ((i = .enc ∨ i = .dec) ∧ WholeBlocks s.arch ∧ s.inp.length % 8 ≠ 0) ∨
      (i ≠ .ldkey ∧ i ≠ .ldiv ∧ i ≠ .cmacsk ∧ wrongLength i s) ∨ overMax s
  | .unsupportedMode => ∃ m o r, i = .init m o r ∧ (m = 0 ∨ m = 4 ∨ m = 7)
  | .invalidByteOrder => ∃ o, ordOperand? i = some o ∧ (o = 2 ∨ o = 3)
  | .invalidState =>
      ((i = .enc ∨ i = .dec) ∧ s.arch.ctx = .none) ∨ ((i = .ctrrst ∨ i = .ctrnxt) ∧ s.arch.ctrv = false)
  | .invalidRounds => ∃ m o r, i = .init m o r ∧ r ≠ 0 ∧ r.toNat % 2 = 1
  | .invalidCommand => ∃ reg, i = .rdreg reg ∧ 4 < reg.toNat

/-- The state checks of step 7 of R254, in the order the command's rule lists them. -/
def stateChecks (s : State) : Instr → List (Prop × Error)
  | .init m _ _ =>
      [(s.arch.kstgv = false, .invalidKeyLength),
       ((m = 2 ∨ m = 3 ∨ m = 5) ∧ s.arch.ivstgv = false, .missingIV),
       (m = 6 ∧ s.arch.ctrv = false, .missingCounter)]
  | .enc =>
      [(s.arch.ctx = .none, .invalidState), (WholeBlocks s.arch ∧ s.inp.length % 8 ≠ 0, .invalidLength)]
  | .dec =>
      [(s.arch.ctx = .none, .invalidState), (WholeBlocks s.arch ∧ s.inp.length % 8 ≠ 0, .invalidLength)]
  | .ctrrst => [(s.arch.ctrv = false, .invalidState)]
  | .ctrnxt => [(s.arch.ctrv = false, .invalidState)]
  | .ldkey | .ldiv | .benc _ _ | .bdec _ _ | .ctrld _ | .cmacsk | .rdreg _ | .clear => []

/-- Every check of R254 in its order, each with the error it reports. Step 1 is the decoder's; what is left of it for an
instruction is REG. -/
def errorChecks (i : Instr) (s : State) : List (Prop × Error) :=
  [(∃ reg, i = .rdreg reg ∧ 4 < reg.toNat, .invalidCommand),
   (∃ o, ordOperand? i = some o ∧ (o = 2 ∨ o = 3), .invalidByteOrder),
   (∃ m o r, i = .init m o r ∧ (m = 0 ∨ m = 4 ∨ m = 7), .unsupportedMode),
   (∃ m o r, i = .init m o r ∧ r ≠ 0 ∧ r.toNat % 2 = 1, .invalidRounds),
   (overMax s, .invalidLength)] ++
  (match fixedLength? i with
    | some (n, e) => [(s.inp.length ≠ n, e)]
    | none => []) ++
  stateChecks s i

/-- Error `e` is the first of a list of checks that applies. -/
def FirstError (e : Error) : List (Prop × Error) → Prop
  | [] => False
  | (P, e') :: rest => (P ∧ e = e') ∨ (¬ P ∧ FirstError e rest)

/-- None of a list of checks applies. -/
def NoError : List (Prop × Error) → Prop
  | [] => True
  | (P, _) :: rest => ¬ P ∧ NoError rest

/-! ## The round function over the integers -/

/-- The loop of R121 on natural numbers, letter for letter: `(v0, v1, sum)`, reduced modulo 2^32 at the end of each step. -/
def encLoop (K : List Nat) : Nat → Nat × Nat × Nat → Nat × Nat
  | 0, (v0, v1, _) => (v0, v1)
  | n + 1, (v0, v1, sum) =>
    let v0 := (v0 + ((((v1 <<< 4) ^^^ (v1 >>> 5)) + v1) ^^^ (sum + K.getD (sum &&& 3) 0))) % 2 ^ 32
    let sum := (sum + 0x9E3779B9) % 2 ^ 32
    let v1 := (v1 + ((((v0 <<< 4) ^^^ (v0 >>> 5)) + v0) ^^^ (sum + K.getD ((sum >>> 11) &&& 3) 0))) % 2 ^ 32
    encLoop K n (v0, v1, sum)

/-- The loop of R122 the same way; a subtraction is done on integers before it is reduced. -/
def decLoop (K : List Nat) : Nat → Nat × Nat × Nat → Int × Int
  | 0, (v0, v1, _) => (v0, v1)
  | n + 1, (v0, v1, sum) =>
    let v1 := (((v1 : Int) - (((((v0 <<< 4) ^^^ (v0 >>> 5)) + v0) ^^^ (sum + K.getD ((sum >>> 11) &&& 3) 0) : Nat) : Int)) %
      2 ^ 32).toNat
    let sum := (((sum : Int) - 0x9E3779B9) % 2 ^ 32).toNat
    let v0 := (((v0 : Int) - (((((v1 <<< 4) ^^^ (v1 >>> 5)) + v1) ^^^ (sum + K.getD (sum &&& 3) 0) : Nat) : Int)) %
      2 ^ 32).toNat
    decLoop K n (v0, v1, sum)

/-! ## The keystream of a context -/

/-- Keystream block `k` from a state on, counting the blocks not made yet (R179): OFB encrypts the register over and
over, CTR encrypts the counter blocks in turn, each under the context's key and order at ROUNDS / 2 cycles (R125, R29). -/
def ksBlock (S : Arch) (k : Nat) : Block :=
  if S.mode = some .ofb then Nat.iterate (fun X => eBlk S.key X (S.rounds.toNat / 2) S.ord) (k + 1) S.fb
  else eBlk S.key (toBytes (S.cval + BitVec.ofNat 64 k).toNat 8 S.cord) (S.rounds.toNat / 2) S.ord

/-- Keystream byte `i` from a state on: the carried bytes first (R31), then the blocks in order (R179). -/
def ksByte (S : Arch) (i : Nat) : Byte :=
  if i < S.ksrem.toNat then byteAt S.ksbuf (8 - S.ksrem.toNat + i)
  else byteAt (ksBlock S ((i - S.ksrem.toNat) / 8)) ((i - S.ksrem.toNat) % 8)

/-- How many blocks a call of `N` bytes makes: `ceil(max(0, N - r) / 8)` (R179). -/
def ksBlocksMade (S : Arch) (N : Nat) : Nat := (N - S.ksrem.toNat + 7) / 8

/-! ## What the host can read -/

/-- Two cores that agree on every field RDREG shows (R38 to R41); the five secret fields of R42 may differ. -/
def SameReadable (S T : Arch) : Prop :=
  S.kstgv = T.kstgv ∧ S.ivstgv = T.ivstgv ∧ S.ctx = T.ctx ∧ S.mode = T.mode ∧ S.ord = T.ord ∧ S.rounds = T.rounds ∧
    S.ksrem = T.ksrem ∧ S.nonce = T.nonce ∧ S.cord = T.cord ∧ S.cval = T.cval ∧ S.ctrv = T.ctrv

/-- Two contexts with the same key, mode, byte order, rounds, chaining state and counter position (R186). -/
def SameContext (S T : Arch) : Prop :=
  S.key = T.key ∧ S.mode = T.mode ∧ S.ord = T.ord ∧ S.rounds = T.rounds ∧ S.fb = T.fb ∧ S.ksbuf = T.ksbuf ∧
    S.ksrem = T.ksrem ∧ S.cord = T.cord ∧ S.cval = T.cval

end Sys2Proof.Machine
end

