-- ==== Sys2Proof/Certificates/Slice0/Obligations.lean ====
section
/-!
DEFINITION. The statements about the XTEA core, for the provers. Each docstring names the rules of spec/ it formalises.
A docstring names the log entry where its statement covers a case that the model settles and the spec does not state
(logs 8, 11, 13 and 15). Throughout, `State.cmd` and `State.resp` only hold R5's outstanding command and its response
(log 1).
-/

open Sys2Proof Sys2Proof.Machine

/-! ## Encoding -/

/-- R71 to R74, R84: every field of a command survives encoding and decoding, at every value the encoding admits. -/
def Obligations.DecodeOfEncodeGivesInstruction : Prop :=
  ∀ i : Instr, i.wellFormed = true → decode (encode i) = .ok i

/-- R74, R76, R81: a word that decodes is exactly the word of its instruction; no bit of it is ignored. -/
def Obligations.EncodeOfDecodeGivesWord : Prop :=
  ∀ (w : Word) (i : Instr), decode w = .ok i → i.wellFormed = true ∧ encode i = w

/-- R74 against the match and mask columns of opcode_table.json: a word decodes exactly when a row matches it and, for
RDREG, REG is at most 4; and no word matches two rows. -/
def Obligations.DecodesExactlyTheTableWords : Prop :=
  (∀ w : Word, (∃ i, decode w = .ok i) ↔
    (∃ r ∈ opcodeRows, w &&& r.2 = r.1) ∧ (w &&& 0xFF = 0x0C → (w >>> 8).toNat % 16 ≤ 4)) ∧
  opcodeRows.Pairwise fun a b => ∀ w : Word, ¬ (w &&& a.2 = a.1 ∧ w &&& b.2 = b.1)

/-- Words written out from the spec's encodings (R72, R84, 95_test_vectors.md) decode to the commands they stand for. -/
def Obligations.SampleWordsDecode : Prop :=
  decode 0x00000001 = .ok .ldkey ∧ decode 0x00000203 = .ok (.init 2 0 0) ∧ decode 0x00101503 = .ok (.init 5 1 16) ∧
  decode 0x00000004 = .ok .enc ∧ decode 0x00201006 = .ok (.benc 1 32) ∧ decode 0x00001008 = .ok (.ctrld 1) ∧
  decode 0x0000000B = .ok .cmacsk ∧ decode 0x0000030C = .ok (.rdreg 3) ∧ decode 0x0000000D = .ok .clear

/-- R75: an unassigned opcode, 0x00 or 0x0E to 0xFF, fails with InvalidCommand and changes no state. -/
def Obligations.UnassignedOpcodeFails : Prop :=
  ∀ (s : State) (w : Word) (B : Bytes), s.cmd = some ⟨w, B⟩ → w.toNat % 256 = 0 ∨ 0x0E ≤ w.toNat % 256 →
    step s = .next (s.answeredError .invalidCommand)

/-- R76, with the masks of R72: a word with a reserved bit set fails with InvalidCommand, whatever its opcode. -/
def Obligations.ReservedBitsFail : Prop :=
  ∀ (s : State) (w : Word) (B : Bytes), s.cmd = some ⟨w, B⟩ →
    ((w.toNat % 256 ∈ [0x01, 0x02, 0x04, 0x05, 0x09, 0x0A, 0x0B, 0x0D] ∧ w &&& 0xFFFFFF00 ≠ 0) ∨
     (w.toNat % 256 = 0x03 ∧ w &&& 0x0000C800 ≠ 0) ∨
     (w.toNat % 256 ∈ [0x06, 0x07] ∧ w &&& 0x0000CF00 ≠ 0) ∨
     (w.toNat % 256 = 0x08 ∧ w &&& 0xFFFFCF00 ≠ 0) ∨
     (w.toNat % 256 = 0x0C ∧ w &&& 0xFFFFF000 ≠ 0)) →
    step s = .next (s.answeredError .invalidCommand)

/-- R84, R85: the pseudo-commands assemble to the words of their expansions. The blank between key and block in the text is
read as the model chose (log 11). -/
def Obligations.PseudoCommandsExpand : Prop :=
  assemble "RDSTATUS" = some ⟨0x0000000C, []⟩ ∧ assemble "RDCONFIG" = some ⟨0x0000010C, []⟩ ∧
  (assemble "XTEA.E 27f917b1c1da899360e2acaaa6eb923d af20a390547571aa").map Request.word = some 0x00200006 ∧
  (assemble "XTEA.D 27f917b1c1da899360e2acaaa6eb923d d26428af0a202283").map Request.word = some 0x00200007 ∧
  assemble "INIT.DEFAULT CBC" = some ⟨0x00000203, []⟩

/-! ## The step -/

/-- R5, R74: when the outstanding word decodes to `i`, the step is `exec i` at that state, with nothing around it. -/
def Obligations.StepRunsDecodedCommand : Prop :=
  ∀ (s : State) (r : Request) (i : Instr), s.cmd = some r → decode r.word = .ok i → step s = exec i s

/-- R264: with no command outstanding the core is idle, and however many steps pass, every field keeps its value. -/
def Obligations.IdlingChangesNothing : Prop :=
  ∀ (s : State) (n : Nat), s.cmd = none → Sys2Proof.core.run n s = .next s

/-- R252, R253: whatever the word, a response with a nonzero status leaves every field of R23 as it was and has an empty
output. -/
def Obligations.FailedCommandChangesNoState : Prop :=
  ∀ (s t : State) (r : Request) (a : Response), s.cmd = some r → step s = .next t → t.resp = some a → a.st.code ≠ 0 →
    t.arch = s.arch ∧ a.out = []

/-- R5, R250, R288: from every state that keeps the invariants, the step of any word at all with any input gives its
response: it neither faults nor refuses, and no command stays outstanding. -/
def Obligations.EveryCommandIsAnswered : Prop :=
  ∀ (s : State) (r : Request), s.arch.Inv → s.cmd = some r →
    ∃ t a, step s = .next t ∧ t.resp = some a ∧ t.cmd = none ∧ t.params = s.params

/-- R37: every command keeps the invariants (a) to (f). -/
def Obligations.StepKeepsInvariants : Prop :=
  ∀ s t : State, s.arch.Inv → step s = .next t → t.arch.Inv

/-- R37 at reset. -/
def Obligations.ResetMeetsInvariants : Prop := State.reset.arch.Inv

/-- R280: the reset value of every field, and what the readback registers give right after reset. -/
def Obligations.ResetValues : Prop :=
  State.reset.arch =
    { kstg := .zero 16, kstgv := false, ivstg := .zero 8, ivstgv := false, ctx := .none, key := .zero 16, mode := none
      ord := .big, rounds := 0, fb := .zero 8, ksbuf := .zero 8, ksrem := 0, nonce := .zero 8, cord := .big, cval := 0
      ctrv := false } ∧
  (∀ reg : BitVec 4, reg = 0 ∨ reg = 1 ∨ reg = 2 →
    exec (.rdreg reg) State.reset = .next (State.reset.answered State.reset.arch .ok [0, 0, 0, 0])) ∧
  (∀ reg : BitVec 4, reg = 3 ∨ reg = 4 →
    exec (.rdreg reg) State.reset = .next (State.reset.answered State.reset.arch .ok [0, 0, 0, 0, 0, 0, 0, 0]))

/-! ## Errors -/

/-- R254: a word the decoder refuses is InvalidCommand before anything else; of a command's other checks the first that
applies, in the rule's order, is the one reported, and the state stays; when none applies the command succeeds with the
output length of R59 and R82. The premise is the part of R27 without which R170 names no case. The first check of
`errorChecks`, `exec` of an RDREG with REG above 4, which no word decodes to, is the model's reading (log 8). -/
def Obligations.FirstErrorIsReported : Prop :=
  (∀ (s : State) (r : Request) (d : DecodeError), s.cmd = some r → decode r.word = .error d →
    step s = .next (s.answeredError .invalidCommand)) ∧
  (∀ (i : Instr) (s : State), (s.arch.ctx ≠ .none → s.arch.mode ≠ none) →
    (∀ e, FirstError e (errorChecks i s) → exec i s = .next (s.answeredError e)) ∧
    (NoError (errorChecks i s) →
      ∃ S out, exec i s = .next (s.answered S .ok out) ∧ out.length = outLength s.inp.length i))

/-- R251: the codes, and the causes are exhaustive: no command returns a code for any other reason. The InvalidCommand case
of `exec`, an RDREG with REG above 4, is the model's reading (log 8). -/
def Obligations.ErrorHasItsCause : Prop :=
  (Status.ok.code = 0 ∧
    [Error.invalidKeyLength, .invalidIVLength, .missingIV, .missingCounter, .invalidLength, .unsupportedMode,
      .invalidByteOrder, .invalidState, .invalidRounds, .invalidCommand].map (fun e => (Status.failed e).code.toNat) =
    [1, 2, 3, 4, 5, 6, 7, 8, 9, 10]) ∧
  (∀ (i : Instr) (s t : State) (e : Error) (out : Bytes), exec i s = .next t → t.resp = some ⟨.failed e, out⟩ →
    Cause i s e) ∧
  (∀ (s t : State) (r : Request) (out : Bytes), s.cmd = some r → step s = .next t →
    t.resp = some ⟨.failed .invalidCommand, out⟩ → ∃ d, decode r.word = .error d)

/-- R58: over MAX_XFER every command fails, with InvalidLength unless its command word is at fault. InvalidCommand is
`exec` of an RDREG with REG above 4, the model's reading (log 8). -/
def Obligations.OverMaxXferFails : Prop :=
  ∀ (i : Instr) (s : State) (m : Nat), s.params.maxXfer = some m → m < s.inp.length →
    ∃ e, exec i s = .next (s.answeredError e) ∧
      (e = .invalidLength ∨ e = .invalidCommand ∨ e = .invalidByteOrder ∨ e = .unsupportedMode ∨ e = .invalidRounds)

/-! ## The codec -/

/-- R100: each byte of to_bytes, and the rule's examples. For `n` of `2^(8L)` or more, outside the rule's range, it speaks of
the model's total function (log 13). -/
def Obligations.ToBytesGivesDigits : Prop :=
  (∀ n L i : Nat, i < L →
    ((toBytes n L .big).toList[i]?).map BitVec.toNat = some (n / 2 ^ (8 * (L - 1 - i)) % 256) ∧
    ((toBytes n L .little).toList[i]?).map BitVec.toNat = some (n / 2 ^ (8 * i) % 256)) ∧
  (toBytes 0x01020304 4 .big).toList = [1, 2, 3, 4] ∧ (toBytes 0x01020304 4 .little).toList = [4, 3, 2, 1]

/-- R101: from_bytes is the positional sum, and it is below 2^(8L). The empty string, outside the rule's range, has the
model's value 0 (log 13). -/
def Obligations.FromBytesIsPositionalSum : Prop :=
  (∀ B : Bytes,
    fromBytes B .big =
      ((List.range B.length).map fun i => (B.getD i 0).toNat * 2 ^ (8 * (B.length - 1 - i))).sum ∧
    fromBytes B .little = ((List.range B.length).map fun i => (B.getD i 0).toNat * 2 ^ (8 * i)).sum ∧
    ∀ o, fromBytes B o < 2 ^ (8 * B.length)) ∧
  fromBytes [0, 1, 2, 3, 4, 5, 6, 7] .little = 0x0706050403020100

/-- R103: the round trip both ways, and the two orders are the reverse of each other. At length 0, and in the third clause
for `n` of `2^(8L)` or more, it speaks of the model's total functions (log 13). -/
def Obligations.CodecRoundTrips : Prop :=
  (∀ (n L : Nat) (o : Order), n < 2 ^ (8 * L) → fromBytes (toBytes n L o).toList o = n) ∧
  (∀ (L : Nat) (B : ByteVec L) (o : Order), toBytes (fromBytes B.toList o) L o = B) ∧
  (∀ n L : Nat, (toBytes n L .little).toList = (toBytes n L .big).toList.reverse)

/-- R104, R105, R106: word j of a key or block is the four bytes from 4j on, read in the order given; block_bytes writes
its two words one after the other, and is the inverse of block_words. -/
def Obligations.BlockWordsRoundTrip : Prop :=
  (∀ (KB : Key) (o : Order),
    (keyWords KB o).k0.toNat = fromBytes (sub KB.toList 0 4) o ∧ (keyWords KB o).k1.toNat = fromBytes (sub KB.toList 4 8) o ∧
    (keyWords KB o).k2.toNat = fromBytes (sub KB.toList 8 12) o ∧
    (keyWords KB o).k3.toNat = fromBytes (sub KB.toList 12 16) o) ∧
  (∀ (BB : Block) (o : Order),
    (blockWords BB o).1.toNat = fromBytes (sub BB.toList 0 4) o ∧
    (blockWords BB o).2.toNat = fromBytes (sub BB.toList 4 8) o) ∧
  (∀ (v : Word × Word) (o : Order),
    (blockBytes v o).toList = (toBytes v.1.toNat 4 o).toList ++ (toBytes v.2.toNat 4 o).toList) ∧
  (∀ (BB : Block) (o : Order), blockBytes (blockWords BB o) o = BB) ∧
  (∀ (v : Word × Word) (o : Order), blockWords (blockBytes v o) o = v)

/-- R170: the blocks of an input are its consecutive groups of 8 bytes, and an input of a multiple of 8 bytes is exactly
its blocks. -/
def Obligations.BlocksAreTheInput : Prop :=
  (∀ B : Bytes, (blocks B).length = B.length / 8) ∧
  (∀ (B : Bytes) (j : Nat) (X : Block), (blocks B)[j]? = some X → X.toList = (B.drop (8 * j)).take 8) ∧
  (∀ B : Bytes, B.length % 8 = 0 → unblocks (blocks B) = B)

/-! ## The round function -/

/-- R121, R122: xtea_enc and xtea_dec are the rules' loops written over the integers, each step reduced modulo 2^32 only
at its end, whatever the cycle count. -/
def Obligations.XteaFollowsIntegerLoops : Prop :=
  ∀ (K : KeyWords) (v : Word × Word) (n : Nat),
    ((xteaEnc K v n).1.toNat, (xteaEnc K v n).2.toNat) =
      encLoop [K.k0.toNat, K.k1.toNat, K.k2.toNat, K.k3.toNat] n (v.1.toNat, v.2.toNat, 0) ∧
    (((xteaDec K v n).1.toNat : Int), ((xteaDec K v n).2.toNat : Int)) =
      decLoop [K.k0.toNat, K.k1.toNat, K.k2.toNat, K.k3.toNat] n (v.1.toNat, v.2.toNat, 0x9E3779B9 * n % 2 ^ 32)

/-- R123: decrypt undoes encrypt and encrypt undoes decrypt, so encryption is a bijection on pairs of words; and the same
of the block functions of R125, for every key, cycle count and byte order, by R106. -/
def Obligations.XteaDecryptInvertsEncrypt : Prop :=
  (∀ (K : KeyWords) (n : Nat),
    (∀ v, xteaDec K (xteaEnc K v n) n = v) ∧ (∀ v, xteaEnc K (xteaDec K v n) n = v) ∧
    Function.Bijective fun v => xteaEnc K v n) ∧
  (∀ (KB : Key) (BB : Block) (n : Nat) (o : Order), dBlk KB (eBlk KB BB n o) n o = BB ∧ eBlk KB (dBlk KB BB n o) n o = BB)

/-- R124: (a) zero cycles are the identity; (b) one cycle of the zero key on the zero block gives (0, delta); (c) the first
cycle takes K[0] and then K[3]; (d) after n cycles the running sum is (delta * n) mod 2^32, and as many cycles of decryption
starting there bring it back to 0. -/
def Obligations.RoundCornerCases : Prop :=
  (∀ (K : KeyWords) (v : Word × Word), xteaEnc K v 0 = v ∧ xteaDec K v 0 = v) ∧
  xteaEnc ⟨0, 0, 0, 0⟩ (0, 0) 1 = (0x00000000, 0x9E3779B9) ∧
  (∀ K : KeyWords, keyTerm0 K 0 = K.k0 ∧ keyTerm1 K 0x9E3779B9 = 0x9E3779B9 + K.k3) ∧
  (∀ (K : KeyWords) (v0 v1 : Word) (n : Nat),
    (repeatCycle (encCycle K) n ⟨v0, v1, 0⟩).sum = BitVec.ofNat 32 (0x9E3779B9 * n) ∧
    (repeatCycle (decCycle K) n ⟨v0, v1, BitVec.ofNat 32 (0x9E3779B9 * n)⟩).sum = 0)

/-! ## BENC and BDEC -/

/-- R126, R125: the whole of BENC, its errors and its result; it writes no state and reads none. E_blk is xtea_enc between
the reading and the writing of the words. -/
def Obligations.BencAnswers : Prop :=
  (∀ (KB : Key) (BB : Block) (n : Nat) (o : Order),
    eBlk KB BB n o = blockBytes (xteaEnc (keyWords KB o) (blockWords BB o) n) o) ∧
  ∀ (s : State) (ord : BitVec 2) (cycles : BitVec 16),
    (1 < ord.toNat → exec (.benc ord cycles) s = .next (s.answeredError .invalidByteOrder)) ∧
    (ord.toNat ≤ 1 → overMax s ∨ s.inp.length ≠ 24 →
      exec (.benc ord cycles) s = .next (s.answeredError .invalidLength)) ∧
    (∀ (KB : Key) (BB : Block) (o : Order), Fits s → s.inp = KB.toList ++ BB.toList →
      (ord = 0 ∧ o = .big ∨ ord = 1 ∧ o = .little) →
      exec (.benc ord cycles) s = .next (s.answered s.arch .ok (eBlk KB BB cycles.toNat o).toList))

/-- R127, R125: the whole of BDEC; D_blk is xtea_dec between the reading and the writing of the words. -/
def Obligations.BdecAnswers : Prop :=
  (∀ (KB : Key) (BB : Block) (n : Nat) (o : Order),
    dBlk KB BB n o = blockBytes (xteaDec (keyWords KB o) (blockWords BB o) n) o) ∧
  ∀ (s : State) (ord : BitVec 2) (cycles : BitVec 16),
    (1 < ord.toNat → exec (.bdec ord cycles) s = .next (s.answeredError .invalidByteOrder)) ∧
    (ord.toNat ≤ 1 → overMax s ∨ s.inp.length ≠ 24 →
      exec (.bdec ord cycles) s = .next (s.answeredError .invalidLength)) ∧
    (∀ (KB : Key) (BB : Block) (o : Order), Fits s → s.inp = KB.toList ++ BB.toList →
      (ord = 0 ∧ o = .big ∨ ord = 1 ∧ o = .little) →
      exec (.bdec ord cycles) s = .next (s.answered s.arch .ok (dBlk KB BB cycles.toNat o).toList))

/-- R127: on an idle core, BENC then BDEC, and BDEC then BENC, with the same key, order and cycle count, give the
original block back. -/
def Obligations.BencAndBdecUndoEachOther : Prop :=
  ∀ (s : State) (KB : Key) (BB : Block) (ord : BitVec 2) (cycles : BitVec 16),
    s.cmd = none → (∀ m, s.params.maxXfer = some m → 24 ≤ m) → ord.toNat ≤ 1 →
    (∃ t u C, transact s ⟨encode (.benc ord cycles), KB.toList ++ BB.toList⟩ = some (t, ⟨.ok, C⟩) ∧
      transact t ⟨encode (.bdec ord cycles), KB.toList ++ C⟩ = some (u, ⟨.ok, BB.toList⟩)) ∧
    (∃ t u C, transact s ⟨encode (.bdec ord cycles), KB.toList ++ BB.toList⟩ = some (t, ⟨.ok, C⟩) ∧
      transact t ⟨encode (.benc ord cycles), KB.toList ++ C⟩ = some (u, ⟨.ok, BB.toList⟩))

/-! ## Context construction, readback, clear -/

/-- R140: the whole of LDKEY; every other field, KEY among them, keeps its value. -/
def Obligations.LdkeyStagesKey : Prop :=
  ∀ s : State,
    (overMax s → exec .ldkey s = .next (s.answeredError .invalidLength)) ∧
    (Fits s → s.inp.length ≠ 16 → exec .ldkey s = .next (s.answeredError .invalidKeyLength)) ∧
    (∀ k : Key, Fits s → s.inp = k.toList →
      exec .ldkey s = .next (s.answered { s.arch with kstg := k, kstgv := true } .ok []))

/-- R141: the whole of LDIV; every other field, FB among them, keeps its value. -/
def Obligations.LdivStagesIV : Prop :=
  ∀ s : State,
    (overMax s → exec .ldiv s = .next (s.answeredError .invalidLength)) ∧
    (Fits s → s.inp.length ≠ 8 → exec .ldiv s = .next (s.answeredError .invalidIVLength)) ∧
    (∀ v : Block, Fits s → s.inp = v.toList →
      exec .ldiv s = .next (s.answered { s.arch with ivstg := v, ivstgv := true } .ok []))

/-- R142, R143, R144: INIT builds the context from the staging registers and uses them up, in every mode; ROUNDS 0
stands for 64; the counter is bound as it stands. -/
def Obligations.InitCreatesContext : Prop :=
  ∀ (s : State) (mode : BitVec 3) (ord : BitVec 2) (rounds : BitVec 16) (m : Mode) (o : Order),
    (ord = 0 ∧ o = .big ∨ ord = 1 ∧ o = .little) →
    (mode = 1 ∧ m = .ecb ∨ mode = 2 ∧ m = .cbc ∨ mode = 3 ∧ m = .cfb ∨ mode = 5 ∧ m = .ofb ∨ mode = 6 ∧ m = .ctr) →
    rounds.toNat % 2 = 0 → s.inp = [] → s.arch.kstgv = true →
    (m = .cbc ∨ m = .cfb ∨ m = .ofb → s.arch.ivstgv = true) → (m = .ctr → s.arch.ctrv = true) →
    exec (.init mode ord rounds) s = .next (s.answered
      { kstg := .zero 16, kstgv := false, ivstg := .zero 8, ivstgv := false
        ctx := .configured, key := s.arch.kstg, mode := some m, ord := o
        rounds := if rounds = 0 then 64 else rounds
        fb := if m = .ecb ∨ m = .ctr then .zero 8 else s.arch.ivstg
        ksbuf := .zero 8, ksrem := 0
        nonce := s.arch.nonce, cord := s.arch.cord, cval := s.arch.cval, ctrv := s.arch.ctrv } .ok [])

/-- R142: the errors of INIT, each where the checks before it pass; the old context and the staging registers stay. -/
def Obligations.InitErrorsInOrder : Prop :=
  ∀ (s : State) (mode : BitVec 3) (ord : BitVec 2) (rounds : BitVec 16),
    (1 < ord.toNat → exec (.init mode ord rounds) s = .next (s.answeredError .invalidByteOrder)) ∧
    (ord.toNat ≤ 1 → mode.toNat ∈ [0, 4, 7] →
      exec (.init mode ord rounds) s = .next (s.answeredError .unsupportedMode)) ∧
    (ord.toNat ≤ 1 → mode.toNat ∈ [1, 2, 3, 5, 6] →
      (rounds.toNat % 2 = 1 → exec (.init mode ord rounds) s = .next (s.answeredError .invalidRounds)) ∧
      (rounds.toNat % 2 = 0 →
        (overMax s ∨ s.inp ≠ [] → exec (.init mode ord rounds) s = .next (s.answeredError .invalidLength)) ∧
        (s.inp = [] →
          (s.arch.kstgv = false → exec (.init mode ord rounds) s = .next (s.answeredError .invalidKeyLength)) ∧
          (s.arch.kstgv = true →
            (mode.toNat ∈ [2, 3, 5] → s.arch.ivstgv = false →
              exec (.init mode ord rounds) s = .next (s.answeredError .missingIV)) ∧
            (mode.toNat = 6 → s.arch.ctrv = false →
              exec (.init mode ord rounds) s = .next (s.answeredError .missingCounter))))))

/-- R38 to R41, R81, R145: what RDREG gives for each register, the STATUS, CONFIG and CTRCFG words written out as the
sums of their fields at their places, big-endian; RDREG writes no state. A register number above 4 fails with
InvalidCommand, by the word and, as the model reads it (log 8), by the instruction; a register that exists fails with InvalidLength on an input that is not
empty. -/
def Obligations.RdregReadsRegisters : Prop :=
  ([CtxState.none, .configured, .active].map CtxState.code = [0, 1, 2] ∧
    [none, some Mode.ecb, some .cbc, some .cfb, some .ofb, some .ctr].map modeCode = [0, 1, 2, 3, 5, 6] ∧
    [Order.big, .little].map orderCode = [0, 1]) ∧
  (∀ s : State, s.inp = [] →
    exec (.rdreg 0) s = .next (s.answered s.arch .ok (toBytes (s.arch.ctx.code.toNat + 4 * s.arch.kstgv.toNat +
      8 * s.arch.ivstgv.toNat + 16 * s.arch.ctrv.toNat + 256 * s.arch.ksrem.toNat) 4 .big).toList) ∧
    exec (.rdreg 1) s = .next (s.answered s.arch .ok (toBytes (256 * (modeCode s.arch.mode).toNat +
      4096 * (orderCode s.arch.ord).toNat + 65536 * s.arch.rounds.toNat) 4 .big).toList) ∧
    exec (.rdreg 2) s = .next (s.answered s.arch .ok (toBytes (4096 * (orderCode s.arch.cord).toNat) 4 .big).toList) ∧
    exec (.rdreg 3) s = .next (s.answered s.arch .ok (toBytes s.arch.cval.toNat 8 .big).toList) ∧
    exec (.rdreg 4) s = .next (s.answered s.arch .ok s.arch.nonce.toList)) ∧
  (∀ (s : State) (w : Word) (B : Bytes), s.cmd = some ⟨w, B⟩ → w.toNat % 256 = 0x0C → 4 < w.toNat / 256 % 16 →
    step s = .next (s.answeredError .invalidCommand)) ∧
  (∀ (s : State) (reg : BitVec 4), 4 < reg.toNat → exec (.rdreg reg) s = .next (s.answeredError .invalidCommand)) ∧
  (∀ (s : State) (reg : BitVec 4), reg.toNat ≤ 4 → s.inp ≠ [] →
    exec (.rdreg reg) s = .next (s.answeredError .invalidLength))

/-- R42: two cores that differ only in KEY, KSTG, IVSTG, FB and KSBUF answer every command with the same status and
output length, differ only in those fields again afterwards, and, but for ENC and DEC, whose output is the cipher's, give
the same response. So over any sequence of commands the statuses and lengths are the same, and every response that is not
a cipher output. -/
def Obligations.SecretsAreNotReadable : Prop :=
  (∀ (i : Instr) (s s' t t' : State), SameReadable s.arch s'.arch → s.params = s'.params → s.inp = s'.inp →
    exec i s = .next t → exec i s' = .next t' →
    SameReadable t.arch t'.arch ∧ t.params = t'.params ∧
    (∃ a a', t.resp = some a ∧ t'.resp = some a' ∧ a.st = a'.st ∧ a.out.length = a'.out.length) ∧
    (i ≠ .enc → i ≠ .dec → t.resp = t'.resp)) ∧
  (∀ (s s' t t' : State) (rs : List Request) (as as' : List Response), s.cmd = none → s'.cmd = none →
    SameReadable s.arch s'.arch → s.params = s'.params → session s rs = some (t, as) → session s' rs = some (t', as') →
    SameReadable t.arch t'.arch ∧ t.params = t'.params ∧
    as.map (fun a => (a.st, a.out.length)) = as'.map (fun a => (a.st, a.out.length)) ∧
    ∀ (j : Nat) (r : Request), rs[j]? = some r → r.word ≠ encode .enc → r.word ≠ encode .dec → as[j]? = as'[j]?)

/-- R146, R280, R283: CLEAR puts every field of R23 at its reset value; an input that is not empty fails. -/
def Obligations.ClearResetsState : Prop :=
  ∀ s : State,
    (s.inp = [] → exec .clear s = .next (s.answered State.reset.arch .ok [])) ∧
    (s.inp ≠ [] → exec .clear s = .next (s.answeredError .invalidLength))

/-- R282: on an idle core with no MAX_XFER, LDKEY, LDIV and CTRLD in any order and then INIT all succeed and give the
context of every mode, byte order and even round count, with its counter loaded. -/
def Obligations.BootSequenceGivesContext : Prop :=
  ∀ (s : State) (k : Key) (iv nonce : Block) (cord ord : BitVec 2) (mode : BitVec 3) (rounds : BitVec 16)
    (co o : Order) (m : Mode) (rs : List Request),
    s.cmd = none → s.params.maxXfer = none →
    (cord = 0 ∧ co = .big ∨ cord = 1 ∧ co = .little) → (ord = 0 ∧ o = .big ∨ ord = 1 ∧ o = .little) →
    (mode = 1 ∧ m = .ecb ∨ mode = 2 ∧ m = .cbc ∨ mode = 3 ∧ m = .cfb ∨ mode = 5 ∧ m = .ofb ∨ mode = 6 ∧ m = .ctr) →
    rounds.toNat % 2 = 0 →
    rs.Perm [⟨encode .ldkey, k.toList⟩, ⟨encode .ldiv, iv.toList⟩, ⟨encode (.ctrld cord), nonce.toList⟩] →
    ∃ t, session s (rs ++ [⟨encode (.init mode ord rounds), []⟩]) =
        some (t, [⟨.ok, []⟩, ⟨.ok, []⟩, ⟨.ok, []⟩, ⟨.ok, []⟩]) ∧
      t.arch =
        { kstg := .zero 16, kstgv := false, ivstg := .zero 8, ivstgv := false
          ctx := .configured, key := k, mode := some m, ord := o
          rounds := if rounds = 0 then 64 else rounds
          fb := if m = .ecb ∨ m = .ctr then .zero 8 else iv
          ksbuf := .zero 8, ksrem := 0
          nonce := nonce, cord := co, cval := BitVec.ofNat 64 (fromBytes nonce.toList co), ctrv := true }

/-! ## Which command writes what -/

/-- R24 to R36: each field of R23 keeps its value but under the commands the spec names for it, and no command writes
the parameters. -/
def Obligations.FieldsChangeOnlyByTheirCommands : Prop :=
  ∀ (i : Instr) (s t : State), exec i s = .next t →
    t.params = s.params ∧
    ((∃ m o r, i = .init m o r) ∨ i = .clear ∨
      (t.arch.key = s.arch.key ∧ t.arch.mode = s.arch.mode ∧ t.arch.ord = s.arch.ord ∧
        t.arch.rounds = s.arch.rounds)) ∧
    (i = .ldkey ∨ (∃ m o r, i = .init m o r) ∨ i = .clear ∨
      (t.arch.kstg = s.arch.kstg ∧ t.arch.kstgv = s.arch.kstgv)) ∧
    (i = .ldiv ∨ (∃ m o r, i = .init m o r) ∨ i = .clear ∨
      (t.arch.ivstg = s.arch.ivstg ∧ t.arch.ivstgv = s.arch.ivstgv)) ∧
    ((∃ m o r, i = .init m o r) ∨ i = .enc ∨ i = .dec ∨ i = .clear ∨ t.arch.ctx = s.arch.ctx) ∧
    ((∃ m o r, i = .init m o r) ∨ i = .clear ∨ t.arch.fb = s.arch.fb ∨
      ((i = .enc ∨ i = .dec) ∧
        (s.arch.mode = some .cbc ∨ s.arch.mode = some .cfb ∨ s.arch.mode = some .ofb))) ∧
    ((∃ m o r, i = .init m o r) ∨ i = .clear ∨ (t.arch.ksbuf = s.arch.ksbuf ∧ t.arch.ksrem = s.arch.ksrem) ∨
      ((i = .enc ∨ i = .dec) ∧ KeystreamMode s.arch)) ∧
    ((∃ o, i = .ctrld o) ∨ i = .clear ∨
      (t.arch.nonce = s.arch.nonce ∧ t.arch.cord = s.arch.cord ∧ t.arch.ctrv = s.arch.ctrv)) ∧
    ((∃ o, i = .ctrld o) ∨ i = .ctrrst ∨ i = .ctrnxt ∨ i = .clear ∨ t.arch.cval = s.arch.cval ∨
      ((i = .enc ∨ i = .dec) ∧ s.arch.mode = some .ctr))

/-- R36, R171, R252: the moves of CTX. INIT makes it CONFIGURED, ENC and DEC make it ACTIVE from a context, CLEAR makes it
NONE, each only when it succeeds; nothing else moves it. -/
def Obligations.ContextStateMoves : Prop :=
  ∀ (i : Instr) (s t : State) (a : Response), exec i s = .next t → t.resp = some a →
    (a.st ≠ .ok → t.arch.ctx = s.arch.ctx) ∧
    (a.st = .ok →
      ((∃ m o r, i = .init m o r) → t.arch.ctx = .configured) ∧
      (i = .enc ∨ i = .dec → s.arch.ctx ≠ .none ∧ t.arch.ctx = .active) ∧
      (i = .clear → t.arch.ctx = .none) ∧
      ((∀ m o r, i ≠ .init m o r) → i ≠ .enc → i ≠ .dec → i ≠ .clear → t.arch.ctx = s.arch.ctx))

/-! ## The mode engine -/

/-- R170: the errors of ENC and DEC; each leaves the chaining state and CTX alone. -/
def Obligations.CipherErrors : Prop :=
  ∀ (i : Instr) (s : State), i = .enc ∨ i = .dec →
    (overMax s → exec i s = .next (s.answeredError .invalidLength)) ∧
    (Fits s → s.arch.ctx = .none → exec i s = .next (s.answeredError .invalidState)) ∧
    (Fits s → s.arch.ctx ≠ .none → WholeBlocks s.arch → s.inp.length % 8 ≠ 0 →
      exec i s = .next (s.answeredError .invalidLength))

/-- R173, R174, R125, R29: ECB works on each block by itself, with the context's key and order at ROUNDS / 2 cycles, and
writes nothing but CTX. -/
def Obligations.EcbWorksBlockByBlock : Prop :=
  ∀ s : State, Fits s → s.arch.ctx ≠ .none → s.arch.mode = some .ecb → s.inp.length % 8 = 0 →
    (∃ Cs : List Block, exec .enc s = .next (s.answered { s.arch with ctx := .active } .ok (unblocks Cs)) ∧
      Cs.length = s.inp.length / 8 ∧
      ∀ (j : Nat) (X : Block), X.toList = sub s.inp (8 * j) (8 * j + 8) →
        Cs[j]? = some (eBlk s.arch.key X (s.arch.rounds.toNat / 2) s.arch.ord)) ∧
    (∃ Ps : List Block, exec .dec s = .next (s.answered { s.arch with ctx := .active } .ok (unblocks Ps)) ∧
      Ps.length = s.inp.length / 8 ∧
      ∀ (j : Nat) (X : Block), X.toList = sub s.inp (8 * j) (8 * j + 8) →
        Ps[j]? = some (dBlk s.arch.key X (s.arch.rounds.toNat / 2) s.arch.ord))

/-- R175, R176, R125, R29: the CBC equations, with C_(-1) the register FB, and the register left at the last ciphertext
block. -/
def Obligations.CbcChainsBlocks : Prop :=
  ∀ s : State, Fits s → s.arch.ctx ≠ .none → s.arch.mode = some .cbc → s.inp.length % 8 = 0 →
    (∃ Cs : List Block,
      exec .enc s = .next (s.answered
        { s.arch with fb := Cs.getLast?.getD s.arch.fb, ctx := .active } .ok (unblocks Cs)) ∧
      Cs.length = s.inp.length / 8 ∧
      ∀ (j : Nat) (X : Block), X.toList = sub s.inp (8 * j) (8 * j + 8) →
        Cs[j]? =
          some (eBlk s.arch.key (xor X ((s.arch.fb :: Cs).getD j (.zero 8))) (s.arch.rounds.toNat / 2) s.arch.ord)) ∧
    (∃ Ps : List Block,
      exec .dec s = .next (s.answered
        { s.arch with fb := (blocks s.inp).getLast?.getD s.arch.fb, ctx := .active } .ok (unblocks Ps)) ∧
      Ps.length = s.inp.length / 8 ∧
      ∀ (j : Nat) (X : Block), X.toList = sub s.inp (8 * j) (8 * j + 8) →
        Ps[j]? =
          some (xor (dBlk s.arch.key X (s.arch.rounds.toNat / 2) s.arch.ord)
            ((s.arch.fb :: blocks s.inp).getD j (.zero 8))))

/-- R177, R178, R125, R29: the CFB equations; both directions encrypt the register. -/
def Obligations.CfbChainsBlocks : Prop :=
  ∀ s : State, Fits s → s.arch.ctx ≠ .none → s.arch.mode = some .cfb → s.inp.length % 8 = 0 →
    (∃ Cs : List Block,
      exec .enc s = .next (s.answered
        { s.arch with fb := Cs.getLast?.getD s.arch.fb, ctx := .active } .ok (unblocks Cs)) ∧
      Cs.length = s.inp.length / 8 ∧
      ∀ (j : Nat) (X : Block), X.toList = sub s.inp (8 * j) (8 * j + 8) →
        Cs[j]? =
          some (xor X (eBlk s.arch.key ((s.arch.fb :: Cs).getD j (.zero 8)) (s.arch.rounds.toNat / 2) s.arch.ord))) ∧
    (∃ Ps : List Block,
      exec .dec s = .next (s.answered
        { s.arch with fb := (blocks s.inp).getLast?.getD s.arch.fb, ctx := .active } .ok (unblocks Ps)) ∧
      Ps.length = s.inp.length / 8 ∧
      ∀ (j : Nat) (X : Block), X.toList = sub s.inp (8 * j) (8 * j + 8) →
        Ps[j]? =
          some (xor X (eBlk s.arch.key ((s.arch.fb :: blocks s.inp).getD j (.zero 8)) (s.arch.rounds.toNat / 2) s.arch.ord)))

/-- R31, R179, R180, R183: OFB in either direction on an input of any length. Output byte i is input byte i XOR
keystream byte i; the register and KSBUF are left at the last block made, KSREM at what is left of it, or 0 without
KS_CARRY; nothing else changes but CTX. -/
def Obligations.OfbXorsKeystream : Prop :=
  ∀ (i : Instr) (s : State), i = .enc ∨ i = .dec → Fits s → s.arch.ctx ≠ .none → s.arch.mode = some .ofb →
    ∃ out, exec i s = .next (s.answered
        { s.arch with
          fb := if ksBlocksMade s.arch s.inp.length = 0 then s.arch.fb
            else ksBlock s.arch (ksBlocksMade s.arch s.inp.length - 1)
          ksbuf := if ksBlocksMade s.arch s.inp.length = 0 then s.arch.ksbuf
            else ksBlock s.arch (ksBlocksMade s.arch s.inp.length - 1)
          ksrem := if s.params.ksCarry then
              BitVec.ofNat 3 (s.arch.ksrem.toNat + 8 * ksBlocksMade s.arch s.inp.length - s.inp.length)
            else 0
          ctx := .active } .ok out) ∧
      out.length = s.inp.length ∧
      ∀ j, j < s.inp.length → out[j]? = some (s.inp.getD j 0 ^^^ ksByte s.arch j)

/-- R31, R179, R181, R183, R203: CTR in either direction on an input of any length. Each keystream block takes exactly
one counter block, so CVAL advances by the number of blocks made, modulo 2^64. -/
def Obligations.CtrXorsKeystream : Prop :=
  ∀ (i : Instr) (s : State), i = .enc ∨ i = .dec → Fits s → s.arch.ctx ≠ .none → s.arch.mode = some .ctr →
    ∃ out, exec i s = .next (s.answered
        { s.arch with
          cval := s.arch.cval + BitVec.ofNat 64 (ksBlocksMade s.arch s.inp.length)
          ksbuf := if ksBlocksMade s.arch s.inp.length = 0 then s.arch.ksbuf
            else ksBlock s.arch (ksBlocksMade s.arch s.inp.length - 1)
          ksrem := if s.params.ksCarry then
              BitVec.ofNat 3 (s.arch.ksrem.toNat + 8 * ksBlocksMade s.arch s.inp.length - s.inp.length)
            else 0
          ctx := .active } .ok out) ∧
      out.length = s.inp.length ∧
      ∀ j, j < s.inp.length → out[j]? = some (s.inp.getD j 0 ^^^ ksByte s.arch j)

/-- R182: in OFB and CTR, ENC and DEC give the same response and the same next state. -/
def Obligations.KeystreamModesAreDirectionBlind : Prop :=
  ∀ s : State, KeystreamMode s.arch → exec .enc s = exec .dec s

/-- R172, R183: the chaining state persists, so one call on `A ‖ B` gives the outputs and the end state of a call on `A`
and then a call on `B`: in ECB, CBC and CFB at a block boundary, in OFB and CTR anywhere when KS_CARRY is true. -/
def Obligations.OneCallEqualsTwoCalls : Prop :=
  ∀ (i : Instr) (s : State) (A B : Bytes), i = .enc ∨ i = .dec → s.cmd = none →
    (∀ m, s.params.maxXfer = some m → (A ++ B).length ≤ m) → s.arch.ctx ≠ .none →
    (WholeBlocks s.arch ∧ A.length % 8 = 0 ∧ B.length % 8 = 0 ∨ KeystreamMode s.arch ∧ s.params.ksCarry = true) →
    ∃ t1 t2 t X Y, transact s ⟨encode i, A⟩ = some (t1, ⟨.ok, X⟩) ∧ transact t1 ⟨encode i, B⟩ = some (t2, ⟨.ok, Y⟩) ∧
      transact s ⟨encode i, A ++ B⟩ = some (t, ⟨.ok, X ++ Y⟩) ∧ t.arch = t2.arch

/-- R186: two cores whose contexts agree decrypt what the other encrypts, in every mode, for every message that meets
the length rule, and their contexts agree again afterwards. -/
def Obligations.DecryptGivesPlaintextBack : Prop :=
  ∀ (s1 s2 : State) (P : Bytes), s1.cmd = none → s2.cmd = none → s1.arch.ctx ≠ .none → s2.arch.ctx ≠ .none →
    SameContext s1.arch s2.arch → s1.params = s2.params → (∀ m, s1.params.maxXfer = some m → P.length ≤ m) →
    (WholeBlocks s1.arch ∧ P.length % 8 = 0 ∨ KeystreamMode s1.arch) →
    ∃ t1 t2 C, transact s1 ⟨encode .enc, P⟩ = some (t1, ⟨.ok, C⟩) ∧
      transact s2 ⟨encode .dec, C⟩ = some (t2, ⟨.ok, P⟩) ∧ SameContext t1.arch t2.arch

/-- R185 (b), (c), C5: on decryption two ciphertexts that differ in block `i` alone give plaintexts that agree but in
blocks `i` and `i+1`; in CBC the difference of block `i+1`, in CFB the difference of block `i`, is exactly the
ciphertext's. -/
def Obligations.DecryptErrorsStayLocal : Prop :=
  ∀ (s : State) (pre post : List Block) (X X' : Block), s.cmd = none → s.arch.ctx ≠ .none →
    (∀ m, s.params.maxXfer = some m → (unblocks (pre ++ X :: post)).length ≤ m) →
    (s.arch.mode = some .cbc ∨ s.arch.mode = some .cfb) →
    ∃ (t t' : State) (Ps Ps' : List Block),
      transact s ⟨encode .dec, unblocks (pre ++ X :: post)⟩ = some (t, ⟨.ok, unblocks Ps⟩) ∧
      transact s ⟨encode .dec, unblocks (pre ++ X' :: post)⟩ = some (t', ⟨.ok, unblocks Ps'⟩) ∧
      Ps.length = (pre ++ X :: post).length ∧ Ps'.length = (pre ++ X :: post).length ∧
      (∀ j, j ≠ pre.length → j ≠ pre.length + 1 → Ps[j]? = Ps'[j]?) ∧
      (s.arch.mode = some .cbc → ∀ D D', Ps[pre.length + 1]? = some D → Ps'[pre.length + 1]? = some D' →
        xor D D' = xor X X') ∧
      (s.arch.mode = some .cfb → ∀ D D', Ps[pre.length]? = some D → Ps'[pre.length]? = some D' → xor D D' = xor X X')

/-- R185 (d): in OFB and CTR a changed data byte flips the same bits of the same output byte only, and the state left
does not depend on the data. -/
def Obligations.KeystreamErrorsStayInTheirByte : Prop :=
  ∀ (i : Instr) (s : State) (A B : Bytes), i = .enc ∨ i = .dec → s.cmd = none → s.arch.ctx ≠ .none →
    KeystreamMode s.arch → A.length = B.length → (∀ m, s.params.maxXfer = some m → A.length ≤ m) →
    ∃ t t' X Y, transact s ⟨encode i, A⟩ = some (t, ⟨.ok, X⟩) ∧ transact s ⟨encode i, B⟩ = some (t', ⟨.ok, Y⟩) ∧
      t.arch = t'.arch ∧ List.zipWith (· ^^^ ·) X Y = List.zipWith (· ^^^ ·) A B

/-! ## The counter generator -/

/-- R200: the whole of CTRLD; the context and its keystream carry keep their values. -/
def Obligations.CtrldLoadsCounter : Prop :=
  ∀ (s : State) (ord : BitVec 2),
    (1 < ord.toNat → exec (.ctrld ord) s = .next (s.answeredError .invalidByteOrder)) ∧
    (ord.toNat ≤ 1 → overMax s ∨ s.inp.length ≠ 8 → exec (.ctrld ord) s = .next (s.answeredError .invalidLength)) ∧
    (∀ (n : Block) (o : Order), Fits s → s.inp = n.toList → (ord = 0 ∧ o = .big ∨ ord = 1 ∧ o = .little) →
      exec (.ctrld ord) s = .next (s.answered
        { s.arch with nonce := n, cord := o, cval := BitVec.ofNat 64 (fromBytes n.toList o), ctrv := true } .ok []))

/-- R201: the whole of CTRRST. -/
def Obligations.CtrrstRewindsCounter : Prop :=
  ∀ s : State,
    (s.inp ≠ [] → exec .ctrrst s = .next (s.answeredError .invalidLength)) ∧
    (s.inp = [] → s.arch.ctrv = false → exec .ctrrst s = .next (s.answeredError .invalidState)) ∧
    (s.inp = [] → s.arch.ctrv = true → exec .ctrrst s = .next (s.answered
      { s.arch with cval := BitVec.ofNat 64 (fromBytes s.arch.nonce.toList s.arch.cord) } .ok []))

/-- R202, R203: the whole of CTRNXT: CVAL encoded in CORD before the increment modulo 2^64. -/
def Obligations.CtrnxtGivesCounterBlock : Prop :=
  ∀ s : State,
    (s.inp ≠ [] → exec .ctrnxt s = .next (s.answeredError .invalidLength)) ∧
    (s.inp = [] → s.arch.ctrv = false → exec .ctrnxt s = .next (s.answeredError .invalidState)) ∧
    (s.inp = [] → s.arch.ctrv = true → exec .ctrnxt s = .next (s.answered
      { s.arch with cval := s.arch.cval + 1 } .ok (toBytes s.arch.cval.toNat 8 s.arch.cord).toList))

/-- R203, R204: after CTRLD, `k` CTRNXT give the nonce's value and its successors modulo 2^64 in the counter's order,
the first of them the nonce itself byte for byte. -/
def Obligations.CounterBlocksCountFromNonce : Prop :=
  ∀ (s : State) (n : Block) (ord : BitVec 2) (o : Order) (k : Nat), s.cmd = none →
    (∀ m, s.params.maxXfer = some m → 8 ≤ m) → (ord = 0 ∧ o = .big ∨ ord = 1 ∧ o = .little) →
    ∃ t as, session s (⟨encode (.ctrld ord), n.toList⟩ :: List.replicate k ⟨encode .ctrnxt, []⟩) =
        some (t, ⟨.ok, []⟩ :: as) ∧ as.length = k ∧
      (∀ j, j < k → as[j]? = some ⟨.ok, (toBytes ((fromBytes n.toList o + j) % 2 ^ 64) 8 o).toList⟩) ∧
      (0 < k → as[0]? = some ⟨.ok, n.toList⟩) ∧
      t.arch.cval.toNat = (fromBytes n.toList o + k) % 2 ^ 64

/-! ## CMAC and the MAC host compositions -/

/-- R222 with R220 and R221: the whole of CMACSK, its output the big-endian K1 ‖ K2. -/
def Obligations.CmacskGivesSubkeys : Prop :=
  ∀ s : State,
    (overMax s → exec .cmacsk s = .next (s.answeredError .invalidLength)) ∧
    (Fits s → s.inp.length ≠ 16 → exec .cmacsk s = .next (s.answeredError .invalidKeyLength)) ∧
    (∀ (KB : Key) (L : DWord), Fits s → s.inp = KB.toList →
      L.toNat = fromBytes (eBlk KB (.zero 8) 32 .big).toList .big →
      exec .cmacsk s = .next (s.answered s.arch .ok
        ((toBytes (dbl L).toNat 8 .big).toList ++ (toBytes (dbl (dbl L)).toNat 8 .big).toList)))

/-- R220, R228: doubling is multiplication by two modulo 2^64 with 0x1B folded in when the top bit falls out; it is a
bijection, so keys with different L have different K1 and different K2. -/
def Obligations.DoublingIsBijective : Prop :=
  (∀ x : DWord, (dbl x).toNat = if x.toNat < 2 ^ 63 then 2 * x.toNat else (2 * x.toNat - 2 ^ 64) ^^^ 0x1B) ∧
  Function.Bijective dbl ∧
  (∀ A B : Key, cmacL A ≠ cmacL B → (subkeys A).1 ≠ (subkeys B).1 ∧ (subkeys A).2 ≠ (subkeys B).2)

/-- R223, R225, R226, R227: the CMAC tag run on an idle core by CMACSK and BENC is the tag of the CMAC object, for every
message, and the core's state is untouched. An object constructed over a core is the host's, and finished over any idle core
it gives the same tag and digest. R229, R3: the legacy CBC-MAC, run by BENC, checks the length as the host's does and
gives its tag, the core's state untouched. -/
def Obligations.CmacOnCoreGivesTag : Prop :=
  (∀ (s : State) (KB : Key) (M : Bytes), s.cmd = none → (∀ m, s.params.maxXfer = some m → 24 ≤ m) →
    ∃ c c' d X t, cmacNew KB.toList = .ok c ∧ c.update M = .ok c' ∧ c'.final = .ok (X, d) ∧
      cmacOnCore s KB M = some (t, X) ∧ t.arch = s.arch ∧ t.cmd = none ∧
      (∃ u, cmacNewOnCore s KB.toList = .ok (some (u, c)) ∧ u.arch = s.arch ∧ u.cmd = none) ∧
      (∀ v : State, v.cmd = none → (∀ m, v.params.maxXfer = some m → 24 ≤ m) →
        ∃ w h, c'.finalOnCore v = .ok (some (w, X, d)) ∧ c'.hexDigestOnCore v = .ok (some (w, h, d)) ∧
          c'.hexDigest = .ok (h, d) ∧ w.arch = v.arch ∧ w.cmd = none)) ∧
  (∀ (s : State) (KB : Key) (M : Bytes), M.length % 8 ≠ 0 ∨ M = [] → cbcMacOnCore s KB M = .error .invalidLength) ∧
  (∀ (s : State) (KB : Key) (M : Bytes), s.cmd = none → (∀ m, s.params.maxXfer = some m → 24 ≤ m) →
    M.length % 8 = 0 → M ≠ [] →
    ∃ t X, cbcMacOnCore s KB M = .ok (some (t, X)) ∧ cbcMac KB M = .ok X ∧ t.arch = s.arch ∧ t.cmd = none)

/-- R226: the alternative by a CBC context with a zero IV, whose four commands all succeed, gives the same tag, and replaces
the core's context. -/
def Obligations.CbcContextGivesSameTag : Prop :=
  ∀ (s : State) (KB : Key) (M : Bytes), s.cmd = none → s.params.maxXfer = none →
    ∃ t, tagByCbcContext s KB (cmacBlocks (subkeys KB).1 (subkeys KB).2 M) =
        some (t, macChain KB (cmacBlocks (subkeys KB).1 (subkeys KB).2 M)) ∧
      t.arch.key = KB ∧ t.arch.mode = some .cbc ∧ t.arch.ctx = .active

/-- R223, R224, R225, R227: the life of a CMAC object. Construction takes a 16-byte key, computes the subkeys and starts
with an empty message, whatever bound a core has on its input (log 15); update appends; final gives the tag and sets FIN,
hex_digest the same with the tag as 16 lowercase digits, first byte first; after either of them every further update, final
and hex_digest fails with InvalidState. -/
def Obligations.CmacObjectLife : Prop :=
  (∀ key : Bytes, key.length ≠ 16 → cmacNew key = .error .invalidKeyLength) ∧
  (∀ KB : Key, cmacNew KB.toList = .ok ⟨KB, (subkeys KB).1, (subkeys KB).2, [], false⟩) ∧
  (∀ (c : CmacObject) (B : Bytes), c.fin = false → c.update B = .ok { c with msg := c.msg ++ B }) ∧
  (∀ c : CmacObject, c.fin = false →
    c.final = .ok (macChain c.kb (cmacBlocks c.k1 c.k2 c.msg), { c with fin := true }) ∧
    ∃ h, c.hexDigest = .ok (h, { c with fin := true }) ∧ h.toList.length = 16 ∧
      h.toList = (macChain c.kb (cmacBlocks c.k1 c.k2 c.msg)).toList.flatMap fun b =>
        ["0123456789abcdef".toList.getD (b.toNat / 16) '?', "0123456789abcdef".toList.getD (b.toNat % 16) '?']) ∧
  (∀ (c : CmacObject) (B : Bytes), c.fin = true →
    c.update B = .error .invalidState ∧ c.final = .error .invalidState ∧ c.hexDigest = .error .invalidState)

/-- R225: the blocks the tag is computed over. A non-empty message of whole blocks has its last block XORed with K1; any
other, one with a tail or the empty message, has its tail followed by 0x80 and zero bytes up to a block, XORed with K2; every earlier block is as it stands. -/
def Obligations.CmacPadsLastBlock : Prop :=
  (∀ (K1 K2 : DWord) (Ms : List Block) (M : Block),
    cmacBlocks K1 K2 (unblocks (Ms ++ [M])) = Ms ++ [xor M (toBytes K1.toNat 8 .big)]) ∧
  (∀ (K1 K2 : DWord) (Ms : List Block) (T : Bytes) (M : Block), T.length < 8 → T ≠ [] ∨ Ms = [] →
    M.toList = T ++ [0x80] ++ List.replicate (7 - T.length) 0 →
    cmacBlocks K1 K2 (unblocks Ms ++ T) = Ms ++ [xor M (toBytes K2.toNat 8 .big)])

/-- R229: CBC-MAC takes a message of one or more whole blocks and no other. Its tag is the chain from the zero block over
the message's blocks, one E_blk at 32 cycles, big-endian, for each. It admits the forgery the rule documents: for a
one-block message m with tag t, the message m ‖ (m ^ t) has the tag t. -/
def Obligations.CbcMacForgery : Prop :=
  (∀ (KB : Key) (M : Bytes), M.length % 8 ≠ 0 ∨ M = [] → cbcMac KB M = .error .invalidLength) ∧
  (∀ (KB : Key) (M : Bytes), M.length % 8 = 0 → M ≠ [] → cbcMac KB M = .ok (macChain KB (blocks M))) ∧
  (∀ KB : Key, macChain KB [] = .zero 8) ∧
  (∀ (KB : Key) (Ms : List Block) (M : Block),
    macChain KB (Ms ++ [M]) = eBlk KB (xor (macChain KB Ms) M) 32 .big) ∧
  (∀ (KB : Key) (m : Block), ∃ t, cbcMac KB m.toList = .ok t ∧ cbcMac KB (m.toList ++ (xor m t).toList) = .ok t)
end

