-- ==== Sys2Proof/Laws/Codec.lean ====
section
/-!
SUPPORT. Lemmas about byte strings, blocks and XOR: lengths, and the algebra the modes rest on.
-/

namespace Sys2Proof.Machine

/-! ## Lengths -/

@[simp] theorem length_toList {n : Nat} (B : ByteVec n) : B.toList.length = n := B.len

@[simp] theorem append_toList {m n : Nat} (A : ByteVec m) (B : ByteVec n) : (append A B).toList = A.toList ++ B.toList := rfl

@[simp] theorem xor_toList {n : Nat} (A B : ByteVec n) :
    (xor A B).toList = List.zipWith (· ^^^ ·) A.toList B.toList := rfl

@[simp] theorem zero_toList (n : Nat) : (ByteVec.zero n).toList = List.replicate n 0 := rfl

@[simp] theorem unblocks_nil : unblocks [] = [] := rfl

@[simp] theorem unblocks_cons (X : Block) (Xs : List Block) : unblocks (X :: Xs) = X.toList ++ unblocks Xs := rfl

@[simp] theorem unblocks_append (Xs Ys : List Block) : unblocks (Xs ++ Ys) = unblocks Xs ++ unblocks Ys := by
  simp [unblocks]

@[simp] theorem length_unblocks (Xs : List Block) : (unblocks Xs).length = 8 * Xs.length := by
  induction Xs with
  | nil => rfl
  | cons X Xs ih => simp [ih]; omega

/-! ## Blocks -/

/-- The first block of a string, and the blocks of the rest. -/
theorem blocks_cons (X : Block) (rest : Bytes) : blocks (X.toList ++ rest) = X :: blocks rest := by
  obtain ⟨l, h⟩ := X
  match l, h with
  | [b0, b1, b2, b3, b4, b5, b6, b7], _ => simp [blocks]

/-- Fewer than 8 bytes hold no block. -/
theorem blocks_short {T : Bytes} (h : T.length < 8) : blocks T = [] := by
  match T, h with
  | [], _ | [_], _ | [_, _], _ | [_, _, _], _ | [_, _, _, _], _ | [_, _, _, _, _], _ | [_, _, _, _, _, _], _
  | [_, _, _, _, _, _, _], _ => rfl

/-- Splitting the bytes of a block sequence, with a short tail after it, gives the sequence back. -/
theorem blocks_unblocks_append (Xs : List Block) {T : Bytes} (h : T.length < 8) : blocks (unblocks Xs ++ T) = Xs := by
  induction Xs with
  | nil => simpa using blocks_short h
  | cons X Xs ih => rw [unblocks_cons, List.append_assoc, blocks_cons, ih]

@[simp] theorem blocks_unblocks (Xs : List Block) : blocks (unblocks Xs) = Xs := by
  simpa using blocks_unblocks_append Xs (T := []) (by simp)

/-- Every byte string is the bytes of some blocks and a tail of fewer than 8 bytes. -/
theorem exists_blocks_tail (B : Bytes) : ∃ (Xs : List Block) (T : Bytes), B = unblocks Xs ++ T ∧ T.length < 8 := by
  induction B using blocks.induct with
  | case1 b0 b1 b2 b3 b4 b5 b6 b7 rest ih =>
    obtain ⟨Xs, T, rfl, hT⟩ := ih
    exact ⟨⟨[b0, b1, b2, b3, b4, b5, b6, b7], rfl⟩ :: Xs, T, by simp, hT⟩
  | case2 B h =>
    refine ⟨[], B, rfl, ?_⟩
    rcases B with _ | ⟨b0, _ | ⟨b1, _ | ⟨b2, _ | ⟨b3, _ | ⟨b4, _ | ⟨b5, _ | ⟨b6, _ | ⟨b7, rest⟩⟩⟩⟩⟩⟩⟩⟩
    all_goals first | exact absurd rfl (h _ _ _ _ _ _ _ _ _) | simp

/-- `ofBytes?` accepts exactly the right length. -/
theorem ofBytes?_eq_some {n : Nat} {B : Bytes} {V : ByteVec n} : ofBytes? n B = some V ↔ B = V.toList := by
  unfold ofBytes?
  split
  · constructor
    · intro h; cases h; rfl
    · rintro rfl; rfl
  · constructor
    · intro h; cases h
    · rintro rfl; exact absurd V.len ‹_›

theorem ofBytes?_eq_none {n : Nat} {B : Bytes} : ofBytes? n B = none ↔ B.length ≠ n := by
  unfold ofBytes?
  split <;> simp_all

@[simp] theorem ofBytes?_toList {n : Nat} (V : ByteVec n) : ofBytes? n V.toList = some V := ofBytes?_eq_some.2 rfl

/-! ## XOR (R9) -/

theorem xor_comm {n : Nat} (A B : ByteVec n) : xor A B = xor B A := by
  ext1
  exact List.zipWith_comm_of_comm (fun a b => BitVec.xor_comm a b)

/-- XOR with the same string twice is the identity, on lists of one length. -/
theorem zipWith_xor_cancel : ∀ A B : Bytes, A.length = B.length →
    List.zipWith (· ^^^ ·) (List.zipWith (· ^^^ ·) A B) B = A
  | [], [], _ => rfl
  | a :: A, b :: B, h => by
    simp only [List.zipWith_cons_cons, zipWith_xor_cancel A B (by simpa using h), BitVec.xor_assoc, BitVec.xor_self,
      BitVec.xor_zero]

theorem xor_xor_cancel {n : Nat} (A B : ByteVec n) : xor (xor A B) B = A := by
  ext1
  exact zipWith_xor_cancel _ _ (by simp)

@[simp] theorem xor_self_left {n : Nat} (A B : ByteVec n) : xor A (xor A B) = B := by
  rw [xor_comm A (xor A B), xor_comm A B, xor_xor_cancel]

end Sys2Proof.Machine
end

