-- ==== Sys2Proof/Laws/State.lean ====
section
/-!
SUPPORT. One lemma per field per update of the state, each true by rfl, so that no later proof unfolds a record update;
and the two ways a command ends, as the claims write them.
-/

namespace Sys2Proof.Machine

/-! ## Answering -/

@[simp] theorem answered_arch (s : State) (S : Arch) (st : Status) (out : Bytes) : (s.answered S st out).arch = S := rfl
@[simp] theorem answered_params (s : State) (S : Arch) (st : Status) (out : Bytes) :
    (s.answered S st out).params = s.params := rfl
@[simp] theorem answered_cmd (s : State) (S : Arch) (st : Status) (out : Bytes) : (s.answered S st out).cmd = none := rfl
@[simp] theorem answered_inp (s : State) (S : Arch) (st : Status) (out : Bytes) : (s.answered S st out).inp = [] := rfl
@[simp] theorem answered_resp (s : State) (S : Arch) (st : Status) (out : Bytes) :
    (s.answered S st out).resp = some ⟨st, out⟩ := rfl
@[simp] theorem answeredError_arch (s : State) (e : Error) : (s.answeredError e).arch = s.arch := rfl
@[simp] theorem answeredError_params (s : State) (e : Error) : (s.answeredError e).params = s.params := rfl
@[simp] theorem answeredError_cmd (s : State) (e : Error) : (s.answeredError e).cmd = none := rfl
@[simp] theorem answeredError_inp (s : State) (e : Error) : (s.answeredError e).inp = [] := rfl
@[simp] theorem answeredError_resp (s : State) (e : Error) : (s.answeredError e).resp = some ⟨.failed e, []⟩ := rfl

/-- `succeed` answers OK with the command's writes and output (R10). -/
theorem succeed_eq (s : State) (S : Arch) (out : Bytes) : s.succeed S out = .next (s.answered S .ok out) := rfl

/-- `fail` answers the error, no output and the state as it was (R252, R253). -/
theorem fail_eq (s : State) (e : Error) : s.fail e = .next (s.answeredError e) := rfl

/-! ## The counter step (R203) -/

@[simp] theorem ctrNext_cval (S : Arch) : S.ctrNext.cval = S.cval + 1 := rfl
@[simp] theorem ctrNext_ctrv (S : Arch) : S.ctrNext.ctrv = S.ctrv := rfl
@[simp] theorem ctrNext_nonce (S : Arch) : S.ctrNext.nonce = S.nonce := rfl
@[simp] theorem ctrNext_cord (S : Arch) : S.ctrNext.cord = S.cord := rfl
@[simp] theorem ctrNext_kstg (S : Arch) : S.ctrNext.kstg = S.kstg := rfl
@[simp] theorem ctrNext_kstgv (S : Arch) : S.ctrNext.kstgv = S.kstgv := rfl
@[simp] theorem ctrNext_ivstg (S : Arch) : S.ctrNext.ivstg = S.ivstg := rfl
@[simp] theorem ctrNext_ivstgv (S : Arch) : S.ctrNext.ivstgv = S.ivstgv := rfl
@[simp] theorem ctrNext_ctx (S : Arch) : S.ctrNext.ctx = S.ctx := rfl
@[simp] theorem ctrNext_key (S : Arch) : S.ctrNext.key = S.key := rfl
@[simp] theorem ctrNext_mode (S : Arch) : S.ctrNext.mode = S.mode := rfl
@[simp] theorem ctrNext_ord (S : Arch) : S.ctrNext.ord = S.ord := rfl
@[simp] theorem ctrNext_rounds (S : Arch) : S.ctrNext.rounds = S.rounds := rfl
@[simp] theorem ctrNext_fb (S : Arch) : S.ctrNext.fb = S.fb := rfl
@[simp] theorem ctrNext_ksbuf (S : Arch) : S.ctrNext.ksbuf = S.ksbuf := rfl
@[simp] theorem ctrNext_ksrem (S : Arch) : S.ctrNext.ksrem = S.ksrem := rfl

/-! ## The context INIT builds (R142) -/

@[simp] theorem initContext_key (m : Mode) (o : Order) (r : BitVec 16) (S : Arch) : (initContext m o r S).key = S.kstg := rfl
@[simp] theorem initContext_mode (m : Mode) (o : Order) (r : BitVec 16) (S : Arch) :
    (initContext m o r S).mode = some m := rfl
@[simp] theorem initContext_ord (m : Mode) (o : Order) (r : BitVec 16) (S : Arch) : (initContext m o r S).ord = o := rfl
@[simp] theorem initContext_rounds (m : Mode) (o : Order) (r : BitVec 16) (S : Arch) :
    (initContext m o r S).rounds = r := rfl
@[simp] theorem initContext_fb (m : Mode) (o : Order) (r : BitVec 16) (S : Arch) :
    (initContext m o r S).fb = initialFb m S := rfl
@[simp] theorem initContext_ksbuf (m : Mode) (o : Order) (r : BitVec 16) (S : Arch) :
    (initContext m o r S).ksbuf = .zero 8 := rfl
@[simp] theorem initContext_ksrem (m : Mode) (o : Order) (r : BitVec 16) (S : Arch) : (initContext m o r S).ksrem = 0 := rfl
@[simp] theorem initContext_ctx (m : Mode) (o : Order) (r : BitVec 16) (S : Arch) :
    (initContext m o r S).ctx = .configured := rfl
@[simp] theorem initContext_kstg (m : Mode) (o : Order) (r : BitVec 16) (S : Arch) :
    (initContext m o r S).kstg = .zero 16 := rfl
@[simp] theorem initContext_kstgv (m : Mode) (o : Order) (r : BitVec 16) (S : Arch) :
    (initContext m o r S).kstgv = false := rfl
@[simp] theorem initContext_ivstg (m : Mode) (o : Order) (r : BitVec 16) (S : Arch) :
    (initContext m o r S).ivstg = .zero 8 := rfl
@[simp] theorem initContext_ivstgv (m : Mode) (o : Order) (r : BitVec 16) (S : Arch) :
    (initContext m o r S).ivstgv = false := rfl
@[simp] theorem initContext_nonce (m : Mode) (o : Order) (r : BitVec 16) (S : Arch) :
    (initContext m o r S).nonce = S.nonce := rfl
@[simp] theorem initContext_cord (m : Mode) (o : Order) (r : BitVec 16) (S : Arch) :
    (initContext m o r S).cord = S.cord := rfl
@[simp] theorem initContext_cval (m : Mode) (o : Order) (r : BitVec 16) (S : Arch) :
    (initContext m o r S).cval = S.cval := rfl
@[simp] theorem initContext_ctrv (m : Mode) (o : Order) (r : BitVec 16) (S : Arch) :
    (initContext m o r S).ctrv = S.ctrv := rfl

/-! ## The host's moves -/

@[simp] theorem hardReset_arch (s : State) : s.hardReset.arch = .reset := rfl
@[simp] theorem hardReset_params (s : State) : s.hardReset.params = s.params := rfl
@[simp] theorem hardReset_cmd (s : State) : s.hardReset.cmd = none := rfl

/-- Issuing on an idle core makes the request the outstanding command (R5). -/
theorem issue_idle {s : State} (h : s.cmd = none) (r : Request) :
    s.issue r = some { s with cmd := some r, resp := none } := by
  simp [State.issue, h]

/-- No command is issued while one is outstanding (R5, D33). -/
theorem issue_busy {s : State} {q : Request} (h : s.cmd = some q) (r : Request) : s.issue r = none := by
  simp [State.issue, h]

@[simp] theorem withFetchWord_cmd (s : State) (nbits w : Nat) :
    (s.withFetchWord nbits w).cmd = some ⟨BitVec.ofNat 32 (w % 2 ^ nbits), s.inp⟩ := rfl
@[simp] theorem withFetchWord_arch (s : State) (nbits w : Nat) : (s.withFetchWord nbits w).arch = s.arch := rfl
@[simp] theorem withFetchWord_inp (s : State) (nbits w : Nat) : (s.withFetchWord nbits w).inp = s.inp := rfl
@[simp] theorem withFetchWord_params (s : State) (nbits w : Nat) : (s.withFetchWord nbits w).params = s.params := rfl

end Sys2Proof.Machine
end

