-- ==== Sys2Proof/Laws/Ops.lean ====
section
/-!
SUPPORT. For each command, everything it can do: it ends with an error that leaves the state, or it succeeds in the one way
the lemma states. Later proofs cite these and do not unfold a meaning again.
-/

namespace Sys2Proof.Machine

/-! ## MAX_XFER (R58) -/

theorem tooLong_iff (s : State) : s.tooLong = true ↔ overMax s := by
  unfold State.tooLong overMax
  cases s.params.maxXfer <;> simp

theorem not_tooLong_iff (s : State) : s.tooLong = false ↔ Fits s := by
  unfold State.tooLong Fits
  cases s.params.maxXfer <;> simp

/-- An empty input is within every bound. -/
theorem not_tooLong_of_empty {s : State} (h : s.inp = []) : s.tooLong = false := by
  rw [not_tooLong_iff, Fits, h]; simp

/-! ## Operand fields -/

theorem orderOf?_eq_none {ord : BitVec 2} : orderOf? ord = none ↔ 1 < ord.toNat := by
  revert ord; decide

theorem orderOf?_eq_some {ord : BitVec 2} {o : Order} :
    orderOf? ord = some o ↔ (ord = 0 ∧ o = .big ∨ ord = 1 ∧ o = .little) := by
  revert ord; cases o <;> decide

theorem modeOf?_eq_none {mode : BitVec 3} : modeOf? mode = none ↔ mode = 0 ∨ mode = 4 ∨ mode = 7 := by
  revert mode; decide

theorem modeOf?_eq_some {mode : BitVec 3} {m : Mode} : modeOf? mode = some m ↔ mode = m.code := by
  revert mode; cases m <;> decide

/-! ## What each command can do -/

theorem execLdkey_cases (s : State) :
    (∃ e, execLdkey s = .next (s.answeredError e)) ∨
    (∃ k : Key, Fits s ∧ s.inp = k.toList ∧
      execLdkey s = .next (s.answered { s.arch with kstg := k, kstgv := true } .ok [])) := by
  unfold execLdkey
  by_cases h : s.tooLong = true
  · rw [if_pos h]; exact .inl ⟨_, rfl⟩
  rw [if_neg h]
  split
  · exact .inl ⟨_, rfl⟩
  · next k hk => exact .inr ⟨k, (not_tooLong_iff s).1 (by simpa using h), ofBytes?_eq_some.1 hk, rfl⟩

theorem execLdiv_cases (s : State) :
    (∃ e, execLdiv s = .next (s.answeredError e)) ∨
    (∃ v : Block, Fits s ∧ s.inp = v.toList ∧
      execLdiv s = .next (s.answered { s.arch with ivstg := v, ivstgv := true } .ok [])) := by
  unfold execLdiv
  by_cases h : s.tooLong = true
  · rw [if_pos h]; exact .inl ⟨_, rfl⟩
  rw [if_neg h]
  split
  · exact .inl ⟨_, rfl⟩
  · next v hv => exact .inr ⟨v, (not_tooLong_iff s).1 (by simpa using h), ofBytes?_eq_some.1 hv, rfl⟩

theorem execInit_cases (mode : BitVec 3) (ord : BitVec 2) (rounds : BitVec 16) (s : State) :
    (∃ e, execInit mode ord rounds s = .next (s.answeredError e)) ∨
    (∃ m o, orderOf? ord = some o ∧ modeOf? mode = some m ∧ (roundsEff rounds).toNat % 2 = 0 ∧ s.inp = [] ∧
      s.arch.kstgv = true ∧ (m.needsIV = true → s.arch.ivstgv = true) ∧ (m = .ctr → s.arch.ctrv = true) ∧
      execInit mode ord rounds s = .next (s.answered (initContext m o (roundsEff rounds) s.arch) .ok [])) := by
  unfold execInit
  split
  · exact .inl ⟨_, rfl⟩
  · next o ho =>
    split
    · exact .inl ⟨_, rfl⟩
    · next m hm =>
      by_cases h1 : (roundsEff rounds).toNat % 2 ≠ 0
      · rw [if_pos h1]; exact .inl ⟨_, rfl⟩
      rw [if_neg h1]
      by_cases h2 : s.tooLong = true
      · rw [if_pos h2]; exact .inl ⟨_, rfl⟩
      rw [if_neg h2]
      by_cases h3 : s.inp.length ≠ 0
      · rw [if_pos h3]; exact .inl ⟨_, rfl⟩
      rw [if_neg h3]
      by_cases h4 : s.arch.kstgv = false
      · rw [if_pos h4]; exact .inl ⟨_, rfl⟩
      rw [if_neg h4]
      by_cases h5 : m.needsIV = true ∧ s.arch.ivstgv = false
      · rw [if_pos h5]; exact .inl ⟨_, rfl⟩
      rw [if_neg h5]
      by_cases h6 : m = .ctr ∧ s.arch.ctrv = false
      · rw [if_pos h6]; exact .inl ⟨_, rfl⟩
      rw [if_neg h6]
      refine .inr ⟨m, o, ho, hm, ?_, ?_, ?_, ?_, ?_, rfl⟩ <;> simp_all

/-- BENC and BDEC over their block function. -/
theorem blockCommand_cases (f : Key → Block → Nat → Order → Block) (ord : BitVec 2) (cycles : BitVec 16) (s : State) :
    (∃ e, blockCommand f ord cycles s = .next (s.answeredError e)) ∨
    (∃ KB BB o, orderOf? ord = some o ∧ Fits s ∧ keyAndBlock? s.inp = some (KB, BB) ∧
      blockCommand f ord cycles s = .next (s.answered s.arch .ok (f KB BB cycles.toNat o).toList)) := by
  unfold blockCommand
  split
  · exact .inl ⟨_, rfl⟩
  · next o ho =>
    by_cases h : s.tooLong = true
    · rw [if_pos h]; exact .inl ⟨_, rfl⟩
    · rw [if_neg h]
      split
      · exact .inl ⟨_, rfl⟩
      · next KB BB hk => exact .inr ⟨KB, BB, o, ho, (not_tooLong_iff s).1 (by simpa using h), hk, rfl⟩

/-- The operands of BENC and BDEC are the two parts of a 24-byte input. -/
theorem keyAndBlock?_append (KB : Key) (BB : Block) : keyAndBlock? (KB.toList ++ BB.toList) = some (KB, BB) := by
  have h : (KB.toList ++ BB.toList).length = 24 := by simp
  unfold keyAndBlock?
  rw [dif_pos h]
  congr 2
  · ext1; simp [sub]
  · ext1; simp [sub, List.take_of_length_le]

theorem keyAndBlock?_eq_none {B : Bytes} : keyAndBlock? B = none ↔ B.length ≠ 24 := by
  unfold keyAndBlock?
  split <;> simp_all

/-- ENC and DEC over their transform: an error, a success, or the stop that R27 rules out. -/
theorem cipherCommand_cases (f : Params → Mode → Arch → Bytes → Bytes × Arch) (s : State) :
    (∃ e, cipherCommand f s = .next (s.answeredError e)) ∨
    (∃ m, Fits s ∧ s.arch.ctx ≠ .none ∧ s.arch.mode = some m ∧ (m.wholeBlocks = true → s.inp.length % 8 = 0) ∧
      cipherCommand f s = .next (s.answered { (f s.params m s.arch s.inp).2 with ctx := .active } .ok
        (f s.params m s.arch s.inp).1)) ∨
    (s.arch.ctx ≠ .none ∧ s.arch.mode = none ∧ cipherCommand f s = .fault .contextWithoutMode) := by
  unfold cipherCommand
  by_cases h1 : s.tooLong = true
  · rw [if_pos h1]; exact .inl ⟨_, rfl⟩
  rw [if_neg h1]
  by_cases h2 : s.arch.ctx = .none
  · rw [if_pos h2]; exact .inl ⟨_, rfl⟩
  rw [if_neg h2]
  cases hm : s.arch.mode with
  | none => exact .inr (.inr ⟨h2, rfl, rfl⟩)
  | some m =>
    by_cases h3 : m.wholeBlocks = true ∧ s.inp.length % 8 ≠ 0
    · simp only [if_pos h3]; exact .inl ⟨_, rfl⟩
    · simp only [if_neg h3]
      exact .inr (.inl ⟨m, (not_tooLong_iff s).1 (by simpa using h1), h2, rfl, fun hw => by simp_all, rfl⟩)

theorem execCtrld_cases (ord : BitVec 2) (s : State) :
    (∃ e, execCtrld ord s = .next (s.answeredError e)) ∨
    (∃ (n : Block) (o : Order), orderOf? ord = some o ∧ Fits s ∧ s.inp = n.toList ∧
      execCtrld ord s = .next (s.answered
        { s.arch with nonce := n, cord := o, cval := nonceValue n o, ctrv := true } .ok [])) := by
  unfold execCtrld
  split
  · exact .inl ⟨_, rfl⟩
  · next o ho =>
    by_cases h : s.tooLong = true
    · rw [if_pos h]; exact .inl ⟨_, rfl⟩
    · rw [if_neg h]
      split
      · exact .inl ⟨_, rfl⟩
      · next n hn => exact .inr ⟨n, o, ho, (not_tooLong_iff s).1 (by simpa using h), ofBytes?_eq_some.1 hn, rfl⟩

theorem execCtrrst_cases (s : State) :
    (∃ e, execCtrrst s = .next (s.answeredError e)) ∨
    (s.inp = [] ∧ s.arch.ctrv = true ∧
      execCtrrst s = .next (s.answered { s.arch with cval := nonceValue s.arch.nonce s.arch.cord } .ok [])) := by
  unfold execCtrrst
  by_cases h1 : s.tooLong = true
  · rw [if_pos h1]; exact .inl ⟨_, rfl⟩
  rw [if_neg h1]
  by_cases h2 : s.inp.length ≠ 0
  · rw [if_pos h2]; exact .inl ⟨_, rfl⟩
  rw [if_neg h2]
  by_cases h3 : s.arch.ctrv = false
  · rw [if_pos h3]; exact .inl ⟨_, rfl⟩
  rw [if_neg h3]
  exact .inr ⟨by simpa using h2, by simpa using h3, rfl⟩

theorem execCtrnxt_cases (s : State) :
    (∃ e, execCtrnxt s = .next (s.answeredError e)) ∨
    (s.inp = [] ∧ s.arch.ctrv = true ∧
      execCtrnxt s = .next (s.answered s.arch.ctrNext .ok s.arch.ctrBlock.toList)) := by
  unfold execCtrnxt
  by_cases h1 : s.tooLong = true
  · rw [if_pos h1]; exact .inl ⟨_, rfl⟩
  rw [if_neg h1]
  by_cases h2 : s.inp.length ≠ 0
  · rw [if_pos h2]; exact .inl ⟨_, rfl⟩
  rw [if_neg h2]
  by_cases h3 : s.arch.ctrv = false
  · rw [if_pos h3]; exact .inl ⟨_, rfl⟩
  rw [if_neg h3]
  exact .inr ⟨by simpa using h2, by simpa using h3, rfl⟩

theorem execCmacsk_cases (s : State) :
    (∃ e, execCmacsk s = .next (s.answeredError e)) ∨
    (∃ KB : Key, Fits s ∧ s.inp = KB.toList ∧
      execCmacsk s = .next (s.answered s.arch .ok
        ((subkeyBytes (subkeys KB).1).toList ++ (subkeyBytes (subkeys KB).2).toList))) := by
  unfold execCmacsk
  by_cases h : s.tooLong = true
  · rw [if_pos h]; exact .inl ⟨_, rfl⟩
  rw [if_neg h]
  split
  · exact .inl ⟨_, rfl⟩
  · next KB hk => exact .inr ⟨KB, (not_tooLong_iff s).1 (by simpa using h), ofBytes?_eq_some.1 hk, rfl⟩

theorem execRdreg_cases (reg : BitVec 4) (s : State) :
    (∃ e, execRdreg reg s = .next (s.answeredError e)) ∨
    (∃ out, readReg? reg s.arch = some out ∧ s.inp = [] ∧ execRdreg reg s = .next (s.answered s.arch .ok out)) := by
  unfold execRdreg
  split
  · exact .inl ⟨_, rfl⟩
  · next out ho =>
    by_cases h1 : s.tooLong = true
    · rw [if_pos h1]; exact .inl ⟨_, rfl⟩
    rw [if_neg h1]
    by_cases h2 : s.inp.length ≠ 0
    · rw [if_pos h2]; exact .inl ⟨_, rfl⟩
    rw [if_neg h2]
    exact .inr ⟨out, ho, by simpa using h2, rfl⟩

theorem execClear_cases (s : State) :
    (∃ e, execClear s = .next (s.answeredError e)) ∨
    (s.inp = [] ∧ execClear s = .next (s.answered .reset .ok [])) := by
  unfold execClear
  by_cases h1 : s.tooLong = true
  · rw [if_pos h1]; exact .inl ⟨_, rfl⟩
  rw [if_neg h1]
  by_cases h2 : s.inp.length ≠ 0
  · rw [if_pos h2]; exact .inl ⟨_, rfl⟩
  rw [if_neg h2]
  exact .inr ⟨by simpa using h2, rfl⟩

/-! ## All commands at once -/

/-- Every command ends with an error that leaves the state, or answers OK, or is ENC or DEC in a state R27 rules out. -/
theorem exec_cases (i : Instr) (s : State) :
    (∃ e, exec i s = .next (s.answeredError e)) ∨ (∃ S out, exec i s = .next (s.answered S .ok out)) ∨
    ((i = .enc ∨ i = .dec) ∧ s.arch.ctx ≠ .none ∧ s.arch.mode = none ∧ exec i s = .fault .contextWithoutMode) := by
  cases i with
  | ldkey => rcases execLdkey_cases s with ⟨e, h⟩ | ⟨_, _, _, h⟩; exacts [.inl ⟨e, h⟩, .inr (.inl ⟨_, _, h⟩)]
  | ldiv => rcases execLdiv_cases s with ⟨e, h⟩ | ⟨_, _, _, h⟩; exacts [.inl ⟨e, h⟩, .inr (.inl ⟨_, _, h⟩)]
  | init m o r =>
    rcases execInit_cases m o r s with ⟨e, h⟩ | ⟨_, _, _, _, _, _, _, _, _, h⟩
    exacts [.inl ⟨e, h⟩, .inr (.inl ⟨_, _, h⟩)]
  | enc =>
    rcases cipherCommand_cases encTransform s with ⟨e, h⟩ | ⟨_, _, _, _, _, h⟩ | ⟨hc, hm, h⟩
    exacts [.inl ⟨e, h⟩, .inr (.inl ⟨_, _, h⟩), .inr (.inr ⟨.inl rfl, hc, hm, h⟩)]
  | dec =>
    rcases cipherCommand_cases decTransform s with ⟨e, h⟩ | ⟨_, _, _, _, _, h⟩ | ⟨hc, hm, h⟩
    exacts [.inl ⟨e, h⟩, .inr (.inl ⟨_, _, h⟩), .inr (.inr ⟨.inr rfl, hc, hm, h⟩)]
  | benc o c =>
    rcases blockCommand_cases eBlk o c s with ⟨e, h⟩ | ⟨_, _, _, _, _, _, h⟩
    exacts [.inl ⟨e, h⟩, .inr (.inl ⟨_, _, h⟩)]
  | bdec o c =>
    rcases blockCommand_cases dBlk o c s with ⟨e, h⟩ | ⟨_, _, _, _, _, _, h⟩
    exacts [.inl ⟨e, h⟩, .inr (.inl ⟨_, _, h⟩)]
  | ctrld o => rcases execCtrld_cases o s with ⟨e, h⟩ | ⟨_, _, _, _, _, h⟩; exacts [.inl ⟨e, h⟩, .inr (.inl ⟨_, _, h⟩)]
  | ctrrst => rcases execCtrrst_cases s with ⟨e, h⟩ | ⟨_, _, h⟩; exacts [.inl ⟨e, h⟩, .inr (.inl ⟨_, _, h⟩)]
  | ctrnxt => rcases execCtrnxt_cases s with ⟨e, h⟩ | ⟨_, _, h⟩; exacts [.inl ⟨e, h⟩, .inr (.inl ⟨_, _, h⟩)]
  | cmacsk => rcases execCmacsk_cases s with ⟨e, h⟩ | ⟨_, _, _, h⟩; exacts [.inl ⟨e, h⟩, .inr (.inl ⟨_, _, h⟩)]
  | rdreg r => rcases execRdreg_cases r s with ⟨e, h⟩ | ⟨_, _, _, h⟩; exacts [.inl ⟨e, h⟩, .inr (.inl ⟨_, _, h⟩)]
  | clear => rcases execClear_cases s with ⟨e, h⟩ | ⟨_, h⟩; exacts [.inl ⟨e, h⟩, .inr (.inl ⟨_, _, h⟩)]

/-! ## Steps and transactions -/

theorem step_idle {s : State} (h : s.cmd = none) : step s = .next s := by simp [step, h]

theorem step_outstanding {s : State} {r : Request} (h : s.cmd = some r) : step s = runWord r.word s := by simp [step, h]

/-- A transaction on an idle core whose word decodes is `exec` on the issued input. -/
theorem transact_decoded {s : State} {r : Request} {i : Instr} (h : s.cmd = none) (hd : decode r.word = .ok i) {S : Arch}
    {st : Status} {out : Bytes}
    (he : exec i { s with cmd := some r, resp := none } = .next (s.answered S st out)) :
    transact s r = some (s.answered S st out, ⟨st, out⟩) := by
  simp [transact, issue_idle h, step, runWord, hd, he]

/-- Everything a transaction can be: the core was idle, one step ran the request, and the response is the one it left. -/
theorem transact_cases {s t : State} {r : Request} {a : Response} (h : transact s r = some (t, a)) :
    s.cmd = none ∧ step { s with cmd := some r, resp := none } = .next t ∧ t.resp = some a := by
  cases hc : s.cmd with
  | some q => simp [transact, issue_busy hc] at h
  | none =>
    simp only [transact, issue_idle hc] at h
    split at h
    · next t' ht =>
      simp only [Option.map_eq_some_iff, Prod.mk.injEq] at h
      obtain ⟨_, hr, rfl, rfl⟩ := h
      exact ⟨rfl, ht, hr⟩
    · cases h
    · cases h

@[simp] theorem session_nil (s : State) : session s [] = some (s, []) := rfl

/-- A session that goes through is its first transaction and then the session of the rest. -/
theorem session_cons {s u : State} {r : Request} {rs : List Request} {as : List Response} :
    session s (r :: rs) = some (u, as) ↔
      ∃ t a bs, transact s r = some (t, a) ∧ session t rs = some (u, bs) ∧ as = a :: bs := by
  simp only [session]
  cases transact s r with
  | none => simp
  | some q =>
    obtain ⟨t, a⟩ := q
    constructor
    · intro h
      simp only [Option.map_eq_some_iff, Prod.mk.injEq] at h
      obtain ⟨⟨_, bs⟩, hs, rfl, rfl⟩ := h
      exact ⟨t, a, bs, rfl, hs, rfl⟩
    · rintro ⟨_, _, bs, ⟨⟩, hs, rfl⟩
      simp [hs]

end Sys2Proof.Machine
end

