-- ==== Sys2Proof/Laws/HostMac.lean ====
section
/-!
SUPPORT. The MAC compositions run on the core: what one BENC of R226 does, and what the chain of them does.
-/

namespace Sys2Proof.Machine

@[simp] theorem macChain_nil (KB : Key) : macChain KB [] = .zero 8 := rfl

theorem cbcMacTakes_iff {M : Bytes} : cbcMacTakes M = true ↔ M.length % 8 = 0 ∧ M ≠ [] := by
  simp [cbcMacTakes]

/-- One BENC of R226 on an idle core that takes 24 bytes: the encrypted block, and no field of R23 changed. -/
theorem transact_benc {s : State} (h : s.cmd = none) (hm : ∀ m, s.params.maxXfer = some m → 24 ≤ m) (KB : Key)
    (B : Block) :
    transact s (bencRequest KB B) =
      some (s.answered s.arch .ok (eBlk KB B 32 .big).toList, ⟨.ok, (eBlk KB B 32 .big).toList⟩) := by
  refine transact_decoded (i := .benc 0 32) h (by decide : decode 0x00200006 = .ok (.benc 0 32)) ?_
  have hf : State.tooLong { s with cmd := some (bencRequest KB B), resp := none } = false := by
    rw [not_tooLong_iff]
    intro m e
    simpa [State.inp, bencRequest] using hm m e
  have hk : keyAndBlock? (State.inp { s with cmd := some (bencRequest KB B), resp := none }) = some (KB, B) :=
    keyAndBlock?_append KB B
  simp only [exec, execBenc, blockCommand, hf, hk]
  rfl

/-- The chain of R226 on such a core: the fold of the block cipher, and no field of R23 changed. -/
theorem chainOnCore_eq (KB : Key) (Ms : List Block) {s : State} (X : Block) (h : s.cmd = none)
    (hm : ∀ m, s.params.maxXfer = some m → 24 ≤ m) :
    ∃ t, chainOnCore KB s X Ms = some (t, Ms.foldl (fun X M => eBlk KB (xor X M) 32 .big) X) ∧
      t.arch = s.arch ∧ t.params = s.params ∧ t.cmd = none := by
  induction Ms generalizing s X with
  | nil => exact ⟨s, rfl, rfl, rfl, h⟩
  | cons M Ms ih =>
    obtain ⟨t, ht, ha, hp, hc⟩ :=
      ih (s := s.answered s.arch .ok (eBlk KB (xor X M) 32 .big).toList) (eBlk KB (xor X M) 32 .big) rfl hm
    refine ⟨t, ?_, ha, hp, hc⟩
    simp only [chainOnCore, transact_benc h hm, ofBytes?_toList, List.foldl_cons]
    exact ht

end Sys2Proof.Machine
end

