-- ==== Sys2Proof/Laws/Modes.lean ====
section
/-!
SUPPORT. The transforms of the mode engine: lengths, what each leaves of the state, and how one byte of keystream is
supplied.
-/

namespace Sys2Proof.Machine

/-! ## The whole-block transforms -/

@[simp] theorem length_cbcEnc (E : Block → Block) : ∀ fb Xs, (cbcEnc E fb Xs).1.length = Xs.length
  | _, [] => rfl
  | fb, X :: Xs => by simp [cbcEnc, length_cbcEnc E _ Xs]

@[simp] theorem length_cbcDec (D : Block → Block) : ∀ fb Xs, (cbcDec D fb Xs).1.length = Xs.length
  | _, [] => rfl
  | fb, X :: Xs => by simp [cbcDec, length_cbcDec D _ Xs]

@[simp] theorem length_cfbEnc (E : Block → Block) : ∀ fb Xs, (cfbEnc E fb Xs).1.length = Xs.length
  | _, [] => rfl
  | fb, X :: Xs => by simp [cfbEnc, length_cfbEnc E _ Xs]

@[simp] theorem length_cfbDec (E : Block → Block) : ∀ fb Xs, (cfbDec E fb Xs).1.length = Xs.length
  | _, [] => rfl
  | fb, X :: Xs => by simp [cfbDec, length_cfbDec E _ Xs]

/-! ## One keystream byte (R179) -/

/-- With carried bytes left, the next one is supplied and nothing else changes but KSREM (R31). -/
theorem nextKsByte_carried {S : Arch} (h : S.ksrem ≠ 0) :
    S.nextKsByte = (byteAt S.ksbuf (8 - S.ksrem.toNat), { S with ksrem := BitVec.ofNat 3 (S.ksrem.toNat - 1) }) := by
  simp only [Arch.nextKsByte, if_neg h]

/-- With none left, a block is made and its first byte supplied. -/
theorem nextKsByte_fresh {S : Arch} (h : S.ksrem = 0) :
    S.nextKsByte = (byteAt S.refill.ksbuf 0, { S.refill with ksrem := 7 }) := by
  simp only [Arch.nextKsByte, if_pos h]
  rfl

theorem refill_ofb {S : Arch} (h : S.mode = some .ofb) :
    S.refill = { S with fb := S.eCtx S.fb, ksbuf := S.eCtx S.fb } := by simp [Arch.refill, h]

theorem refill_ctr {S : Arch} (h : S.mode = some .ctr) :
    S.refill = { S with cval := S.cval + 1, ksbuf := S.eCtx S.ctrBlock } := by simp [Arch.refill, h, Arch.ctrNext]

/-- What one keystream byte leaves alone, in every mode. -/
theorem nextKsByte_keeps (S : Arch) :
    S.nextKsByte.2.kstg = S.kstg ∧ S.nextKsByte.2.kstgv = S.kstgv ∧ S.nextKsByte.2.ivstg = S.ivstg ∧
    S.nextKsByte.2.ivstgv = S.ivstgv ∧ S.nextKsByte.2.ctx = S.ctx ∧ S.nextKsByte.2.key = S.key ∧
    S.nextKsByte.2.mode = S.mode ∧ S.nextKsByte.2.ord = S.ord ∧ S.nextKsByte.2.rounds = S.rounds ∧
    S.nextKsByte.2.nonce = S.nonce ∧ S.nextKsByte.2.cord = S.cord ∧ S.nextKsByte.2.ctrv = S.ctrv := by
  by_cases h : S.ksrem = 0
  · rw [nextKsByte_fresh h]
    unfold Arch.refill
    split <;> simp
  · rw [nextKsByte_carried h]; simp

/-- What a keystream call leaves alone. -/
theorem xorKeystream_keeps : ∀ (In : Bytes) (S : Arch),
    (xorKeystream In S).2.kstg = S.kstg ∧ (xorKeystream In S).2.kstgv = S.kstgv ∧ (xorKeystream In S).2.ivstg = S.ivstg ∧
    (xorKeystream In S).2.ivstgv = S.ivstgv ∧ (xorKeystream In S).2.ctx = S.ctx ∧ (xorKeystream In S).2.key = S.key ∧
    (xorKeystream In S).2.mode = S.mode ∧ (xorKeystream In S).2.ord = S.ord ∧ (xorKeystream In S).2.rounds = S.rounds ∧
    (xorKeystream In S).2.nonce = S.nonce ∧ (xorKeystream In S).2.cord = S.cord ∧ (xorKeystream In S).2.ctrv = S.ctrv
  | [], _ => by simp [xorKeystream]
  | b :: bs, S => by
    have h := xorKeystream_keeps bs S.nextKsByte.2
    have k := nextKsByte_keeps S
    simp only [xorKeystream]
    simp only [k] at h
    exact h

@[simp] theorem length_xorKeystream : ∀ (In : Bytes) (S : Arch), (xorKeystream In S).1.length = In.length
  | [], _ => rfl
  | b :: bs, S => by simp [xorKeystream, length_xorKeystream bs]

/-- The keystream of `A ‖ B` is that of `A` and then, from where it ended, that of `B`. -/
theorem xorKeystream_append (A B : Bytes) (S : Arch) :
    xorKeystream (A ++ B) S =
      ((xorKeystream A S).1 ++ (xorKeystream B (xorKeystream A S).2).1, (xorKeystream B (xorKeystream A S).2).2) := by
  induction A generalizing S with
  | nil => simp [xorKeystream]
  | cons a A ih => simp [xorKeystream, ih]

end Sys2Proof.Machine
end

