-- ==== Sys2Proof/Laws/PerInstr.lean ====
section
/-!
SUPPORT. Statements made instruction by instruction, about the instruction as syntax.
-/

namespace Sys2Proof.Laws.EncodeLayout

/-- The opcode of an instruction (R73). -/
def opcodeOf : Instr → Opcode
  | .ldkey => .ldkey
  | .ldiv => .ldiv
  | .init _ _ _ => .init
  | .enc => .enc
  | .dec => .dec
  | .benc _ _ => .benc
  | .bdec _ _ => .bdec
  | .ctrld _ => .ctrld
  | .ctrrst => .ctrrst
  | .ctrnxt => .ctrnxt
  | .cmacsk => .cmacsk
  | .rdreg _ => .rdreg
  | .clear => .clear

/-- The word of an instruction has its opcode in bits [7:0] and no reserved bit of its format set (R71, R72, R76). -/
def Statement (i : Instr) : Prop :=
  opcField (encode i) = (opcodeOf i).byte.setWidth 8 ∧ encode i &&& reservedMask (opcodeOf i).format = 0

theorem ldkey : Statement .ldkey := by unfold Statement; decide
theorem ldiv : Statement .ldiv := by unfold Statement; decide
theorem enc : Statement .enc := by unfold Statement; decide
theorem dec : Statement .dec := by unfold Statement; decide
theorem ctrrst : Statement .ctrrst := by unfold Statement; decide
theorem ctrnxt : Statement .ctrnxt := by unfold Statement; decide
theorem cmacsk : Statement .cmacsk := by unfold Statement; decide
theorem clear : Statement .clear := by unfold Statement; decide
theorem ctrld : ∀ ord, Statement (.ctrld ord) := by unfold Statement; decide
theorem rdreg : ∀ reg, Statement (.rdreg reg) := by unfold Statement; decide

theorem init (mode : BitVec 3) (ord : BitVec 2) (rounds : BitVec 16) : Statement (.init mode ord rounds) := by
  constructor <;> (apply BitVec.eq_of_getLsbD_eq; intro k hk; interval_cases k) <;>
    simp [encode, opcField, opcodeOf, Opcode.byte, Opcode.format, reservedMask]

theorem benc (ord : BitVec 2) (cycles : BitVec 16) : Statement (.benc ord cycles) := by
  constructor <;> (apply BitVec.eq_of_getLsbD_eq; intro k hk; interval_cases k) <;>
    simp [encode, opcField, opcodeOf, Opcode.byte, Opcode.format, reservedMask]

theorem bdec (ord : BitVec 2) (cycles : BitVec 16) : Statement (.bdec ord cycles) := by
  constructor <;> (apply BitVec.eq_of_getLsbD_eq; intro k hk; interval_cases k) <;>
    simp [encode, opcField, opcodeOf, Opcode.byte, Opcode.format, reservedMask]

end Sys2Proof.Laws.EncodeLayout
end

