-- ==== Sys2Proof/Tests/Slice0.lean ====
section
/-!
SUPPORT. The model's own tests: single steps on small states with the values of spec/95_test_vectors.md, words written
out from the encodings of spec/30_encoding.md, the refusal of an ill-formed instruction, and for every obligation with
hypotheses a concrete case that meets them.
-/

namespace Sys2Proof.Tests

open Sys2Proof.Machine

/-! ## Test data (95_test_vectors.md, Notation) -/

/-- The bytes of a hexadecimal numeral, first byte first. -/
def hex (n L : Nat) : Bytes := (List.range L).map fun i => BitVec.ofNat 8 (n >>> (8 * (L - 1 - i)))

/-- An 8-byte string written as a numeral. -/
def blk (n : Nat) : Block := ⟨hex n 8, by simp [hex]⟩

/-- A 16-byte string written as a numeral. -/
def key (n : Nat) : Key := ⟨hex n 16, by simp [hex]⟩

def K : Key := key 0x000102030405060708090a0b0c0d0e0f
def IV : Block := blk 0x0001020304050607
def P : Bytes := hex 0x414243444546474841424344454647480011223344556677 24
def katKey : Key := key 0x27f917b1c1da899360e2acaaa6eb923d

/-- A context with key K and IV or nonce `IV`, 64 rounds, big-endian, its counter loaded. -/
def context (m : Mode) : Arch :=
  { Arch.reset with
    ctx := .configured, key := K, mode := some m, rounds := 64, fb := if m = .ecb ∨ m = .ctr then .zero 8 else IV
    nonce := IV, cval := 0x0001020304050607, ctrv := true }

/-- A core with state `S` and the decided parameters, and an outstanding ENC word with `In` at its input: `exec` reads `In`
and no word. -/
def running (S : Arch) (In : Bytes) : State := { State.reset with arch := S, cmd := some ⟨0x00000004, In⟩ }

/-- The same core with a bound on its input. -/
def bounded (m : Nat) (S : Arch) (In : Bytes) : State := { running S In with params := ⟨true, some m⟩ }

/-- The same core with a command word outstanding. -/
def issued (w : Word) (S : Arch) (In : Bytes) : State := { running S In with cmd := some ⟨w, In⟩ }

/-- A core with no command outstanding and a bound on its input. -/
def waiting (m : Option Nat) (S : Arch) : State := { State.reset with arch := S, params := ⟨true, m⟩ }

/-- The status code and output of a step. -/
def answer (r : Result) : Option (Nat × Bytes) :=
  match r with
  | .next t => t.resp.map fun a => (a.st.code.toNat, a.out)
  | .fault _ => none
  | .refused _ => none

/-- What a step leaves of the state of R23, read by `f`. -/
def left {α : Type} (f : Arch → α) (r : Result) : Option α :=
  match r with
  | .next t => some (f t.arch)
  | .fault _ => none
  | .refused _ => none

/-! ## WellFormed -/

/-- R81: register 5 does not exist, register 4 does. -/
theorem test_wellFormed_refuses_register_5 :
    (Instr.rdreg 5).wellFormed = false ∧ (Instr.rdreg 15).wellFormed = false ∧ (Instr.rdreg 4).wellFormed = true := by
  decide

/-! ## Decoding: words written out from R71 to R73, bit fields in the order CNT, 00, ORD, 0, MODE or REG, OPC -/

theorem test_decode_format_n :
    decode 0b0000000000000000_00_00_0_000_00000001 = .ok .ldkey ∧
    decode 0b0000000000000000_00_00_0_000_00000010 = .ok .ldiv ∧
    decode 0b0000000000000000_00_00_0_000_00000100 = .ok .enc ∧
    decode 0b0000000000000000_00_00_0_000_00000101 = .ok .dec ∧
    decode 0b0000000000000000_00_00_0_000_00001001 = .ok .ctrrst ∧
    decode 0b0000000000000000_00_00_0_000_00001010 = .ok .ctrnxt ∧
    decode 0b0000000000000000_00_00_0_000_00001011 = .ok .cmacsk ∧
    decode 0b0000000000000000_00_00_0_000_00001101 = .ok .clear := by decide

theorem test_decode_format_i :
    decode 0b0000000000010000_00_01_0_101_00000011 = .ok (.init 5 1 16) ∧
    decode 0b1000000000000001_00_10_0_110_00000011 = .ok (.init 6 2 0x8001) := by decide

theorem test_decode_format_b :
    decode 0b0000000000100000_00_01_0_000_00000110 = .ok (.benc 1 32) ∧
    decode 0b1111111111111110_00_00_0_000_00000111 = .ok (.bdec 0 0xFFFE) := by decide

theorem test_decode_format_c : decode 0b0000000000000000_00_01_0_000_00001000 = .ok (.ctrld 1) := by decide

theorem test_decode_format_r : decode 0b0000000000000000_00_00_0100_00001100 = .ok (.rdreg 4) := by decide

/-- 95_test_vectors.md 3.7: the words that are no command, each for its own reason. -/
theorem test_decode_refusals :
    decode 0x00000000 = .error .unassignedOpcode ∧ decode 0x0000000E = .error .unassignedOpcode ∧
    decode 0x00000104 = .error .reservedBits ∧ decode 0x00200106 = .error .reservedBits ∧
    decode 0x00000D0C = .error .badRegister ∧ decode 0x0000050C = .error .badRegister := by decide

/-- The encoder gives the words of 95_test_vectors.md section 4. -/
theorem test_encode_program_words :
    encode (.init 2 0 0) = 0x00000203 ∧ encode (.init 5 1 16) = 0x00101503 ∧ encode (.init 1 0 63) = 0x003F0103 ∧
    encode (.benc 0 32) = 0x00200006 ∧ encode (.bdec 0 32) = 0x00200007 ∧ encode (.ctrld 1) = 0x00001008 ∧
    encode (.rdreg 3) = 0x0000030C := by decide

/-- The host's two entries: the table's numbering is the command word's, and the next step runs the word. -/
theorem test_table_word :
    decodeTableWord 32 0x00000203 = some (.init 2 0 0) ∧ decodeTableWord 32 0x0000000E = none ∧
    decodeTableWord 40 0x100000001 = none ∧
    answer (step (State.reset.withFetchWord 32 0x0000000C)) = some (0, [0, 0, 0, 0]) := by decide

/-! ## Assembly text (R84, R85), lines of 95_test_vectors.md section 4 -/

theorem test_assemble_init : assemble "INIT OFB, LE, rounds=16" = some ⟨0x00101503, []⟩ := by decide

theorem test_assemble_errors :
    assemble "INIT ECB, #2" = some ⟨0x00002103, []⟩ ∧ assemble ".word 0x00000104" = some ⟨0x00000104, []⟩ ∧
    assemble "RDREG #5" = some ⟨0x0000050C, []⟩ ∧ assemble "NOSUCH" = none := by decide

theorem test_assemble_hex : assemble "CTRLD LE, 0001020304050607" = some ⟨0x00001008, IV.toList⟩ := by decide

/-! ## The codec and the round function (3.1, 3.2) -/

theorem test_codec :
    (toBytes 0x0102030405060708 8 .little).toList = [8, 7, 6, 5, 4, 3, 2, 1] ∧ fromBytes [1, 2] .little = 0x0201 ∧
    keyWords K .big = ⟨0x00010203, 0x04050607, 0x08090A0B, 0x0C0D0E0F⟩ ∧
    keyWords K .little = ⟨0x03020100, 0x07060504, 0x0B0A0908, 0x0F0E0D0C⟩ := by decide

/-- The trace of one cycle in 3.2. -/
theorem test_one_cycle :
    xteaEnc (keyWords K .big) (0x41424344, 0x45464748) 1 = (0xdcd7cf45, 0x477ce5ef) ∧
    xteaDec (keyWords K .big) (0xdcd7cf45, 0x477ce5ef) 1 = (0x41424344, 0x45464748) := by decide

/-! ## LDKEY, LDIV, INIT (1.2, P1, 3.7) -/

theorem test_ldkey :
    left (fun S => (S.kstg, S.kstgv)) (exec .ldkey (running .reset K.toList)) = some (K, true) := by decide

theorem test_ldkey_15_bytes :
    answer (exec .ldkey (running .reset (hex 0x000102030405060708090a0b0c0d0e 15))) = some (1, []) := by decide

theorem test_ldiv : left (fun S => (S.ivstg, S.ivstgv)) (exec .ldiv (running .reset IV.toList)) = some (IV, true) := by decide

theorem test_ldiv_empty : answer (exec .ldiv (running .reset [])) = some (2, []) := by decide

/-- P1 step 3. -/
theorem test_init_cbc :
    left (fun S => (S.key, S.rounds, S.fb, S.kstgv))
      (exec (.init 2 0 0) (running { Arch.reset with kstg := K, kstgv := true, ivstg := IV, ivstgv := true } [])) =
    some (K, 64, IV, false) := by decide

/-- 3.7: ORD is checked before MODE, and OFB needs an IV. -/
theorem test_init_errors :
    answer (exec (.init 4 3 0) (running .reset [])) = some (7, []) ∧
    answer (exec (.init 5 0 0) (running { Arch.reset with kstg := K, kstgv := true } [])) = some (3, []) := by decide

/-! ## ENC and DEC (3.3) -/

theorem test_enc_ecb :
    answer (exec .enc (running (context .ecb) (P.take 8))) = some (0, hex 0x497df3d072612cb5 8) := by decide

theorem test_enc_cbc :
    answer (exec .enc (running (context .cbc) (P.take 16))) = some (0, hex 0xc0b12fdc02abfbf7f00096480da4242f 16) := by decide

theorem test_dec_cbc :
    answer (exec .dec (running (context .cbc) (P.take 16))) = some (0, hex 0x54fe8e21303f10dd15bdcf66717c5192 16) := by decide +kernel

theorem test_dec_cfb :
    answer (exec .dec (running (context .cfb) (P.take 16))) = some (0, hex 0xbe876e54e5564643083fb09437276bfd 16) := by decide

theorem test_ofb_carry :
    left (fun S => (S.fb, S.ksbuf, S.ksrem)) (exec .dec (running (context .ofb) (P.take 11))) =
    some (blk 0xac00b6b2ddc6ced0, blk 0xac00b6b2ddc6ced0, 5) := by decide +kernel

theorem test_ctr_counter :
    left (fun S => (S.cval, S.ksrem)) (exec .enc (running (context .ctr) (P.take 11))) = some (0x0001020304050609, 5) := by
  decide

/-- 3.3: OFB takes no bytes at all; ECB takes no 5 bytes; without a context the state is checked before the length. -/
theorem test_cipher_lengths :
    answer (exec .enc (running (context .ofb) [])) = some (0, []) ∧
    answer (exec .enc (running (context .ecb) (P.take 5))) = some (5, []) ∧
    answer (exec .enc (running .reset (P.take 5))) = some (8, []) := by decide

/-! ## BENC and BDEC (1.1, 3.2) -/

theorem test_benc_kat :
    answer (exec (.benc 0 32) (running .reset (katKey.toList ++ hex 0xaf20a390547571aa 8))) =
    some (0, hex 0xd26428af0a202283 8) := by decide

theorem test_benc_little :
    answer (exec (.benc 1 32) (running .reset (K.toList ++ P.take 8))) = some (0, hex 0xcae7697e006ee921 8) := by decide

theorem test_bdec_kat :
    answer (exec (.bdec 0 32) (running .reset (katKey.toList ++ hex 0xd26428af0a202283 8))) =
    some (0, hex 0xaf20a390547571aa 8) := by decide +kernel

theorem test_bdec_errors :
    answer (exec (.bdec 2 32) (running .reset (K.toList ++ P.take 8))) = some (7, []) ∧
    answer (exec (.bdec 0 32) (running .reset K.toList)) = some (5, []) := by decide

/-! ## CTRLD, CTRRST, CTRNXT (3.4) -/

theorem test_ctrld_little :
    left (fun S => (S.cval, S.ctrv)) (exec (.ctrld 1) (running .reset IV.toList)) = some (0x0706050403020100, true) := by decide

theorem test_ctrld_errors :
    answer (exec (.ctrld 2) (running .reset IV.toList)) = some (7, []) ∧
    answer (exec (.ctrld 0) (running .reset (P.take 7))) = some (5, []) := by decide

/-- A counter at its last value, loaded with two less than 2^64. -/
def lastCounter : Arch := { Arch.reset with nonce := blk 0xfffffffffffffffe, cval := 0xffffffffffffffff, ctrv := true }

theorem test_ctrrst : left Arch.cval (exec .ctrrst (running lastCounter [])) = some 0xfffffffffffffffe := by decide

theorem test_ctrrst_unloaded : answer (exec .ctrrst (running .reset [])) = some (8, []) := by decide

theorem test_ctrnxt_wraps :
    answer (exec .ctrnxt (running lastCounter [])) = some (0, hex 0xffffffffffffffff 8) ∧
    left Arch.cval (exec .ctrnxt (running lastCounter [])) = some 0 := by decide

theorem test_ctrnxt_unloaded : answer (exec .ctrnxt (running .reset [])) = some (8, []) := by decide

/-! ## CMACSK and the MAC compositions (3.5, 3.6) -/

theorem test_cmacsk :
    answer (exec .cmacsk (running .reset K.toList)) = some (0, hex 0xc99e43f155c27ed3933c87e2ab84fdbd 16) := by decide

theorem test_dbl :
    dbl 0x7fffffffffffffff = 0xfffffffffffffffe ∧ dbl 0x8000000000000000 = 0x000000000000001b ∧
    dbl 0xffffffffffffffff = 0xffffffffffffffe5 := by decide

theorem test_cmac_empty :
    macChain K (cmacBlocks 0xc99e43f155c27ed3 0x933c87e2ab84fdbd []) = blk 0xa821403929958a1a := by decide

theorem test_cmac_9_bytes :
    macChain K (cmacBlocks 0xc99e43f155c27ed3 0x933c87e2ab84fdbd [0, 1, 2, 3, 4, 5, 6, 7, 8]) =
    blk 0xc50d550e6ae6a1cb := by decide +kernel

theorem test_cbcMac :
    cbcMac K IV.toList = .ok (blk 0xffc52d10a010010b) ∧ cbcMac K [] = .error .invalidLength := by decide

/-- R227: lowercase digits, first byte first. -/
theorem test_hex_digits : hexOf (hex 0x0a9fb0 3) = ['0', 'a', '9', 'f', 'b', '0'] := by decide

/-! ## RDREG and CLEAR (P1, P2, 3.4) -/

/-- P1 step 7 and P2 step 9. -/
theorem test_rdreg_words :
    answer (exec (.rdreg 1) (running { context .cbc with ctx := .active } [])) = some (0, hex 0x00400200 4) ∧
    answer (exec (.rdreg 0) (running { context .ctr with ctx := .active, ksrem := 7 } [])) = some (0, hex 0x00000712 4) := by
  decide

theorem test_rdreg_ctrcfg :
    answer (exec (.rdreg 2) (running { Arch.reset with cord := .little } [])) = some (0, hex 0x00001000 4) := by decide

theorem test_clear : left id (exec .clear (running (context .ofb) [])) = some Arch.reset := by decide

theorem test_clear_input : answer (exec .clear (running (context .ofb) [0])) = some (5, []) := by decide

/-! ## Steps -/

/-- 3.7: an unassigned word is answered and changes nothing. -/
theorem test_step_invalid_word :
    answer (step (issued 0x0000000E (context .ofb) [])) = some (10, []) ∧
    left id (step (issued 0x0000000E (context .ofb) [])) = some (context .ofb) := by decide

/-- R265: no second command while one is outstanding. -/
theorem test_issue_busy : (issued 0x0000000D .reset []).issue ⟨0x0000000D, []⟩ = none := by decide

/-- R58: the MAX_XFER check comes before the fixed length. -/
theorem test_max_xfer : answer (exec .ldkey (bounded 8 .reset (hex 0 9))) = some (5, []) := by decide

/-- Log 5: the only stop of the model, in a state no run reaches. -/
theorem test_context_without_mode :
    exec .enc (running { Arch.reset with ctx := .active } []) = .fault .contextWithoutMode := rfl

/-! ## Reset (R280, R281) -/

theorem test_reset : State.reset.cmd = none ∧ step State.reset = .next State.reset ∧
    (running (context .ctr) []).hardReset = State.reset := ⟨rfl, rfl, rfl⟩

/-! ## Witnesses: for each obligation with hypotheses, a case that meets them, at the edges of each clause -/

theorem fits_unbounded (S : Arch) (In : Bytes) : Fits (running S In) := nofun

theorem fits_bounded {m : Nat} {S : Arch} {In : Bytes} (h : In.length ≤ m) : Fits (bounded m S In) := by
  intro _ e; cases e; exact h

theorem overMax_bounded {m : Nat} {S : Arch} {In : Bytes} (h : m < In.length) : overMax (bounded m S In) := ⟨m, rfl, h⟩

/-- An active CTR context with 7 carried bytes and the largest round count. -/
def carrying : Arch := { context .ctr with ctx := .active, rounds := 65534, ksrem := 7 }

theorem carrying_inv : carrying.Inv where
  noContext := by decide
  context := by decide
  ctrHasCounter := by decide
  wholeBlocksNoCarry := by decide
  noCounter := by decide
  carryBelowBlock := by decide

/-! ### Encoding -/

theorem witness_DecodeOfEncodeGivesInstruction :
    (Instr.rdreg 4).wellFormed = true ∧ (Instr.init 7 3 0xFFFF).wellFormed = true := by decide

theorem witness_EncodeOfDecodeGivesWord :
    decode 0x0000040C = .ok (.rdreg 4) ∧ decode 0xFFFF3703 = .ok (.init 7 3 0xFFFF) := by decide

theorem witness_DecodesExactlyTheTableWords :
    (0x0000040C : Word) &&& 0xFF = 0x0C ∧ ((0x0000040C : Word) >>> 8).toNat % 16 = 4 ∧
    (0x0000040C : Word) &&& 0xFFFFF0FF = 0x0000000C := by decide

theorem witness_UnassignedOpcodeFails :
    (issued 0x00000000 .reset []).cmd = some ⟨0x00000000, []⟩ ∧ (0x00000000 : Word).toNat % 256 = 0 ∧
    0x0E ≤ (0x0000000E : Word).toNat % 256 ∧ 0x0E ≤ (0xFFFFFFFF : Word).toNat % 256 := by decide

/-- The lowest reserved bit of each format. -/
theorem witness_ReservedBitsFail :
    (issued 0x00000104 .reset []).cmd = some ⟨0x00000104, []⟩ ∧
    (0x00000104 : Word).toNat % 256 = 0x04 ∧ (0x00000104 : Word) &&& 0xFFFFFF00 ≠ 0 ∧
    (0x00000803 : Word).toNat % 256 = 0x03 ∧ (0x00000803 : Word) &&& 0x0000C800 ≠ 0 ∧
    (0x00000106 : Word).toNat % 256 = 0x06 ∧ (0x00000106 : Word) &&& 0x0000CF00 ≠ 0 ∧
    (0x80000008 : Word).toNat % 256 = 0x08 ∧ (0x80000008 : Word) &&& 0xFFFFCF00 ≠ 0 ∧
    (0x0000100C : Word).toNat % 256 = 0x0C ∧ (0x0000100C : Word) &&& 0xFFFFF000 ≠ 0 := by decide

/-! ### The step -/

theorem witness_StepRunsDecodedCommand :
    (issued 0x0000000D .reset []).cmd = some ⟨0x0000000D, []⟩ ∧ decode 0x0000000D = .ok .clear := by decide

theorem witness_IdlingChangesNothing : (waiting none (context .cbc)).cmd = none := by decide

theorem witness_FailedCommandChangesNoState :
    ∃ t a, (issued 0x00000104 carrying []).cmd = some ⟨0x00000104, []⟩ ∧ step (issued 0x00000104 carrying []) = .next t ∧
      t.resp = some a ∧ a.st.code ≠ 0 := ⟨_, _, rfl, rfl, rfl, by decide⟩

theorem witness_EveryCommandIsAnswered :
    (issued 0x00000004 carrying [1]).arch.Inv ∧ (issued 0x00000004 carrying [1]).cmd = some ⟨0x00000004, [1]⟩ :=
  ⟨carrying_inv, rfl⟩

theorem witness_StepKeepsInvariants :
    ∃ t, (issued 0x0000000D carrying []).arch.Inv ∧ step (issued 0x0000000D carrying []) = .next t :=
  ⟨_, carrying_inv, rfl⟩

theorem witness_ResetValues : (2 : BitVec 4) = 2 ∧ (4 : BitVec 4) = 4 ∧ (2 : BitVec 4) ≠ 3 ∧ (2 : BitVec 4) ≠ 4 := by decide

/-! ### Errors -/

theorem witness_FirstErrorIsReported :
    ((running carrying []).arch.ctx ≠ .none → (running carrying []).arch.mode ≠ none) ∧
    (issued 0x0000050C carrying [0]).cmd = some ⟨0x0000050C, [0]⟩ ∧ decode 0x0000050C = .error .badRegister ∧
    FirstError .invalidByteOrder (errorChecks (.init 4 3 0) (running carrying [])) ∧
    NoError (errorChecks .clear (running carrying [])) := by
  refine ⟨by decide, rfl, by decide, ?_, ?_⟩
  · exact .inr ⟨nofun, .inl ⟨⟨3, rfl, .inr rfl⟩, rfl⟩⟩
  · exact ⟨nofun, nofun, nofun, nofun, nofun, by decide, trivial⟩

theorem witness_ErrorHasItsCause :
    (∃ t, exec .ldkey (running .reset []) = .next t ∧ t.resp = some ⟨.failed .invalidKeyLength, []⟩) ∧
    (∃ t, (issued 0x0000000E .reset []).cmd = some ⟨0x0000000E, []⟩ ∧ step (issued 0x0000000E .reset []) = .next t ∧
      t.resp = some ⟨.failed .invalidCommand, []⟩) := ⟨⟨_, rfl, rfl⟩, ⟨_, rfl, rfl, rfl⟩⟩

theorem witness_OverMaxXferFails :
    (bounded 7 .reset IV.toList).params.maxXfer = some 7 ∧ 7 < (bounded 7 .reset IV.toList).inp.length := by decide

/-! ### Codec and blocks -/

theorem witness_ToBytesGivesDigits : 0 < 1 ∧ 7 < 8 := by decide

theorem witness_CodecRoundTrips : 0 < 2 ^ (8 * 0) ∧ 2 ^ 64 - 1 < 2 ^ (8 * 8) := by decide

theorem witness_BlocksAreTheInput :
    (blocks P)[2]? = some (blk 0x0011223344556677) ∧ P.length % 8 = 0 ∧ (blocks (P.take 23))[2]? = none := by decide

/-! ### BENC and BDEC -/

theorem witness_BencAnswers :
    1 < (2 : BitVec 2).toNat ∧ (1 : BitVec 2).toNat ≤ 1 ∧ overMax (bounded 23 .reset (K.toList ++ IV.toList)) ∧
    (running .reset (hex 0 23)).inp.length ≠ 24 ∧ (running .reset (hex 0 25)).inp.length ≠ 24 ∧
    Fits (bounded 24 .reset (K.toList ++ IV.toList)) ∧
    (bounded 24 .reset (K.toList ++ IV.toList)).inp = K.toList ++ IV.toList :=
  ⟨by decide, by decide, overMax_bounded (by decide), by decide, by decide, fits_bounded (by decide), rfl⟩

theorem witness_BdecAnswers :
    1 < (3 : BitVec 2).toNat ∧ (0 : BitVec 2).toNat ≤ 1 ∧ overMax (bounded 23 .reset (K.toList ++ IV.toList)) ∧
    (running .reset (hex 0 23)).inp.length ≠ 24 ∧ (running .reset (hex 0 25)).inp.length ≠ 24 ∧
    Fits (bounded 24 .reset (K.toList ++ IV.toList)) ∧
    (bounded 24 .reset (K.toList ++ IV.toList)).inp = K.toList ++ IV.toList :=
  ⟨by decide, by decide, overMax_bounded (by decide), by decide, by decide, fits_bounded (by decide), rfl⟩

theorem witness_BencAndBdecUndoEachOther :
    (waiting (some 24) carrying).cmd = none ∧ (∀ m, (waiting (some 24) carrying).params.maxXfer = some m → 24 ≤ m) ∧
    (1 : BitVec 2).toNat ≤ 1 := ⟨rfl, by intro _ h; cases h; decide, by decide⟩

/-! ### Context -/

theorem witness_LdkeyStagesKey :
    overMax (bounded 15 .reset K.toList) ∧ Fits (bounded 16 .reset (hex 0 15)) ∧ (hex 0 15).length ≠ 16 ∧
    Fits (running .reset (hex 0 17)) ∧ (hex 0 17).length ≠ 16 ∧ Fits (bounded 16 .reset K.toList) ∧
    (bounded 16 .reset K.toList).inp = K.toList :=
  ⟨overMax_bounded (by decide), fits_bounded (by decide), by decide, fits_unbounded _ _, by decide,
    fits_bounded (by decide), rfl⟩

theorem witness_LdivStagesIV :
    overMax (bounded 7 .reset IV.toList) ∧ Fits (bounded 8 .reset []) ∧ ([] : Bytes).length ≠ 8 ∧
    Fits (running .reset (hex 0 9)) ∧ (hex 0 9).length ≠ 8 ∧ Fits (bounded 8 .reset IV.toList) ∧
    (bounded 8 .reset IV.toList).inp = IV.toList :=
  ⟨overMax_bounded (by decide), fits_bounded (by decide), by decide, fits_unbounded _ _, by decide,
    fits_bounded (by decide), rfl⟩

/-- Everything staged, the counter loaded: INIT succeeds in every mode. -/
def staged : Arch := { Arch.reset with kstg := K, kstgv := true, ivstg := IV, ivstgv := true, ctrv := true }

theorem witness_InitCreatesContext :
    (5 : BitVec 3) = 5 ∧ (0 : BitVec 16).toNat % 2 = 0 ∧ (65534 : BitVec 16).toNat % 2 = 0 ∧
    (running staged []).inp = [] ∧ (running staged []).arch.kstgv = true ∧ (running staged []).arch.ivstgv = true ∧
    (running staged []).arch.ctrv = true := by decide

/-- One case per error, each with the checks before it passed. -/
theorem witness_InitErrorsInOrder :
    1 < (2 : BitVec 2).toNat ∧ (1 : BitVec 2).toNat ≤ 1 ∧ (4 : BitVec 3).toNat ∈ [0, 4, 7] ∧
    (6 : BitVec 3).toNat ∈ [1, 2, 3, 5, 6] ∧ (1 : BitVec 16).toNat % 2 = 1 ∧ (65534 : BitVec 16).toNat % 2 = 0 ∧
    (running staged [0]).inp ≠ [] ∧ (running .reset []).inp = [] ∧ (running .reset []).arch.kstgv = false ∧
    (running { staged with ivstgv := false, ctrv := false } []).arch.kstgv = true ∧
    (running { staged with ivstgv := false, ctrv := false } []).arch.ivstgv = false ∧
    (running { staged with ivstgv := false, ctrv := false } []).arch.ctrv = false ∧ (5 : BitVec 3).toNat ∈ [2, 3, 5] ∧
    (6 : BitVec 3).toNat = 6 := by decide

theorem witness_RdregReadsRegisters :
    (running carrying []).inp = [] ∧ (issued 0x0000050C carrying []).cmd = some ⟨0x0000050C, []⟩ ∧
    (0x0000050C : Word).toNat % 256 = 0x0C ∧ 4 < (0x0000050C : Word).toNat / 256 % 16 ∧ 4 < (5 : BitVec 4).toNat ∧
    (4 : BitVec 4).toNat ≤ 4 ∧ (running carrying [0]).inp ≠ [] := by decide

/-- `carrying` with every secret field another. -/
def otherSecrets : Arch := { carrying with key := katKey, kstg := katKey, ivstg := IV, fb := IV, ksbuf := IV }

/-- A command that is no cipher, an ENC inside the carried bytes, and a session of both. -/
theorem witness_SecretsAreNotReadable :
    SameReadable carrying otherSecrets ∧ carrying ≠ otherSecrets ∧
    (∃ t t', exec .ctrnxt (running carrying []) = .next t ∧ exec .ctrnxt (running otherSecrets []) = .next t') ∧
    (∃ t t', exec .enc (running carrying [1]) = .next t ∧ exec .enc (running otherSecrets [1]) = .next t') ∧
    (∃ t t' as as', (waiting none carrying).cmd = none ∧
      session (waiting none carrying) [⟨0x0000000A, []⟩, ⟨0x00000004, [1]⟩] = some (t, as) ∧
      session (waiting none otherSecrets) [⟨0x0000000A, []⟩, ⟨0x00000004, [1]⟩] = some (t', as')) :=
  ⟨by unfold SameReadable; decide, by decide, ⟨_, _, rfl, rfl⟩, ⟨_, _, rfl, rfl⟩, _, _, _, _, rfl, rfl, rfl⟩

theorem witness_ClearResetsState : (running carrying []).inp = [] ∧ (running carrying [0]).inp ≠ [] := by decide

theorem witness_BootSequenceGivesContext :
    (waiting none carrying).cmd = none ∧ (waiting none carrying).params.maxXfer = none ∧ (65534 : BitVec 16).toNat % 2 = 0 ∧
    List.Perm [⟨encode (.ctrld 1), IV.toList⟩, ⟨encode .ldkey, K.toList⟩, ⟨encode .ldiv, IV.toList⟩]
      [(⟨encode .ldkey, K.toList⟩ : Request), ⟨encode .ldiv, IV.toList⟩, ⟨encode (.ctrld 1), IV.toList⟩] :=
  ⟨rfl, rfl, by decide, by decide⟩

theorem witness_FieldsChangeOnlyByTheirCommands : ∃ t, exec .ctrnxt (running carrying []) = .next t := ⟨_, rfl⟩

theorem witness_ContextStateMoves :
    (∃ t a, exec .clear (running carrying []) = .next t ∧ t.resp = some a ∧ a.st = .ok) ∧
    (∃ t a, exec .clear (running carrying [0]) = .next t ∧ t.resp = some a ∧ a.st ≠ .ok) ∧
    (∃ t a, exec (.init 5 1 0) (running staged []) = .next t ∧ t.resp = some a ∧ a.st = .ok) ∧
    (∃ t a, exec .enc (running (context .ofb) []) = .next t ∧ t.resp = some a ∧ a.st = .ok) ∧
    (∃ t a, exec .ctrrst (running carrying []) = .next t ∧ t.resp = some a ∧ a.st = .ok) :=
  ⟨⟨_, _, rfl, rfl, rfl⟩, ⟨_, _, rfl, rfl, nofun⟩, ⟨_, _, rfl, rfl, rfl⟩, ⟨_, _, rfl, rfl, rfl⟩, ⟨_, _, rfl, rfl, rfl⟩⟩

/-! ### Modes -/

theorem witness_CipherErrors :
    overMax (bounded 7 (context .ofb) IV.toList) ∧ Fits (running .reset []) ∧ (running .reset []).arch.ctx = .none ∧
    Fits (bounded 9 (context .cfb) (hex 0 9)) ∧ (context .cfb).ctx ≠ .none ∧ WholeBlocks (context .cfb) ∧
    (bounded 9 (context .cfb) (hex 0 9)).inp.length % 8 ≠ 0 :=
  ⟨overMax_bounded (by decide), fits_unbounded _ _, rfl, fits_bounded (by decide), by decide, .inr (.inr rfl), by decide⟩

/-- A whole-block context, an input of three blocks at the bound, and its last block. -/
theorem witness_whole_blocks (m : Mode) :
    Fits (bounded 24 (context m) P) ∧ (context m).ctx ≠ .none ∧ (context m).mode = some m ∧
    (bounded 24 (context m) P).inp.length % 8 = 0 ∧
    (blk 0x0011223344556677).toList = sub (bounded 24 (context m) P).inp (8 * 2) (8 * 2 + 8) := by
  exact ⟨fits_bounded (by decide), by cases m <;> decide, rfl, (by decide : P.length % 8 = 0),
    (by decide : (blk 0x0011223344556677).toList = sub P (8 * 2) (8 * 2 + 8))⟩

theorem witness_EcbWorksBlockByBlock :
    Fits (bounded 24 (context .ecb) P) ∧ (context .ecb).ctx ≠ .none ∧ (context .ecb).mode = some .ecb ∧
    (bounded 24 (context .ecb) P).inp.length % 8 = 0 ∧
    (blk 0x0011223344556677).toList = sub (bounded 24 (context .ecb) P).inp (8 * 2) (8 * 2 + 8) := witness_whole_blocks .ecb

theorem witness_CbcChainsBlocks :
    Fits (bounded 24 (context .cbc) P) ∧ (context .cbc).ctx ≠ .none ∧ (context .cbc).mode = some .cbc ∧
    (bounded 24 (context .cbc) P).inp.length % 8 = 0 ∧
    (blk 0x0011223344556677).toList = sub (bounded 24 (context .cbc) P).inp (8 * 2) (8 * 2 + 8) := witness_whole_blocks .cbc

theorem witness_CfbChainsBlocks :
    Fits (bounded 24 (context .cfb) P) ∧ (context .cfb).ctx ≠ .none ∧ (context .cfb).mode = some .cfb ∧
    (bounded 24 (context .cfb) P).inp.length % 8 = 0 ∧
    (blk 0x0011223344556677).toList = sub (bounded 24 (context .cfb) P).inp (8 * 2) (8 * 2 + 8) := witness_whole_blocks .cfb

/-- With carried bytes left over, and an input that ends inside a block. -/
theorem witness_OfbXorsKeystream :
    Fits (bounded 9 { context .ofb with ksrem := 7 } (hex 0 9)) ∧ (context .ofb).ctx ≠ .none ∧
    { context .ofb with ksrem := 7 }.mode = some .ofb ∧ 8 < (hex 0 9).length :=
  ⟨fits_bounded (by decide), by decide, rfl, by decide⟩

theorem witness_CtrXorsKeystream :
    Fits (bounded 9 carrying (hex 0 9)) ∧ carrying.ctx ≠ .none ∧ carrying.mode = some .ctr ∧ 8 < (hex 0 9).length :=
  ⟨fits_bounded (by decide), by decide, rfl, by decide⟩

theorem witness_KeystreamModesAreDirectionBlind : KeystreamMode (running carrying [1]).arch := .inr rfl

theorem witness_OneCallEqualsTwoCalls :
    (waiting (some 16) carrying).cmd = none ∧
    (∀ m, (waiting (some 16) carrying).params.maxXfer = some m → (P.take 5 ++ hex 0 11).length ≤ m) ∧
    carrying.ctx ≠ .none ∧ KeystreamMode carrying ∧ (waiting (some 16) carrying).params.ksCarry = true ∧
    (context .cbc).ctx ≠ .none ∧ WholeBlocks (context .cbc) ∧ (P.take 8).length % 8 = 0 ∧ ([] : Bytes).length % 8 = 0 :=
  ⟨rfl, by intro _ h; cases h; decide, by decide, .inr rfl, rfl, by decide, .inr (.inl rfl), by decide, by decide⟩

/-- Two cores whose contexts agree and whose staging registers do not. -/
theorem witness_DecryptGivesPlaintextBack :
    (waiting (some 24) (context .cbc)).cmd = none ∧
    SameContext (context .cbc) { context .cbc with kstg := K, kstgv := true, nonce := .zero 8 } ∧
    (∀ m, (waiting (some 24) (context .cbc)).params.maxXfer = some m → P.length ≤ m) ∧ (context .cbc).ctx ≠ .none ∧
    WholeBlocks (context .cbc) ∧ P.length % 8 = 0 ∧ SameContext carrying carrying ∧ carrying.ctx ≠ .none ∧
    KeystreamMode carrying :=
  ⟨rfl, by unfold SameContext; decide, by intro _ h; cases h; decide, by decide, .inr (.inl rfl), by decide,
    by unfold SameContext; decide, by decide, .inr rfl⟩

/-- The changed block is the first of two, so it has a block after it. -/
theorem witness_DecryptErrorsStayLocal :
    (waiting (some 16) (context .cbc)).cmd = none ∧ (context .cbc).ctx ≠ .none ∧ (context .cbc).mode = some .cbc ∧ (context .cfb).ctx ≠ .none ∧
    (context .cfb).mode = some .cfb ∧
    (∀ m, (waiting (some 16) (context .cbc)).params.maxXfer = some m →
      (unblocks ([] ++ IV :: [blk 0x0011223344556677])).length ≤ m) ∧
    (∃ D, ([IV, blk 0x0011223344556677] : List Block)[([] : List Block).length + 1]? = some D) :=
  ⟨rfl, by decide, rfl, by decide, rfl, by intro _ h; cases h; decide, _, rfl⟩

theorem witness_KeystreamErrorsStayInTheirByte :
    (waiting (some 9) carrying).cmd = none ∧ carrying.ctx ≠ .none ∧ KeystreamMode carrying ∧ (hex 0 9).length = (hex 0xFF 9).length ∧
    (∀ m, (waiting (some 9) carrying).params.maxXfer = some m → (hex 0 9).length ≤ m) :=
  ⟨rfl, by decide, .inr rfl, by decide, by intro _ h; cases h; decide⟩

/-! ### Counter -/

theorem witness_CtrldLoadsCounter :
    1 < (2 : BitVec 2).toNat ∧ (1 : BitVec 2).toNat ≤ 1 ∧ overMax (bounded 7 carrying IV.toList) ∧
    (running carrying (hex 0 7)).inp.length ≠ 8 ∧ Fits (bounded 8 carrying IV.toList) ∧
    (bounded 8 carrying IV.toList).inp = IV.toList :=
  ⟨by decide, by decide, overMax_bounded (by decide), by decide, fits_bounded (by decide), rfl⟩

theorem witness_CtrrstRewindsCounter :
    (running carrying [0]).inp ≠ [] ∧ (running .reset []).inp = [] ∧ (running .reset []).arch.ctrv = false ∧
    (running lastCounter []).inp = [] ∧ (running lastCounter []).arch.ctrv = true := by decide

theorem witness_CtrnxtGivesCounterBlock :
    (running carrying [0]).inp ≠ [] ∧ (running .reset []).inp = [] ∧ (running .reset []).arch.ctrv = false ∧
    (running lastCounter []).inp = [] ∧ (running lastCounter []).arch.ctrv = true := by decide

/-- The bound is the nonce's own length. -/
theorem witness_CounterBlocksCountFromNonce :
    (waiting (some 8) carrying).cmd = none ∧ (∀ m, (waiting (some 8) carrying).params.maxXfer = some m → 8 ≤ m) ∧
    (0 < 1 ∧ 0 < 2) := ⟨rfl, by intro _ h; cases h; decide, by decide⟩

/-! ### MAC -/

/-- `L` for the zero key is `dee9d4d8f7131ed9` (3.5). -/
theorem witness_CmacskGivesSubkeys :
    overMax (bounded 15 .reset K.toList) ∧ Fits (running .reset (hex 0 15)) ∧ (hex 0 15).length ≠ 16 ∧
    Fits (bounded 16 .reset (hex 0 16)) ∧ (bounded 16 .reset (hex 0 16)).inp = (key 0).toList ∧
    (0xdee9d4d8f7131ed9 : DWord).toNat = fromBytes (eBlk (key 0) (.zero 8) 32 .big).toList .big :=
  ⟨overMax_bounded (by decide), fits_unbounded _ _, by decide, fits_bounded (by decide), rfl, by decide +kernel⟩

theorem witness_DoublingIsBijective : cmacL (key 0) ≠ cmacL K := by decide +kernel

theorem witness_CmacOnCoreGivesTag :
    (waiting (some 24) carrying).cmd = none ∧ (∀ m, (waiting (some 24) carrying).params.maxXfer = some m → 24 ≤ m) ∧
    (hex 0 7).length % 8 ≠ 0 ∧ ([] : Bytes) = [] ∧ IV.toList.length % 8 = 0 ∧ IV.toList ≠ [] :=
  ⟨rfl, by intro _ h; cases h; decide, by decide, by decide, by decide, by decide⟩

theorem witness_CbcContextGivesSameTag : (waiting none carrying).cmd = none ∧ (waiting none carrying).params.maxXfer = none :=
  ⟨rfl, rfl⟩

theorem witness_CmacObjectLife :
    (hex 0 15).length ≠ 16 ∧ (⟨K, 0, 0, [], false⟩ : CmacObject).fin = false ∧
    (⟨K, 0, 0, [], true⟩ : CmacObject).fin = true := by decide

/-- The empty message, and a tail of 1 and of 7 bytes after a whole block. -/
theorem witness_CmacPadsLastBlock :
    ([] : Bytes).length < 8 ∧ (([] : Bytes) ≠ [] ∨ ([] : List Block) = []) ∧
    (blk 0x8000000000000000).toList = [] ++ [0x80] ++ List.replicate (7 - 0) 0 ∧
    (hex 0 1).length < 8 ∧ (hex 0 1 ≠ [] ∨ [IV] = []) ∧
    (blk 0x0080000000000000).toList = hex 0 1 ++ [0x80] ++ List.replicate (7 - 1) 0 ∧
    (hex 0 7).length < 8 ∧ (hex 0 7 ≠ [] ∨ [IV] = []) ∧
    (blk 0x0000000000000080).toList = hex 0 7 ++ [0x80] ++ List.replicate (7 - 7) 0 := by decide

/-- R225 at the edge between its two branches (3.6): no message, one whole block, one byte more. -/
theorem test_cmac_last_block :
    cmacBlocks 0 0xFF00000000000000 [] = [blk 0x7F00000000000000] ∧
    cmacBlocks 0xFF00000000000000 0 IV.toList = [blk 0xFF01020304050607] ∧
    cmacBlocks 0 0 (IV.toList ++ [8]) = [IV, blk 0x0880000000000000] := by decide

theorem witness_CbcMacForgery :
    (hex 0 7).length % 8 ≠ 0 ∧ ([] : Bytes) = [] ∧ IV.toList.length % 8 = 0 ∧ IV.toList ≠ [] := by decide

/-- 3.6: CBC-MAC by BENC on a core in a CTR context, and its length check. -/
theorem test_cbcMacOnCore :
    ((cbcMacOnCore (waiting none carrying) K IV.toList).toOption.bind id).map (fun q => (q.1.arch, q.2)) =
      some (carrying, blk 0xffc52d10a010010b) ∧
    (cbcMacOnCore (waiting none carrying) K (P.take 12)).toOption = none := by decide +kernel

/-- Log 14: no tag when one of the commands fails. -/
theorem test_no_tag_when_a_command_fails :
    cmacOnCore (waiting (some 15) .reset) K [] = none ∧
    tagByCbcContext (waiting (some 7) .reset) K [IV] = none ∧
    (cbcMacOnCore (waiting (some 23) .reset) K IV.toList).toOption = some none := by decide

end Sys2Proof.Tests
end

section
/-!
SUPPORT. What a step with an outstanding command does, by the decoder's verdict on its word; and that from a state keeping
R37 it always answers (spec/00_scope.md R5, spec/60_exceptions.md R250).
-/

namespace Sys2Proof.Machine

/-! ## The step of an outstanding word (R5, R74) -/

theorem step_decoded {s : State} {r : Request} {i : Instr} (hc : s.cmd = some r) (hd : decode r.word = .ok i) :
    step s = exec i s := by
  rw [step_outstanding hc, runWord, hd]

theorem step_undecoded {s : State} {r : Request} {e : DecodeError} (hc : s.cmd = some r) (hd : decode r.word = .error e) :
    step s = .next (s.answeredError .invalidCommand) := by
  rw [step_outstanding hc, runWord, hd, fail_eq]

/-! ## Every command answers (R250) -/

/-- A mode in every context (R27) is all of R37 that answering takes: it shuts out the model's one fault. -/
theorem exec_answers {s : State} (hmode : s.arch.ctx ≠ .none → s.arch.mode ≠ none) (i : Instr) :
    ∃ S st out, exec i s = .next (s.answered S st out) := by
  rcases exec_cases i s with ⟨e, h⟩ | ⟨S, out, h⟩ | ⟨_, hctx, hnone, _⟩
  · exact ⟨s.arch, .failed e, [], h⟩
  · exact ⟨S, .ok, out, h⟩
  · exact absurd hnone (hmode hctx)

theorem step_answers {s : State} {r : Request} (hmode : s.arch.ctx ≠ .none → s.arch.mode ≠ none) (hc : s.cmd = some r) :
    ∃ S st out, step s = .next (s.answered S st out) := by
  cases hd : decode r.word with
  | error e => exact ⟨s.arch, .failed .invalidCommand, [], step_undecoded hc hd⟩
  | ok i => rw [step_decoded hc hd]; exact exec_answers hmode i

/-! ## The statements -/

/-- Settles O8: the outstanding word is run, and a word that decodes is run as its command. -/
theorem stepRunsDecodedCommand : Obligations.StepRunsDecodedCommand :=
  fun _ _ _ => step_decoded

/-- Settles O11: R37 (b) gives every context a mode, so the step answers; an answered core is as R5 says. -/
theorem everyCommandIsAnswered : Obligations.EveryCommandIsAnswered := by
  intro s r hinv hc
  obtain ⟨S, st, out, h⟩ := step_answers (fun hctx => (hinv.context hctx).1) hc
  exact ⟨s.answered S st out, ⟨st, out⟩, h, rfl, rfl, rfl⟩

end Sys2Proof.Machine
end

section
/-!
SUPPORT. A keystream call in closed form: byte `j` of its output against `ksByte`, and the state it leaves against
`ksBlock` and the number of blocks made (spec/43_modes.md R179 to R183).
-/

namespace Sys2Proof.Machine

/-! ## The state a keystream call leaves -/

/-- The last of the first `n` keystream blocks from `S` on, or `X` when `n` is 0. -/
def lastKsBlock (S : Arch) (X : Block) (n : Nat) : Block := if n = 0 then X else ksBlock S (n - 1)

/-- What a call of `N` bytes leaves before R183 is applied: the register of its mode moved on by the blocks made. -/
def Arch.afterKs (S : Arch) (N : Nat) : Arch :=
  { S with
    fb := if S.mode = some .ofb then lastKsBlock S S.fb (ksBlocksMade S N) else S.fb
    cval := if S.mode = some .ofb then S.cval else S.cval + BitVec.ofNat 64 (ksBlocksMade S N)
    ksbuf := lastKsBlock S S.ksbuf (ksBlocksMade S N)
    ksrem := BitVec.ofNat 3 (S.ksrem.toNat + 8 * ksBlocksMade S N - N) }

/-! ## One block -/

theorem refill_not_ofb {S : Arch} (h : S.mode ≠ some .ofb) :
    S.refill = { S with cval := S.cval + 1, ksbuf := S.eCtx S.ctrBlock } := by
  unfold Arch.refill
  split
  · exact absurd ‹_› h
  · rfl

theorem refill_mode (S : Arch) : S.refill.mode = S.mode := by
  by_cases h : S.mode = some .ofb
  · rw [refill_ofb h]
  · rw [refill_not_ofb h]

/-- A refill makes keystream block 0. -/
theorem refill_ksbuf (S : Arch) : S.refill.ksbuf = ksBlock S 0 := by
  by_cases h : S.mode = some .ofb
  · rw [refill_ofb h, ksBlock, if_pos h]; rfl
  · simp [refill_not_ofb h, ksBlock, h, Arch.eCtx, Arch.ctrBlock, Arch.cycles]

/-- A counter one further on, read `k` blocks ahead (R203). -/
theorem add_one_add_ofNat (c : DWord) (k : Nat) : c + 1 + BitVec.ofNat 64 k = c + BitVec.ofNat 64 (k + 1) := by
  rw [BitVec.ofNat_add, BitVec.add_assoc, BitVec.add_comm (1 : DWord)]; rfl

/-- After a refill the keystream blocks still to come are those after block 0. -/
theorem ksBlock_refill (S : Arch) (k : Nat) : ksBlock S.refill k = ksBlock S (k + 1) := by
  by_cases h : S.mode = some .ofb
  · simp only [ksBlock, refill_mode, if_pos h]
    rw [refill_ofb h]; rfl
  · simp only [ksBlock, refill_mode, if_neg h]
    rw [refill_not_ofb h, add_one_add_ofNat]

/-- KSREM plays no part in the blocks to come. -/
theorem ksBlock_ksrem (S : Arch) (r : BitVec 3) (k : Nat) : ksBlock { S with ksrem := r } k = ksBlock S k := rfl

/-! ## One byte -/

theorem ksBlock_next_fresh {S : Arch} (h : S.ksrem = 0) (k : Nat) : ksBlock S.nextKsByte.2 k = ksBlock S (k + 1) := by
  rw [nextKsByte_fresh h, ksBlock_ksrem, ksBlock_refill]

theorem ksrem_pred {r : BitVec 3} (h : r ≠ 0) : (BitVec.ofNat 3 (r.toNat - 1)).toNat = r.toNat - 1 := by
  revert r; decide

theorem nextKsByte_byte (S : Arch) : S.nextKsByte.1 = ksByte S 0 := by
  by_cases h : S.ksrem = 0
  · simp [nextKsByte_fresh h, ksByte, h, refill_ksbuf]
  · have hpos : 0 < S.ksrem.toNat := by bv_omega
    simp [nextKsByte_carried h, ksByte, hpos]

theorem ksByte_next (S : Arch) (i : Nat) : ksByte S.nextKsByte.2 i = ksByte S (i + 1) := by
  by_cases h : S.ksrem = 0
  · rw [nextKsByte_fresh h]
    by_cases hi : i < 7
    · have hdiv : (i + 1) / 8 = 0 := by omega
      have hmod : (i + 1) % 8 = 1 + i := by omega
      simp [ksByte, h, hi, hdiv, hmod, refill_ksbuf]
    · have hdiv : (i - 7) / 8 + 1 = (i + 1) / 8 := by omega
      have hmod : (i - 7) % 8 = (i + 1) % 8 := by omega
      simp [ksByte, h, hi, ksBlock_ksrem, ksBlock_refill, hdiv, hmod]
  · rw [nextKsByte_carried h]
    have hr := ksrem_pred h
    have hpos : 0 < S.ksrem.toNat := by bv_omega
    have hlt := S.ksrem.isLt
    have hcarried : i < S.ksrem.toNat - 1 ↔ i + 1 < S.ksrem.toNat := by omega
    have hplace : 8 - (S.ksrem.toNat - 1) + i = 8 - S.ksrem.toNat + (i + 1) := by omega
    have hpast : i - (S.ksrem.toNat - 1) = i + 1 - S.ksrem.toNat := by omega
    simp only [ksByte, ksBlock_ksrem, hr, hcarried, hplace, hpast]

@[simp] theorem lastKsBlock_zero (S : Arch) (X : Block) : lastKsBlock S X 0 = X := if_pos rfl

@[simp] theorem lastKsBlock_succ (S : Arch) (X : Block) (n : Nat) : lastKsBlock S X (n + 1) = ksBlock S n :=
  if_neg (Nat.succ_ne_zero n)

theorem afterKs_zero (S : Arch) : S.afterKs 0 = S := by
  have hn : ksBlocksMade S 0 = 0 := by simp [ksBlocksMade]
  simp only [Arch.afterKs, hn, lastKsBlock_zero, ite_self, Nat.mul_zero, Nat.add_zero, Nat.sub_zero, BitVec.ofNat_toNat,
    BitVec.setWidth_eq, BitVec.add_zero]

/-- The registers after a fresh byte: OFB moves FB on, CTR moves CVAL on. -/
theorem nextKsByte_fresh_registers {S : Arch} (h : S.ksrem = 0) :
    S.nextKsByte.2.fb = (if S.mode = some .ofb then ksBlock S 0 else S.fb) ∧
    S.nextKsByte.2.cval = (if S.mode = some .ofb then S.cval else S.cval + 1) ∧
    S.nextKsByte.2.ksbuf = ksBlock S 0 ∧ S.nextKsByte.2.ksrem = 7 := by
  rw [nextKsByte_fresh h]
  refine ⟨?_, ?_, refill_ksbuf S, rfl⟩ <;> by_cases hm : S.mode = some .ofb
  · rw [if_pos hm, ← refill_ksbuf, refill_ofb hm]
  · rw [if_neg hm, refill_not_ofb hm]
  · rw [if_pos hm, refill_ofb hm]
  · rw [if_neg hm, refill_not_ofb hm]

theorem afterKs_next_fresh {S : Arch} (h : S.ksrem = 0) (N : Nat) : S.nextKsByte.2.afterKs N = S.afterKs (N + 1) := by
  obtain ⟨hfb, hcval, hksbuf, hksrem⟩ := nextKsByte_fresh_registers h
  have hmade : ksBlocksMade S (N + 1) = ksBlocksMade S.nextKsByte.2 N + 1 := by
    simp [ksBlocksMade, h, hksrem]; omega
  have hlast (n : Nat) : lastKsBlock S.nextKsByte.2 (ksBlock S 0) n = ksBlock S n := by
    cases n with
    | zero => rw [lastKsBlock_zero]
    | succ n => rw [lastKsBlock_succ, ksBlock_next_fresh h]
  have hleft (n : Nat) : (7 : BitVec 3).toNat + 8 * n - N = S.ksrem.toNat + 8 * (n + 1) - (N + 1) := by
    simp [h]; omega
  by_cases hm : S.mode = some .ofb <;>
    simp only [Arch.afterKs, nextKsByte_keeps S, hfb, hcval, hksbuf, hksrem, hmade, hm, if_true, if_false,
      hlast, lastKsBlock_succ, add_one_add_ofNat, hleft]

theorem afterKs_next_carried {S : Arch} (h : S.ksrem ≠ 0) (N : Nat) :
    S.nextKsByte.2.afterKs N = S.afterKs (N + 1) := by
  have hr := ksrem_pred h
  have hpos : 0 < S.ksrem.toNat := by bv_omega
  have hmade : ksBlocksMade { S with ksrem := BitVec.ofNat 3 (S.ksrem.toNat - 1) } N = ksBlocksMade S (N + 1) := by
    simp only [ksBlocksMade, hr]; omega
  have hleft (n : Nat) : S.ksrem.toNat - 1 + 8 * n - N = S.ksrem.toNat + 8 * n - (N + 1) := by omega
  rw [nextKsByte_carried h]
  simp only [Arch.afterKs, hmade, hr, hleft]
  rfl

/-- The state after a byte and `N` more is the state after `N + 1` bytes. -/
theorem afterKs_next (S : Arch) (N : Nat) : S.nextKsByte.2.afterKs N = S.afterKs (N + 1) := by
  by_cases h : S.ksrem = 0
  · exact afterKs_next_fresh h N
  · exact afterKs_next_carried h N

/-! ## A whole call -/

theorem xorKeystream_state (In : Bytes) (S : Arch) : (xorKeystream In S).2 = S.afterKs In.length := by
  induction In generalizing S with
  | nil => exact (afterKs_zero S).symm
  | cons b bs ih => rw [List.length_cons, ← afterKs_next, ← ih]; rfl

theorem xorKeystream_byte (In : Bytes) (S : Arch) {j : Nat} (hj : j < In.length) :
    (xorKeystream In S).1[j]? = some (In.getD j 0 ^^^ ksByte S j) := by
  induction In generalizing S j with
  | nil => cases hj
  | cons b bs ih =>
    cases j with
    | zero => simp [xorKeystream, nextKsByte_byte]
    | succ j =>
      rw [← ksByte_next]
      exact ih S.nextKsByte.2 (Nat.lt_of_succ_lt_succ hj)

end Sys2Proof.Machine
end

section
/-!
SUPPORT. ENC and DEC in the keystream modes on an input of any length (spec/43_modes.md R179 to R183).
-/

namespace Sys2Proof.Machine

/-! ## The command -/

/-- The state of R180 and R181: that of the keystream call, with KSREM dropped without KS_CARRY (R183). -/
theorem keystreamCipher_state (p : Params) (S : Arch) (In : Bytes) :
    (keystreamCipher p S In).2 =
      { S.afterKs In.length with ksrem := if p.ksCarry then (S.afterKs In.length).ksrem else 0 } := by
  simp only [keystreamCipher, xorKeystream_state]
  split <;> rfl

/-- ENC and DEC are one command in OFB and CTR (R182), and no length of input fails it (R57). -/
theorem exec_keystream {i : Instr} {s : State} (hi : i = .enc ∨ i = .dec) (hfits : Fits s) (hctx : s.arch.ctx ≠ .none)
    (hmode : KeystreamMode s.arch) :
    exec i s = .next (s.answered { (keystreamCipher s.params s.arch s.inp).2 with ctx := .active } .ok
      (keystreamCipher s.params s.arch s.inp).1) := by
  have hlong : s.tooLong = false := (not_tooLong_iff s).2 hfits
  rcases hi with rfl | rfl <;> rcases hmode with hm | hm <;>
    simp [exec, execEnc, execDec, cipherCommand, hlong, hctx, hm, Mode.wholeBlocks, encTransform, decTransform, succeed_eq]

/-! ## The statements -/

/-- Settles O43: the output is the XOR with `ksByte`, the state `afterKs`, in which OFB moves FB. -/
theorem ofbXorsKeystream : Obligations.OfbXorsKeystream := by
  intro i s hi hfits hctx hm
  refine ⟨(xorKeystream s.inp s.arch).1, ?_, length_xorKeystream _ _, fun j hj => xorKeystream_byte _ _ hj⟩
  rw [exec_keystream hi hfits hctx (.inl hm), keystreamCipher_state]
  simp only [Arch.afterKs, hm, if_true, lastKsBlock, keystreamCipher]

/-- Settles O44: as O43, with CTR moving CVAL. -/
theorem ctrXorsKeystream : Obligations.CtrXorsKeystream := by
  intro i s hi hfits hctx hm
  refine ⟨(xorKeystream s.inp s.arch).1, ?_, length_xorKeystream _ _, fun j hj => xorKeystream_byte _ _ hj⟩
  rw [exec_keystream hi hfits hctx (.inr hm), keystreamCipher_state]
  simp only [Arch.afterKs, hm, Option.some.injEq, reduceCtorEq, if_false, lastKsBlock, keystreamCipher]

end Sys2Proof.Machine
end

section
/-!
SUPPORT. What a command can write: one relation for all thirteen commands, with the guards a success needs, and the
statements about single commands that follow from it by its cases (spec/10_state.md R24 to R37).
-/

namespace Sys2Proof.Machine

/-! ## Writes -/

/-- What the transform of ENC or DEC can leave of `S` in mode `m` (R173 to R183). -/
inductive CipherWrites (S : Arch) : Mode → Arch → Prop
  | ecb : CipherWrites S .ecb S
  | chained (m : Mode) (X : Block) (hm : m = .cbc ∨ m = .cfb) : CipherWrites S m { S with fb := X }
  | ofb (X Y : Block) (r : BitVec 3) : CipherWrites S .ofb { S with fb := X, ksbuf := Y, ksrem := r }
  | ctr (c : DWord) (Y : Block) (r : BitVec 3) : CipherWrites S .ctr { S with cval := c, ksbuf := Y, ksrem := r }

/-- The architectural state a command that succeeds in `s` can leave. -/
inductive Writes (s : State) : Instr → Arch → Prop
  | ldkey (k : Key) : Writes s .ldkey { s.arch with kstg := k, kstgv := true }
  | ldiv (v : Block) : Writes s .ldiv { s.arch with ivstg := v, ivstgv := true }
  | init (mode : BitVec 3) (ord : BitVec 2) (rounds : BitVec 16) (m : Mode) (o : Order)
      (heven : (roundsEff rounds).toNat % 2 = 0) (hctr : m = .ctr → s.arch.ctrv = true) :
      Writes s (.init mode ord rounds) (initContext m o (roundsEff rounds) s.arch)
  | cipher (i : Instr) (m : Mode) (S : Arch) (hi : i = .enc ∨ i = .dec) (hctx : s.arch.ctx ≠ .none)
      (hmode : s.arch.mode = some m) (hS : CipherWrites s.arch m S) : Writes s i { S with ctx := .active }
  | ctrld (ord : BitVec 2) (n : Block) (o : Order) :
      Writes s (.ctrld ord) { s.arch with nonce := n, cord := o, cval := nonceValue n o, ctrv := true }
  | ctrrst (hctrv : s.arch.ctrv = true) :
      Writes s .ctrrst { s.arch with cval := nonceValue s.arch.nonce s.arch.cord }
  | ctrnxt (hctrv : s.arch.ctrv = true) : Writes s .ctrnxt s.arch.ctrNext
  | benc (ord : BitVec 2) (cycles : BitVec 16) : Writes s (.benc ord cycles) s.arch
  | bdec (ord : BitVec 2) (cycles : BitVec 16) : Writes s (.bdec ord cycles) s.arch
  | cmacsk : Writes s .cmacsk s.arch
  | rdreg (reg : BitVec 4) : Writes s (.rdreg reg) s.arch
  | clear : Writes s .clear .reset

theorem keystreamCipher_writes (p : Params) {m : Mode} {S : Arch} (In : Bytes) (hmode : S.mode = some m)
    (hm : m = .ofb ∨ m = .ctr) : CipherWrites S m (keystreamCipher p S In).2 := by
  rw [keystreamCipher_state]
  rcases hm with rfl | rfl
  · simp only [Arch.afterKs, hmode, if_true]
    rw [← hmode]
    exact .ofb _ _ _
  · simp only [Arch.afterKs, hmode, Option.some.injEq, reduceCtorEq, if_false]
    rw [← hmode]
    exact .ctr _ _ _

theorem encTransform_writes (p : Params) {m : Mode} {S : Arch} (In : Bytes) (hmode : S.mode = some m) :
    CipherWrites S m (encTransform p m S In).2 := by
  cases m with
  | ecb => exact .ecb
  | cbc => exact .chained _ _ (.inl rfl)
  | cfb => exact .chained _ _ (.inr rfl)
  | ofb => exact keystreamCipher_writes p In hmode (.inl rfl)
  | ctr => exact keystreamCipher_writes p In hmode (.inr rfl)

theorem decTransform_writes (p : Params) {m : Mode} {S : Arch} (In : Bytes) (hmode : S.mode = some m) :
    CipherWrites S m (decTransform p m S In).2 := by
  cases m with
  | ecb => exact .ecb
  | cbc => exact .chained _ _ (.inl rfl)
  | cfb => exact .chained _ _ (.inr rfl)
  | ofb => exact keystreamCipher_writes p In hmode (.inl rfl)
  | ctr => exact keystreamCipher_writes p In hmode (.inr rfl)

/-- How a command ends: with an error and nothing written (R252), with OK and one of its `Writes`, or in the stop of a
context without a mode. -/
inductive Ends (i : Instr) (s : State) : Result → Prop
  | error (e : Error) : Ends i s (.next (s.answeredError e))
  | ok (S : Arch) (out : Bytes) (hS : Writes s i S) : Ends i s (.next (s.answered S .ok out))
  | stop : Ends i s (.fault .contextWithoutMode)

theorem exec_ends (i : Instr) (s : State) : Ends i s (exec i s) := by
  cases i with
  | ldkey =>
    obtain ⟨_, h⟩ | ⟨k, _, _, h⟩ := execLdkey_cases s <;> rw [exec, h]
    exacts [.error _, .ok _ _ (.ldkey k)]
  | ldiv =>
    obtain ⟨_, h⟩ | ⟨v, _, _, h⟩ := execLdiv_cases s <;> rw [exec, h]
    exacts [.error _, .ok _ _ (.ldiv v)]
  | init mode ord rounds =>
    obtain ⟨_, h⟩ | ⟨m, o, _, _, heven, _, _, _, hctr, h⟩ := execInit_cases mode ord rounds s <;> rw [exec, h]
    exacts [.error _, .ok _ _ (.init mode ord rounds m o heven hctr)]
  | enc =>
    obtain ⟨_, h⟩ | ⟨m, _, hctx, hmode, _, h⟩ | ⟨_, _, h⟩ := cipherCommand_cases encTransform s <;> rw [exec, execEnc, h]
    exacts [.error _, .ok _ _ (.cipher _ m _ (.inl rfl) hctx hmode (encTransform_writes _ _ hmode)), .stop]
  | dec =>
    obtain ⟨_, h⟩ | ⟨m, _, hctx, hmode, _, h⟩ | ⟨_, _, h⟩ := cipherCommand_cases decTransform s <;> rw [exec, execDec, h]
    exacts [.error _, .ok _ _ (.cipher _ m _ (.inr rfl) hctx hmode (decTransform_writes _ _ hmode)), .stop]
  | benc ord cycles =>
    obtain ⟨_, h⟩ | ⟨_, _, _, _, _, _, h⟩ := blockCommand_cases eBlk ord cycles s <;> rw [exec, execBenc, h]
    exacts [.error _, .ok _ _ (.benc ord cycles)]
  | bdec ord cycles =>
    obtain ⟨_, h⟩ | ⟨_, _, _, _, _, _, h⟩ := blockCommand_cases dBlk ord cycles s <;> rw [exec, execBdec, h]
    exacts [.error _, .ok _ _ (.bdec ord cycles)]
  | ctrld ord =>
    obtain ⟨_, h⟩ | ⟨n, o, _, _, _, h⟩ := execCtrld_cases ord s <;> rw [exec, h]
    exacts [.error _, .ok _ _ (.ctrld ord n o)]
  | ctrrst =>
    obtain ⟨_, h⟩ | ⟨_, hctrv, h⟩ := execCtrrst_cases s <;> rw [exec, h]
    exacts [.error _, .ok _ _ (.ctrrst hctrv)]
  | ctrnxt =>
    obtain ⟨_, h⟩ | ⟨_, hctrv, h⟩ := execCtrnxt_cases s <;> rw [exec, h]
    exacts [.error _, .ok _ _ (.ctrnxt hctrv)]
  | cmacsk =>
    obtain ⟨_, h⟩ | ⟨_, _, _, h⟩ := execCmacsk_cases s <;> rw [exec, h]
    exacts [.error _, .ok _ _ .cmacsk]
  | rdreg reg =>
    obtain ⟨_, h⟩ | ⟨_, _, _, h⟩ := execRdreg_cases reg s <;> rw [exec, h]
    exacts [.error _, .ok _ _ (.rdreg reg)]
  | clear =>
    obtain ⟨_, h⟩ | ⟨_, h⟩ := execClear_cases s <;> rw [exec, h]
    exacts [.error _, .ok _ _ .clear]

/-- The state after a command that answers: unchanged with an error, or one of the command's `Writes` with OK. -/
theorem exec_next {i : Instr} {s t : State} (h : exec i s = .next t) :
    (∃ e, t = s.answeredError e) ∨ (∃ S out, Writes s i S ∧ t = s.answered S .ok out) := by
  have hends := exec_ends i s
  rw [h] at hends
  cases hends with
  | error e => exact .inl ⟨e, rfl⟩
  | ok S out hS => exact .inr ⟨S, out, hS, rfl⟩

/-! ## The invariants of R37 -/

theorem reset_inv : Arch.reset.Inv where
  noContext _ := ⟨rfl, rfl, rfl, rfl, rfl, rfl, rfl⟩
  context h := absurd rfl h
  ctrHasCounter h := absurd rfl h
  wholeBlocksNoCarry h := absurd rfl h
  noCounter _ := ⟨rfl, rfl, rfl⟩
  carryBelowBlock := Nat.zero_le 7

/-- R79: an effective round count that is even lies between 2 and 65534. -/
theorem roundsEff_bounds {rounds : BitVec 16} (heven : (roundsEff rounds).toNat % 2 = 0) :
    2 ≤ (roundsEff rounds).toNat ∧ (roundsEff rounds).toNat ≤ 65534 := by
  have hlt := (roundsEff rounds).isLt
  have hpos : (roundsEff rounds).toNat ≠ 0 := by
    unfold roundsEff
    split
    · decide
    · bv_omega
  omega

theorem initContext_inv {S : Arch} (hinv : S.Inv) {rounds : BitVec 16} {m : Mode} (o : Order)
    (heven : (roundsEff rounds).toNat % 2 = 0) (hctr : m = .ctr → S.ctrv = true) :
    (initContext m o (roundsEff rounds) S).Inv where
  noContext h := by cases h
  context _ := ⟨by simp, heven, roundsEff_bounds heven⟩
  ctrHasCounter _ hm := hctr (Option.some.inj hm)
  wholeBlocksNoCarry _ _ := rfl
  noCounter := hinv.noCounter
  carryBelowBlock := Nat.zero_le 7

/-- A context stays one under ENC and DEC; only OFB and CTR leave a carry, and only CTR, which has a counter, moves it. -/
theorem cipherWrites_inv {S T : Arch} {m : Mode} (hinv : S.Inv) (hctx : S.ctx ≠ .none) (hmode : S.mode = some m)
    (hT : CipherWrites S m T) : ({ T with ctx := .active } : Arch).Inv := by
  have hcontext := hinv.context hctx
  have hctr := hinv.ctrHasCounter hctx
  have hcarry := hinv.wholeBlocksNoCarry hctx
  have hcounter := hinv.noCounter
  cases hT with
  | ecb => exact ⟨nofun, fun _ => hcontext, fun _ => hctr, fun _ => hcarry, hcounter, hinv.carryBelowBlock⟩
  | chained _ X hm => exact ⟨nofun, fun _ => hcontext, fun _ => hctr, fun _ => hcarry, hcounter, hinv.carryBelowBlock⟩
  | ofb X Y r =>
    exact ⟨nofun, fun _ => hcontext, fun _ => hctr, fun _ => by simp [hmode], hcounter, Nat.le_of_lt_succ r.isLt⟩
  | ctr c Y r =>
    have hctrv : S.ctrv = true := hctr hmode
    exact ⟨nofun, fun _ => hcontext, fun _ => hctr, fun _ => by simp [hmode], by simp [hctrv],
      Nat.le_of_lt_succ r.isLt⟩

theorem writes_inv {i : Instr} {s : State} {S : Arch} (hinv : s.arch.Inv) (hS : Writes s i S) : S.Inv := by
  obtain ⟨hnone, hcontext, hctr, hcarry, hcounter, hbelow⟩ := id hinv
  cases hS with
  | ldkey k => exact ⟨hnone, hcontext, hctr, hcarry, hcounter, hbelow⟩
  | ldiv v => exact ⟨hnone, hcontext, hctr, hcarry, hcounter, hbelow⟩
  | init mode ord rounds m o heven hm => exact initContext_inv hinv o heven hm
  | cipher _ m T hi hctx hmode hT => exact cipherWrites_inv hinv hctx hmode hT
  | ctrld ord n o => exact ⟨hnone, hcontext, fun _ _ => rfl, hcarry, nofun, hbelow⟩
  | ctrrst hctrv => exact ⟨hnone, hcontext, hctr, hcarry, by simp [hctrv], hbelow⟩
  | ctrnxt hctrv => exact ⟨hnone, hcontext, hctr, hcarry, by simp [hctrv], hbelow⟩
  | benc ord cycles => exact hinv
  | bdec ord cycles => exact hinv
  | cmacsk => exact hinv
  | rdreg reg => exact hinv
  | clear => exact reset_inv

theorem exec_inv {i : Instr} {s t : State} (hinv : s.arch.Inv) (h : exec i s = .next t) : t.arch.Inv := by
  obtain ⟨e, rfl⟩ | ⟨S, out, hS, rfl⟩ := exec_next h
  · exact hinv
  · exact writes_inv hinv hS

/-! ## The statements -/

/-- Settles O13. -/
theorem resetMeetsInvariants : Obligations.ResetMeetsInvariants := reset_inv

/-- Settles O12: an idle step and a word that is no command leave the state, and every command's `Writes` keep R37. -/
theorem stepKeepsInvariants : Obligations.StepKeepsInvariants := by
  intro s t hinv h
  cases hc : s.cmd with
  | none =>
    rw [step_idle hc] at h
    cases h
    exact hinv
  | some r =>
    cases hd : decode r.word with
    | error e =>
      rw [step_undecoded hc hd] at h
      cases h
      exact hinv
    | ok i =>
      rw [step_decoded hc hd] at h
      exact exec_inv hinv h

/-- Settles O38: by the cases of `Writes`, of which only INIT, ENC, DEC and CLEAR write CTX. -/
theorem contextStateMoves : Obligations.ContextStateMoves := by
  intro i s t a h hresp
  obtain ⟨e, rfl⟩ | ⟨S, out, hS, rfl⟩ := exec_next h <;> cases hresp
  · simp
  · refine ⟨fun hne => absurd rfl hne, fun _ => ?_⟩
    cases hS with
    | cipher _ m T hi hctx hmode hT => rcases hi with rfl | rfl <;> simp [hctx]
    | init mode ord rounds m o heven hm => simp
    | clear => simp [Arch.reset]
    | _ => simp

/-- Settles O37: by the cases of `Writes`. -/
theorem fieldsChangeOnlyByTheirCommands : Obligations.FieldsChangeOnlyByTheirCommands := by
  intro i s t h
  obtain ⟨e, rfl⟩ | ⟨S, out, hS, rfl⟩ := exec_next h
  · simp
  · refine ⟨rfl, ?_⟩
    cases hS with
    | cipher _ m T hi hctx hmode hT =>
      rcases hi with rfl | rfl <;> cases hT with
      | ecb => simp
      | chained _ X hm => rcases hm with rfl | rfl <;> simp [hmode]
      | ofb X Y r => simp [hmode, KeystreamMode]
      | ctr c Y r => simp [hmode, KeystreamMode]
    | _ => simp

end Sys2Proof.Machine
end

section
/-!
SUPPORT. RDREG (spec/42_context.md R145): the readback words as sums of their fields at their places (spec/10_state.md
R38 to R40), and the answer for every register number and input.
-/

namespace Sys2Proof.Machine

/-! ## The readback words as sums -/

/-- A field ORed in above every bit that is set adds its value at its place. -/
theorem toNat_or_shiftLeft {x : Word} {w : Nat} (f : BitVec w) {k : Nat} (hx : x.toNat < 2 ^ k) (hk : w + k ≤ 32) :
    (x ||| f.setWidth 32 <<< k).toNat = x.toNat + 2 ^ k * f.toNat := by
  have hfield : f.toNat < 2 ^ 32 := Nat.lt_of_lt_of_le f.isLt (Nat.pow_le_pow_right (by decide) (by omega))
  have hplaced : f.toNat * 2 ^ k < 2 ^ 32 := calc
    f.toNat * 2 ^ k < 2 ^ w * 2 ^ k := Nat.mul_lt_mul_of_pos_right f.isLt (Nat.two_pow_pos k)
    _ = 2 ^ (w + k) := (Nat.pow_add ..).symm
    _ ≤ 2 ^ 32 := Nat.pow_le_pow_right (by decide) hk
  rw [BitVec.toNat_or, BitVec.toNat_shiftLeft, BitVec.toNat_setWidth, Nat.mod_eq_of_lt hfield, Nat.shiftLeft_eq,
    Nat.mod_eq_of_lt hplaced, Nat.mul_comm, Nat.or_comm, ← Nat.two_pow_add_eq_or_of_lt hx, Nat.add_comm]

/-- A field alone has its value at its place. -/
theorem toNat_shiftLeft_field {w : Nat} (f : BitVec w) {k : Nat} (hk : w + k ≤ 32) :
    (f.setWidth 32 <<< k).toNat = 2 ^ k * f.toNat := by
  have h := toNat_or_shiftLeft (x := 0#32) f (Nat.two_pow_pos k) hk
  rwa [BitVec.zero_or, BitVec.toNat_ofNat, Nat.zero_mod, Nat.zero_add] at h

theorem flag_toNat (b : Bool) : (flag b).toNat = b.toNat := by cases b <;> rfl

theorem statusWord_toNat (S : Arch) :
    (statusWord S).toNat =
      S.ctx.code.toNat + 4 * S.kstgv.toNat + 8 * S.ivstgv.toNat + 16 * S.ctrv.toNat + 256 * S.ksrem.toNat := by
  have hctx := S.ctx.code.isLt
  have hkstgv := (flag S.kstgv).isLt
  have hivstgv := (flag S.ivstgv).isLt
  have hctrv := (flag S.ctrv).isLt
  have h0 : (S.ctx.code.setWidth 32).toNat = S.ctx.code.toNat := by simp; omega
  have h2 := toNat_or_shiftLeft (flag S.kstgv) (k := 2) (by rwa [h0]) (by decide)
  have h3 := toNat_or_shiftLeft (flag S.ivstgv) (k := 3) (by rw [h2, h0]; omega) (by decide)
  have h4 := toNat_or_shiftLeft (flag S.ctrv) (k := 4) (by rw [h3, h2, h0]; omega) (by decide)
  have h8 := toNat_or_shiftLeft S.ksrem (k := 8) (by rw [h4, h3, h2, h0]; omega) (by decide)
  rw [statusWord, h8, h4, h3, h2, h0]
  simp only [flag_toNat, Nat.reducePow]

theorem configWord_toNat (S : Arch) :
    (configWord S).toNat =
      256 * (modeCode S.mode).toNat + 4096 * (orderCode S.ord).toNat + 65536 * S.rounds.toNat := by
  have hmode := (modeCode S.mode).isLt
  have hord := (orderCode S.ord).isLt
  have h8 := toNat_shiftLeft_field (modeCode S.mode) (k := 8) (by decide)
  have h12 := toNat_or_shiftLeft (orderCode S.ord) (k := 12) (by rw [h8]; omega) (by decide)
  have h16 := toNat_or_shiftLeft S.rounds (k := 16) (by rw [h12, h8]; omega) (by decide)
  rw [configWord, h16, h12, h8]
  simp only [Nat.reducePow]

theorem ctrcfgWord_toNat (S : Arch) : (ctrcfgWord S).toNat = 4096 * (orderCode S.cord).toNat :=
  toNat_shiftLeft_field (orderCode S.cord) (k := 12) (by decide)

/-! ## RDREG by register number and input -/

theorem readReg?_eq_none {reg : BitVec 4} {S : Arch} : readReg? reg S = none ↔ 4 < reg.toNat := by
  unfold readReg?
  split
  case h_6 h0 h1 h2 h3 h4 =>
    simp only [imp_false, true_iff] at h0 h1 h2 h3 h4 ⊢
    omega
  all_goals simp [*]

theorem exec_rdreg_of_empty {s : State} {reg : BitVec 4} {out : Bytes} (hinp : s.inp = [])
    (hreg : readReg? reg s.arch = some out) : exec (.rdreg reg) s = .next (s.answered s.arch .ok out) := by
  simp [exec, execRdreg, hreg, not_tooLong_of_empty hinp, hinp, succeed_eq]

theorem exec_rdreg_of_nonempty {s : State} {reg : BitVec 4} (hreg : reg.toNat ≤ 4) (hinp : s.inp ≠ []) :
    exec (.rdreg reg) s = .next (s.answeredError .invalidLength) := by
  obtain ⟨out, hout⟩ := Option.ne_none_iff_exists'.1 (mt (readReg?_eq_none (S := s.arch)).1 (Nat.not_lt.2 hreg))
  simp [exec, execRdreg, hout, hinp, fail_eq]

theorem exec_rdreg_of_noRegister {s : State} {reg : BitVec 4} (hreg : 4 < reg.toNat) :
    exec (.rdreg reg) s = .next (s.answeredError .invalidCommand) := by
  simp [exec, execRdreg, readReg?_eq_none.2 hreg, fail_eq]

/-- R81: a word with the opcode of RDREG and REG above 4 is no command, reserved bits or not. -/
theorem decode_rdreg_noRegister {w : Word} (hopc : w.toNat % 256 = 0x0C) (hreg : 4 < w.toNat / 256 % 16) :
    ∃ e, decode w = .error e := by
  have hop : opcodeOf? (opcField w) = some .rdreg := by
    have h : opcField w = 0x0C := by
      apply BitVec.eq_of_toNat_eq
      simp [opcField, hopc]
    rw [h]; rfl
  have hlast : lastReg < (regField w).toNat := by
    simpa [regField, lastReg, Nat.shiftRight_eq_div_pow] using hreg
  unfold decode
  rw [hop]
  by_cases hres : w &&& reservedMask Opcode.rdreg.format ≠ 0
  · exact ⟨.reservedBits, if_pos hres⟩
  · exact ⟨.badRegister, by simp only [if_neg hres]; exact if_pos ⟨rfl, hlast⟩⟩

/-! ## The statement -/

/-- Settles O33: the words by their sums, the answers by register number and input. -/
theorem rdregReadsRegisters : Obligations.RdregReadsRegisters := by
  refine ⟨by decide, fun s hinp => ⟨?_, ?_, ?_, ?_, ?_⟩, ?_, fun s reg => exec_rdreg_of_noRegister,
    fun s reg => exec_rdreg_of_nonempty⟩
  · rw [← statusWord_toNat]; exact exec_rdreg_of_empty hinp rfl
  · rw [← configWord_toNat]; exact exec_rdreg_of_empty hinp rfl
  · rw [← ctrcfgWord_toNat]; exact exec_rdreg_of_empty hinp rfl
  · exact exec_rdreg_of_empty hinp rfl
  · exact exec_rdreg_of_empty hinp rfl
  · intro s w B hc hopc hreg
    obtain ⟨e, hd⟩ := decode_rdreg_noRegister hopc hreg
    exact step_undecoded hc hd

end Sys2Proof.Machine
end

section
/-!
SUPPORT. Two runs of one command on cores that differ only in what RDREG does not show (spec/10_state.md R42): one rule for
each shared way a command is built, then one lemma a command, then sessions (spec/20_memory.md R61, R62).
-/

namespace Sys2Proof.Machine

/-! ## Cores that agree on what can be read -/

/-- Two cores with the same readable fields, parameters and input. -/
structure Indist (s s' : State) : Prop where
  arch : SameReadable s.arch s'.arch
  params : s.params = s'.params
  inp : s.inp = s'.inp

/-- Two results alike to the host: the same kind of end, status and readable fields, and outputs related by `R`. -/
inductive AlikeUpTo (R : Bytes → Bytes → Prop) : Result → Result → Prop
  | next {t t' : State} (harch : SameReadable t.arch t'.arch) (hparams : t.params = t'.params) {st : Status}
      {out out' : Bytes} (hresp : t.resp = some ⟨st, out⟩) (hresp' : t'.resp = some ⟨st, out'⟩) (hout : R out out') :
      AlikeUpTo R (.next t) (.next t')
  | fault (r : Fault) : AlikeUpTo R (.fault r) (.fault r)

/-- What the host may learn from the output of a command (R42): of ENC and DEC the length, of any other the bytes. -/
def SameOut (i : Instr) (out out' : Bytes) : Prop :=
  out.length = out'.length ∧ (i ≠ .enc → i ≠ .dec → out = out')

theorem SameOut.of_eq (i : Instr) {out out' : Bytes} (h : out = out') : SameOut i out out' :=
  ⟨congrArg _ h, fun _ _ => h⟩

/-- Alike up to a relation is alike up to a weaker one. -/
theorem AlikeUpTo.mono {R R' : Bytes → Bytes → Prop} {r r' : Result} (h : AlikeUpTo R r r')
    (hR : ∀ {out out'}, R out out' → R' out out') : AlikeUpTo R' r r' := by
  cases h with
  | next harch hparams hresp hresp' hout => exact .next harch hparams hresp hresp' (hR hout)
  | fault r => exact .fault r

section rules
variable {s s' : State} (h : Indist s s') {R : Bytes → Bytes → Prop}
include h

theorem Indist.tooLong : s.tooLong = s'.tooLong := by
  simp only [State.tooLong, h.params, h.inp]

theorem alike_fail (hR : R [] []) (e : Error) : AlikeUpTo R (s.fail e) (s'.fail e) :=
  .next h.arch h.params rfl rfl hR

theorem alike_succeed {S S' : Arch} {out out' : Bytes} (hS : SameReadable S S') (hR : R out out') :
    AlikeUpTo R (s.succeed S out) (s'.succeed S' out') :=
  .next hS h.params rfl rfl hR

/-- A check both cores decide alike, and what follows it. -/
theorem alike_check {c c' : Prop} [Decidable c] [Decidable c'] {r r' : Result} (hR : R [] []) (hc : c ↔ c') (e : Error)
    (hr : AlikeUpTo R r r') : AlikeUpTo R (if c then s.fail e else r) (if c' then s'.fail e else r') := by
  by_cases h1 : c
  · rw [if_pos h1, if_pos (hc.1 h1)]; exact alike_fail h hR e
  · rw [if_neg h1, if_neg (mt hc.2 h1)]; exact hr

theorem alike_bounded {r r' : Result} (hR : R [] []) (hr : AlikeUpTo R r r') :
    AlikeUpTo R (if s.tooLong then s.fail .invalidLength else r) (if s'.tooLong then s'.fail .invalidLength else r') :=
  alike_check h hR (by rw [h.tooLong]) _ hr

theorem alike_noInput {r r' : Result} (hR : R [] []) (hr : AlikeUpTo R r r') :
    AlikeUpTo R (if s.inp.length ≠ 0 then s.fail .invalidLength else r)
      (if s'.inp.length ≠ 0 then s'.fail .invalidLength else r') :=
  alike_check h hR (by rw [h.inp]) _ hr

end rules

/-! ## One command on both -/

section commands
variable {s s' : State} (h : Indist s s')
include h

theorem execLdkey_alike : AlikeUpTo (· = ·) (execLdkey s) (execLdkey s') := by
  obtain ⟨-, hrest⟩ := h.arch
  refine alike_bounded h rfl ?_
  rw [h.inp]
  cases ofBytes? 16 s'.inp with
  | none => exact alike_fail h rfl _
  | some k => exact alike_succeed h ⟨rfl, hrest⟩ rfl

theorem execLdiv_alike : AlikeUpTo (· = ·) (execLdiv s) (execLdiv s') := by
  obtain ⟨hkstgv, -, hrest⟩ := h.arch
  refine alike_bounded h rfl ?_
  rw [h.inp]
  cases ofBytes? 8 s'.inp with
  | none => exact alike_fail h rfl _
  | some v => exact alike_succeed h ⟨hkstgv, rfl, hrest⟩ rfl

theorem execInit_alike (mode : BitVec 3) (ord : BitVec 2) (rounds : BitVec 16) :
    AlikeUpTo (· = ·) (execInit mode ord rounds s) (execInit mode ord rounds s') := by
  obtain ⟨hkstgv, hivstgv, -, -, -, -, -, hnonce, hcord, hcval, hctrv⟩ := h.arch
  unfold execInit
  cases orderOf? ord with
  | none => exact alike_fail h rfl _
  | some o =>
    cases modeOf? mode with
    | none => exact alike_fail h rfl _
    | some m =>
      refine alike_check h rfl Iff.rfl _ <| alike_bounded h rfl <| alike_noInput h rfl <|
        alike_check h rfl (by rw [hkstgv]) _ <| alike_check h rfl (by rw [hivstgv]) _ <|
        alike_check h rfl (by rw [hctrv]) _ <| alike_succeed h ?_ rfl
      exact ⟨rfl, rfl, rfl, rfl, rfl, rfl, rfl, hnonce, hcord, hcval, hctrv⟩

theorem blockCommand_alike (f : Key → Block → Nat → Order → Block) (ord : BitVec 2) (cycles : BitVec 16) :
    AlikeUpTo (· = ·) (blockCommand f ord cycles s) (blockCommand f ord cycles s') := by
  unfold blockCommand
  cases orderOf? ord with
  | none => exact alike_fail h rfl _
  | some o =>
    refine alike_bounded h rfl ?_
    rw [h.inp]
    cases keyAndBlock? s'.inp with
    | none => exact alike_fail h rfl _
    | some kb => exact alike_succeed h h.arch rfl

theorem execCtrld_alike (ord : BitVec 2) : AlikeUpTo (· = ·) (execCtrld ord s) (execCtrld ord s') := by
  obtain ⟨hkstgv, hivstgv, hctx, hmode, hord, hrounds, hksrem, -⟩ := h.arch
  unfold execCtrld
  cases orderOf? ord with
  | none => exact alike_fail h rfl _
  | some o =>
    refine alike_bounded h rfl ?_
    rw [h.inp]
    cases ofBytes? 8 s'.inp with
    | none => exact alike_fail h rfl _
    | some n =>
      exact alike_succeed h ⟨hkstgv, hivstgv, hctx, hmode, hord, hrounds, hksrem, rfl, rfl, rfl, rfl⟩ rfl

theorem execCtrrst_alike : AlikeUpTo (· = ·) (execCtrrst s) (execCtrrst s') := by
  obtain ⟨hkstgv, hivstgv, hctx, hmode, hord, hrounds, hksrem, hnonce, hcord, -, hctrv⟩ := h.arch
  refine alike_bounded h rfl <| alike_noInput h rfl <| alike_check h rfl (by rw [hctrv]) _ <| alike_succeed h ?_ rfl
  exact ⟨hkstgv, hivstgv, hctx, hmode, hord, hrounds, hksrem, hnonce, hcord, by rw [hnonce, hcord], hctrv⟩

theorem execCtrnxt_alike : AlikeUpTo (· = ·) (execCtrnxt s) (execCtrnxt s') := by
  obtain ⟨hkstgv, hivstgv, hctx, hmode, hord, hrounds, hksrem, hnonce, hcord, hcval, hctrv⟩ := h.arch
  refine alike_bounded h rfl <| alike_noInput h rfl <| alike_check h rfl (by rw [hctrv]) _ <| alike_succeed h ?_ ?_
  · exact ⟨hkstgv, hivstgv, hctx, hmode, hord, hrounds, hksrem, hnonce, hcord, by simp [hcval], hctrv⟩
  · simp only [Arch.ctrBlock, hcval, hcord]

theorem execCmacsk_alike : AlikeUpTo (· = ·) (execCmacsk s) (execCmacsk s') := by
  refine alike_bounded h rfl ?_
  rw [h.inp]
  cases ofBytes? 16 s'.inp with
  | none => exact alike_fail h rfl _
  | some KB => exact alike_succeed h h.arch rfl

/-- RDREG shows nothing of the secrets (R42). -/
theorem readReg?_alike (reg : BitVec 4) : readReg? reg s.arch = readReg? reg s'.arch := by
  obtain ⟨hkstgv, hivstgv, hctx, hmode, hord, hrounds, hksrem, hnonce, hcord, hcval, hctrv⟩ := h.arch
  simp only [readReg?, statusWord, configWord, ctrcfgWord, hkstgv, hivstgv, hctx, hmode, hord, hrounds, hksrem, hnonce,
    hcord, hcval, hctrv]

theorem execRdreg_alike (reg : BitVec 4) : AlikeUpTo (· = ·) (execRdreg reg s) (execRdreg reg s') := by
  unfold execRdreg
  rw [readReg?_alike h]
  cases readReg? reg s'.arch with
  | none => exact alike_fail h rfl _
  | some out => exact alike_bounded h rfl <| alike_noInput h rfl <| alike_succeed h h.arch rfl

theorem execClear_alike : AlikeUpTo (· = ·) (execClear s) (execClear s') :=
  alike_bounded h rfl <| alike_noInput h rfl <|
    alike_succeed h ⟨rfl, rfl, rfl, rfl, rfl, rfl, rfl, rfl, rfl, rfl, rfl⟩ rfl

/-- ENC and DEC over their transform, of which the host learns the length of the output alone. -/
theorem cipherCommand_alike {i : Instr} (hi : i = .enc ∨ i = .dec) {f : Params → Mode → Arch → Bytes → Bytes × Arch}
    (hf : ∀ p m In, SameReadable (f p m s.arch In).2 (f p m s'.arch In).2 ∧
      (f p m s.arch In).1.length = (f p m s'.arch In).1.length) :
    AlikeUpTo (SameOut i) (cipherCommand f s) (cipherCommand f s') := by
  obtain ⟨-, -, hctx, hmode, -⟩ := h.arch
  have hempty : SameOut i [] [] := .of_eq i rfl
  refine alike_bounded h hempty <| alike_check h hempty (by rw [hctx]) _ ?_
  rw [hmode]
  cases s'.arch.mode with
  | none => exact .fault _
  | some m =>
    obtain ⟨⟨hkstgv, hivstgv, -, hrest⟩, hlen⟩ := hf s.params m s.inp
    refine alike_check h hempty (by rw [h.inp]) _ ?_
    rw [← h.params, ← h.inp]
    exact alike_succeed h ⟨hkstgv, hivstgv, rfl, hrest⟩ ⟨hlen, fun henc hdec => (hi.elim henc hdec).elim⟩

end commands

/-! ## The transforms of ENC and DEC -/

section transforms
variable {S S' : Arch} (h : SameReadable S S')
include h

/-- A keystream call moves CVAL and KSREM by the blocks made, which KSREM and the length of the input decide. -/
theorem afterKs_alike (N : Nat) : SameReadable (S.afterKs N) (S'.afterKs N) := by
  obtain ⟨hkstgv, hivstgv, hctx, hmode, hord, hrounds, hksrem, hnonce, hcord, hcval, hctrv⟩ := h
  have hmade : ksBlocksMade S N = ksBlocksMade S' N := by rw [ksBlocksMade, ksBlocksMade, hksrem]
  exact ⟨hkstgv, hivstgv, hctx, hmode, hord, hrounds, by simp only [Arch.afterKs, hksrem, hmade], hnonce, hcord,
    by simp only [Arch.afterKs, hmode, hcval, hmade], hctrv⟩

theorem keystreamCipher_alike (p : Params) (In : Bytes) :
    SameReadable (keystreamCipher p S In).2 (keystreamCipher p S' In).2 ∧
      (keystreamCipher p S In).1.length = (keystreamCipher p S' In).1.length := by
  obtain ⟨hkstgv, hivstgv, hctx, hmode, hord, hrounds, hksrem, hrest⟩ := afterKs_alike h In.length
  rw [keystreamCipher_state, keystreamCipher_state]
  exact ⟨⟨hkstgv, hivstgv, hctx, hmode, hord, hrounds, by simp only [hksrem], hrest⟩, by simp [keystreamCipher]⟩

theorem encTransform_alike (p : Params) (m : Mode) (In : Bytes) :
    SameReadable (encTransform p m S In).2 (encTransform p m S' In).2 ∧
      (encTransform p m S In).1.length = (encTransform p m S' In).1.length := by
  cases m with
  | ecb => exact ⟨h, by simp [encTransform]⟩
  | cbc => exact ⟨h, by simp [encTransform]⟩
  | cfb => exact ⟨h, by simp [encTransform]⟩
  | ofb => exact keystreamCipher_alike h p In
  | ctr => exact keystreamCipher_alike h p In

theorem decTransform_alike (p : Params) (m : Mode) (In : Bytes) :
    SameReadable (decTransform p m S In).2 (decTransform p m S' In).2 ∧
      (decTransform p m S In).1.length = (decTransform p m S' In).1.length := by
  cases m with
  | ecb => exact ⟨h, by simp [decTransform]⟩
  | cbc => exact ⟨h, by simp [decTransform]⟩
  | cfb => exact ⟨h, by simp [decTransform]⟩
  | ofb => exact keystreamCipher_alike h p In
  | ctr => exact keystreamCipher_alike h p In

end transforms

/-! ## Every command, every step, every session -/

theorem exec_alike (i : Instr) {s s' : State} (h : Indist s s') : AlikeUpTo (SameOut i) (exec i s) (exec i s') := by
  cases i with
  | ldkey => exact (execLdkey_alike h).mono (.of_eq _)
  | ldiv => exact (execLdiv_alike h).mono (.of_eq _)
  | init mode ord rounds => exact (execInit_alike h mode ord rounds).mono (.of_eq _)
  | enc => exact cipherCommand_alike h (.inl rfl) (encTransform_alike h.arch)
  | dec => exact cipherCommand_alike h (.inr rfl) (decTransform_alike h.arch)
  | benc ord cycles => exact (blockCommand_alike h eBlk ord cycles).mono (.of_eq _)
  | bdec ord cycles => exact (blockCommand_alike h dBlk ord cycles).mono (.of_eq _)
  | ctrld ord => exact (execCtrld_alike h ord).mono (.of_eq _)
  | ctrrst => exact (execCtrrst_alike h).mono (.of_eq _)
  | ctrnxt => exact (execCtrnxt_alike h).mono (.of_eq _)
  | cmacsk => exact (execCmacsk_alike h).mono (.of_eq _)
  | rdreg reg => exact (execRdreg_alike h reg).mono (.of_eq _)
  | clear => exact (execClear_alike h).mono (.of_eq _)

theorem opcodeOf?_byte {b : BitVec 8} {op : Opcode} (h : opcodeOf? b = some op) : b.setWidth 32 = op.byte := by
  unfold opcodeOf? at h
  split at h <;> cases h <;> exact BitVec.eq_of_toNat_eq (by simp [*, Opcode.byte])

/-- A word with no bit outside OPC is its OPC field (R71, R72). -/
theorem eq_opcField_of_format_n {w : Word} (hres : w &&& reservedMask .n = 0) : w = (opcField w).setWidth 32 := by
  have hlow : w &&& 0xFF = (opcField w).setWidth 32 := by
    apply BitVec.eq_of_toNat_eq
    simp only [BitVec.toNat_and, opcField, BitVec.toNat_setWidth, BitVec.extractLsb'_toNat, Nat.shiftRight_zero]
    rw [Nat.mod_eq_of_lt (by omega : w.toNat % 2 ^ 8 < 2 ^ 32)]
    exact Nat.and_two_pow_sub_one_eq_mod w.toNat 8
  calc
    w = w &&& BitVec.allOnes 32 := BitVec.and_allOnes.symm
    _ = w &&& (0xFF ||| reservedMask .n) := rfl
    _ = w &&& 0xFF ||| w &&& reservedMask .n := by rw [BitVec.and_or_distrib_left]
    _ = (opcField w).setWidth 32 := by rw [hres, hlow]; exact BitVec.or_zero

/-- ENC and DEC have one word each. -/
theorem word_of_decode_cipher {w : Word} {i : Instr} (hd : decode w = .ok i) (hi : i = .enc ∨ i = .dec) :
    w = encode i := by
  unfold decode at hd
  split at hd
  · cases hd
  next op hop =>
    have hres : w &&& reservedMask op.format = 0 := by
      by_contra hne
      rw [if_pos hne] at hd
      cases hd
    have hinstr : op.instr w = i := by
      rw [if_neg (not_not.2 hres)] at hd
      split at hd <;> cases hd
      rfl
    have hword (hn : op.format = .n) : w = op.byte := by
      rw [← opcodeOf?_byte hop]
      exact eq_opcField_of_format_n (hn ▸ hres)
    subst hinstr
    cases op with
    | enc => exact hword rfl
    | dec => exact hword rfl
    | _ => rcases hi with h | h <;> cases h

/-- What the host may learn from the output of a word (R42). -/
def SameWordOut (w : Word) (out out' : Bytes) : Prop :=
  out.length = out'.length ∧ (w ≠ encode .enc → w ≠ encode .dec → out = out')

theorem SameOut.word {w : Word} {i : Instr} (hd : decode w = .ok i) {out out' : Bytes} (h : SameOut i out out') :
    SameWordOut w out out' := by
  refine ⟨h.1, fun henc hdec => h.2 ?_ ?_⟩
  · rintro rfl
    exact henc (word_of_decode_cipher hd (.inl rfl))
  · rintro rfl
    exact hdec (word_of_decode_cipher hd (.inr rfl))

theorem runWord_alike (w : Word) {s s' : State} (h : Indist s s') :
    AlikeUpTo (SameWordOut w) (runWord w s) (runWord w s') := by
  unfold runWord
  cases hd : decode w with
  | error e => exact alike_fail h ⟨rfl, fun _ _ => rfl⟩ _
  | ok i => exact (exec_alike i h).mono (SameOut.word hd)

theorem transact_alike {s s' t t' : State} {r : Request} {a a' : Response} (harch : SameReadable s.arch s'.arch)
    (hparams : s.params = s'.params) (h : transact s r = some (t, a)) (h' : transact s' r = some (t', a')) :
    SameReadable t.arch t'.arch ∧ t.params = t'.params ∧ a.st = a'.st ∧ SameWordOut r.word a.out a'.out := by
  obtain ⟨-, hstep, hresp⟩ := transact_cases h
  obtain ⟨-, hstep', hresp'⟩ := transact_cases h'
  have halike := runWord_alike r.word (s := { s with cmd := some r, resp := none })
    (s' := { s' with cmd := some r, resp := none }) ⟨harch, hparams, rfl⟩
  rw [← step_outstanding rfl, ← step_outstanding rfl, hstep, hstep'] at halike
  cases halike with
  | next harch hparams ht ht' hout =>
    cases hresp.symm.trans ht
    cases hresp'.symm.trans ht'
    exact ⟨harch, hparams, rfl, hout⟩

theorem session_alike (rs : List Request) {s s' t t' : State} {as as' : List Response}
    (harch : SameReadable s.arch s'.arch) (hparams : s.params = s'.params) (h : session s rs = some (t, as))
    (h' : session s' rs = some (t', as')) :
    SameReadable t.arch t'.arch ∧ t.params = t'.params ∧
    as.map (fun a => (a.st, a.out.length)) = as'.map (fun a => (a.st, a.out.length)) ∧
    ∀ (j : Nat) (r : Request), rs[j]? = some r → r.word ≠ encode .enc → r.word ≠ encode .dec → as[j]? = as'[j]? := by
  induction rs generalizing s s' as as' with
  | nil =>
    cases h
    cases h'
    exact ⟨harch, hparams, rfl, fun _ _ _ _ _ => rfl⟩
  | cons r rs ih =>
    obtain ⟨u, a, bs, hfirst, hrest, rfl⟩ := session_cons.1 h
    obtain ⟨u', a', bs', hfirst', hrest', rfl⟩ := session_cons.1 h'
    obtain ⟨harch, hparams, hst, hlen, hout⟩ := transact_alike harch hparams hfirst hfirst'
    obtain ⟨harch, hparams, hmap, hresps⟩ := ih harch hparams hrest hrest'
    refine ⟨harch, hparams, by simp [hst, hlen, hmap], fun j q hq henc hdec => ?_⟩
    cases j with
    | zero =>
      cases hq
      obtain ⟨st, out⟩ := a
      obtain ⟨st', out'⟩ := a'
      cases hst
      cases hout henc hdec
      rfl
    | succ j => exact hresps j q hq henc hdec

/-! ## The statement -/

/-- Settles O34: one command by `exec_alike`, a sequence by induction on its requests. -/
theorem secretsAreNotReadable : Obligations.SecretsAreNotReadable := by
  refine ⟨fun i s s' t t' harch hparams hinp h h' => ?_, fun s s' t t' rs as as' _ _ => session_alike rs⟩
  have halike := exec_alike i ⟨harch, hparams, hinp⟩
  rw [h, h'] at halike
  cases halike with
  | next harch hparams ht ht' hout =>
    refine ⟨harch, hparams, ⟨_, _, ht, ht', rfl, hout.1⟩, fun henc hdec => ?_⟩
    rw [ht, ht', hout.2 henc hdec]

end Sys2Proof.Machine
end

section
/-!
SUPPORT. A command over MAX_XFER (spec/20_memory.md R58): only the checks on its command word stand before the length
check (spec/60_exceptions.md R254), so it ends with one of their errors or with InvalidLength.
-/

namespace Sys2Proof.Machine

/-! ## Errors of a command word -/

/-- Error `e` is due to the operand fields of `i` alone (R254); REG above 4 at `exec` as in log 8. -/
inductive WordError : Instr → Error → Prop
  | register {reg : BitVec 4} (hreg : 4 < reg.toNat) : WordError (.rdreg reg) .invalidCommand
  | order {i : Instr} {ord : BitVec 2} (hi : ordOperand? i = some ord) (hord : 1 < ord.toNat) :
      WordError i .invalidByteOrder
  | mode {mode : BitVec 3} (ord : BitVec 2) (rounds : BitVec 16) (hmode : mode = 0 ∨ mode = 4 ∨ mode = 7) :
      WordError (.init mode ord rounds) .unsupportedMode
  | rounds (mode : BitVec 3) (ord : BitVec 2) {rounds : BitVec 16} (hodd : (roundsEff rounds).toNat % 2 ≠ 0) :
      WordError (.init mode ord rounds) .invalidRounds

/-- How a command over MAX_XFER ends: never with OK, and never in the stop of a context without a mode. -/
inductive EndsOverMax (i : Instr) (s : State) : Result → Prop
  | length : EndsOverMax i s (.next (s.answeredError .invalidLength))
  | word {e : Error} (he : WordError i e) : EndsOverMax i s (.next (s.answeredError e))

/-! ## Every command over MAX_XFER -/

section commands
variable {s : State} (hlong : s.tooLong = true)
include hlong

/-- The length check decides; what follows it is never reached. -/
theorem lengthCheck_endsOverMax (i : Instr) (r : Result) :
    EndsOverMax i s (if s.tooLong then s.fail .invalidLength else r) := by
  rw [if_pos hlong]
  exact .length

theorem execInit_endsOverMax (mode : BitVec 3) (ord : BitVec 2) (rounds : BitVec 16) :
    EndsOverMax (.init mode ord rounds) s (execInit mode ord rounds s) := by
  unfold execInit
  split
  · next hord => exact .word (.order rfl (orderOf?_eq_none.1 hord))
  split
  · next hmode => exact .word (.mode ord rounds (modeOf?_eq_none.1 hmode))
  by_cases hodd : (roundsEff rounds).toNat % 2 ≠ 0
  · rw [if_pos hodd]
    exact .word (.rounds mode ord hodd)
  · rw [if_neg hodd]
    exact lengthCheck_endsOverMax hlong _ _

theorem blockCommand_endsOverMax (f : Key → Block → Nat → Order → Block) {i : Instr} {ord : BitVec 2}
    (hi : ordOperand? i = some ord) (cycles : BitVec 16) : EndsOverMax i s (blockCommand f ord cycles s) := by
  unfold blockCommand
  split
  · next hord => exact .word (.order hi (orderOf?_eq_none.1 hord))
  · exact lengthCheck_endsOverMax hlong _ _

theorem execCtrld_endsOverMax (ord : BitVec 2) : EndsOverMax (.ctrld ord) s (execCtrld ord s) := by
  unfold execCtrld
  split
  · next hord => exact .word (.order rfl (orderOf?_eq_none.1 hord))
  · exact lengthCheck_endsOverMax hlong _ _

theorem execRdreg_endsOverMax (reg : BitVec 4) : EndsOverMax (.rdreg reg) s (execRdreg reg s) := by
  unfold execRdreg
  split
  · next hreg => exact .word (.register (readReg?_eq_none.1 hreg))
  · exact lengthCheck_endsOverMax hlong _ _

theorem exec_endsOverMax (i : Instr) : EndsOverMax i s (exec i s) := by
  cases i with
  | init mode ord rounds => exact execInit_endsOverMax hlong mode ord rounds
  | benc ord cycles => exact blockCommand_endsOverMax hlong eBlk rfl cycles
  | bdec ord cycles => exact blockCommand_endsOverMax hlong dBlk rfl cycles
  | ctrld ord => exact execCtrld_endsOverMax hlong ord
  | rdreg reg => exact execRdreg_endsOverMax hlong reg
  | ldkey | ldiv | enc | dec | ctrrst | ctrnxt | cmacsk | clear => exact lengthCheck_endsOverMax hlong _ _

end commands

/-! ## The statement -/

/-- Settles O17: by the two ways a command over MAX_XFER ends, and the four errors of a command word. -/
theorem overMaxXferFails : Obligations.OverMaxXferFails := by
  intro i s m hmax hlen
  have hends := exec_endsOverMax ((tooLong_iff s).2 ⟨m, hmax, hlen⟩) i
  generalize exec i s = r at hends ⊢
  cases hends with
  | length => exact ⟨_, rfl, .inl rfl⟩
  | word he => exact ⟨_, rfl, by cases he <;> simp⟩

end Sys2Proof.Machine
end

section
/-!
SUPPORT. The decoder and the encoder against each other (spec/30_encoding.md R71 to R76, R81, R84): when a word decodes,
said once as conditions on its bits; the fields of an encoded word; and encoding as masking off the reserved bits.
-/

namespace Sys2Proof.Machine

/-! ## A field of a word, in place and as a number (R71) -/

/-- Putting a field back in its place keeps exactly its bits. -/
theorem extractLsb'_shiftLeft (w : Word) (k n : Nat) :
    (w.extractLsb' k n).setWidth 32 <<< k = w &&& (BitVec.allOnes n).setWidth 32 <<< k := by
  ext j hj
  by_cases hk : j < k
  · simp [hk]
  · simp [hk, Nat.add_sub_cancel' (Nat.not_lt.1 hk), BitVec.getLsbD_eq_getElem hj, Bool.and_comm]

theorem opcField_inPlace (w : Word) : (opcField w).setWidth 32 = w &&& 0xFF :=
  (BitVec.shiftLeft_zero _).symm.trans (extractLsb'_shiftLeft w 0 8)

theorem modeField_inPlace (w : Word) : (modeField w).setWidth 32 <<< 8 = w &&& 0x700 := extractLsb'_shiftLeft w 8 3

theorem regField_inPlace (w : Word) : (regField w).setWidth 32 <<< 8 = w &&& 0xF00 := extractLsb'_shiftLeft w 8 4

theorem ordField_inPlace (w : Word) : (ordField w).setWidth 32 <<< 12 = w &&& 0x3000 := extractLsb'_shiftLeft w 12 2

theorem cntField_inPlace (w : Word) : (cntField w).setWidth 32 <<< 16 = w &&& 0xFFFF0000 :=
  extractLsb'_shiftLeft w 16 16

theorem toNat_extractLsb' (w : Word) (k n : Nat) : (w.extractLsb' k n).toNat = w.toNat / 2 ^ k % 2 ^ n := by
  rw [BitVec.extractLsb'_toNat, Nat.shiftRight_eq_div_pow]

/-! ## Opcodes (R73) -/

theorem opcodeOf?_byte_setWidth (op : Opcode) : opcodeOf? (op.byte.setWidth 8) = some op := by cases op <;> rfl

/-- The opcode of a word is read off its low byte. -/
theorem opcodeOf?_opcField {w : Word} {op : Opcode} : opcodeOf? (opcField w) = some op ↔ w &&& 0xFF = op.byte := by
  rw [← opcField_inPlace]
  refine ⟨opcodeOf?_byte, fun h => ?_⟩
  have hopc : opcField w = op.byte.setWidth 8 := by
    rw [← h, BitVec.setWidth_setWidth_of_le _ (by decide), BitVec.setWidth_eq]
  rw [hopc, opcodeOf?_byte_setWidth]

theorem toNat_byte_of_low {w : Word} {op : Opcode} (h : w &&& 0xFF = op.byte) : op.byte.toNat = w.toNat % 256 := by
  rw [← h, BitVec.toNat_and]
  exact Nat.and_two_pow_sub_one_eq_mod w.toNat 8

/-- The assigned opcodes are 0x01 to 0x0D (R75). -/
theorem byte_assigned (op : Opcode) : 0 < op.byte.toNat ∧ op.byte.toNat < 0x0E := by cases op <;> decide

theorem format_r_iff (op : Opcode) : op.format = .r ↔ op.byte = 0x0C := by cases op <;> decide

/-- The format column of R73, by opcode numbers. -/
theorem format_of_byte (op : Opcode) :
    (op.byte.toNat ∈ [0x01, 0x02, 0x04, 0x05, 0x09, 0x0A, 0x0B, 0x0D] → op.format = .n) ∧
    (op.byte.toNat = 0x03 → op.format = .i) ∧ (op.byte.toNat ∈ [0x06, 0x07] → op.format = .b) ∧
    (op.byte.toNat = 0x08 → op.format = .c) ∧ (op.byte.toNat = 0x0C → op.format = .r) := by
  cases op <;> decide

/-! ## When a word decodes (R74) -/

/-- The three checks of R74 on a word of opcode `op`. -/
structure Decodable (op : Opcode) (w : Word) : Prop where
  low : w &&& 0xFF = op.byte
  reserved : w &&& reservedMask op.format = 0
  register : op.format = .r → (regField w).toNat ≤ lastReg

theorem decode_eq_ok_iff {w : Word} {i : Instr} : decode w = .ok i ↔ ∃ op, Decodable op w ∧ op.instr w = i := by
  unfold decode
  constructor
  · intro h
    split at h
    · cases h
    next op hop =>
      split at h
      · cases h
      next hres =>
        split at h
        · cases h
        next hreg =>
          cases h
          have hle (hr : op.format = .r) : (regField w).toNat ≤ lastReg := Nat.not_lt.1 fun hlt => hreg ⟨hr, hlt⟩
          exact ⟨op, ⟨opcodeOf?_opcField.1 hop, not_not.1 hres, hle⟩, rfl⟩
  · rintro ⟨op, ⟨hlow, hres, hreg⟩, rfl⟩
    simp only [opcodeOf?_opcField.2 hlow]
    rw [if_neg (not_not.2 hres), if_neg fun h => Nat.not_lt.2 (hreg h.1) h.2]

theorem exists_decode_iff {w : Word} : (∃ i, decode w = .ok i) ↔ ∃ op, Decodable op w := by
  simp only [decode_eq_ok_iff]
  exact ⟨fun ⟨_, op, h, _⟩ => ⟨op, h⟩, fun ⟨op, h⟩ => ⟨_, op, h, rfl⟩⟩

/-! ## The fields of an encoded word -/

/-- ORD and CNT placed above the low 12 bits are read back, and MODE is that of the low bits (formats I and B). -/
theorem fields_or_ord_cnt {x : Word} (hx : x.toNat < 2 ^ 12) (ord : BitVec 2) (cnt : BitVec 16) :
    modeField (x ||| ord.setWidth 32 <<< 12 ||| cnt.setWidth 32 <<< 16) = modeField x ∧
    ordField (x ||| ord.setWidth 32 <<< 12 ||| cnt.setWidth 32 <<< 16) = ord ∧
    cntField (x ||| ord.setWidth 32 <<< 12 ||| cnt.setWidth 32 <<< 16) = cnt := by
  have hord := ord.isLt
  have hcnt := cnt.isLt
  have h12 := toNat_or_shiftLeft ord hx (by decide)
  have h16 := toNat_or_shiftLeft cnt (x := x ||| ord.setWidth 32 <<< 12) (k := 16) (by rw [h12]; omega) (by decide)
  rw [h12] at h16
  refine ⟨BitVec.eq_of_toNat_eq ?_, BitVec.eq_of_toNat_eq ?_, BitVec.eq_of_toNat_eq ?_⟩
  · rw [modeField, modeField, toNat_extractLsb', toNat_extractLsb', h16]; omega
  · rw [ordField, toNat_extractLsb', h16]; omega
  · rw [cntField, toNat_extractLsb', h16]; omega

theorem encode_layout (i : Instr) : Laws.EncodeLayout.Statement i := by
  cases i with
  | ldkey => exact Laws.EncodeLayout.ldkey
  | ldiv => exact Laws.EncodeLayout.ldiv
  | init mode ord rounds => exact Laws.EncodeLayout.init mode ord rounds
  | enc => exact Laws.EncodeLayout.enc
  | dec => exact Laws.EncodeLayout.dec
  | benc ord cycles => exact Laws.EncodeLayout.benc ord cycles
  | bdec ord cycles => exact Laws.EncodeLayout.bdec ord cycles
  | ctrld ord => exact Laws.EncodeLayout.ctrld ord
  | ctrrst => exact Laws.EncodeLayout.ctrrst
  | ctrnxt => exact Laws.EncodeLayout.ctrnxt
  | cmacsk => exact Laws.EncodeLayout.cmacsk
  | rdreg reg => exact Laws.EncodeLayout.rdreg reg
  | clear => exact Laws.EncodeLayout.clear

/-- The operands read from the word of an instruction are the instruction's own. -/
theorem instr_encode (i : Instr) : (Laws.EncodeLayout.opcodeOf i).instr (encode i) = i := by
  cases i with
  | init mode ord rounds =>
    have hx : ∀ mode : BitVec 3, (Opcode.init.byte ||| mode.setWidth 32 <<< 8).toNat < 2 ^ 12 := by decide
    have hmode : ∀ mode : BitVec 3, modeField (Opcode.init.byte ||| mode.setWidth 32 <<< 8) = mode := by decide
    obtain ⟨hlow, hord, hrounds⟩ := fields_or_ord_cnt (hx mode) ord rounds
    exact congr (congrArg₂ Instr.init (hlow.trans (hmode mode)) hord) hrounds
  | benc ord cycles =>
    obtain ⟨-, hord, hcycles⟩ := fields_or_ord_cnt (x := Opcode.benc.byte) (by decide) ord cycles
    exact congrArg₂ Instr.benc hord hcycles
  | bdec ord cycles =>
    obtain ⟨-, hord, hcycles⟩ := fields_or_ord_cnt (x := Opcode.bdec.byte) (by decide) ord cycles
    exact congrArg₂ Instr.bdec hord hcycles
  | ctrld ord => revert ord; decide
  | rdreg reg => revert reg; decide
  | ldkey | ldiv | enc | dec | ctrrst | ctrnxt | cmacsk | clear => rfl

theorem register_of_wellFormed {i : Instr} (h : i.wellFormed = true) (hr : (Laws.EncodeLayout.opcodeOf i).format = .r) :
    (regField (encode i)).toNat ≤ lastReg := by
  cases i with
  | rdreg reg => revert reg; decide
  | _ => cases hr

/-! ## The word of decoded operands -/

/-- A word of opcode `op`, its operands read and encoded again, loses its reserved bits and nothing else. -/
theorem encode_instr {w : Word} {op : Opcode} (h : w &&& 0xFF = op.byte) :
    encode (op.instr w) = w &&& ~~~reservedMask op.format := by
  cases op with
  | init =>
    simp only [encode, Opcode.instr, ← h, modeField_inPlace, ordField_inPlace, cntField_inPlace,
      ← BitVec.and_or_distrib_left]
    rfl
  | benc | bdec =>
    simp only [encode, Opcode.instr, ← h, ordField_inPlace, cntField_inPlace, ← BitVec.and_or_distrib_left]
    rfl
  | ctrld =>
    simp only [encode, Opcode.instr, ← h, ordField_inPlace, ← BitVec.and_or_distrib_left]
    rfl
  | rdreg =>
    simp only [encode, Opcode.instr, ← h, regField_inPlace, ← BitVec.and_or_distrib_left]
    rfl
  | ldkey | ldiv | enc | dec | ctrrst | ctrnxt | cmacsk | clear => exact h.symm

theorem and_not_of_and_eq_zero {w m : Word} (h : w &&& m = 0) : w &&& ~~~m = w := calc
  w &&& ~~~m = w &&& m ||| w &&& ~~~m := by rw [h]; exact BitVec.zero_or.symm
  _ = w := by rw [← BitVec.and_or_distrib_left, BitVec.or_not_self, BitVec.and_allOnes]

theorem wellFormed_instr {w : Word} {op : Opcode} (h : Decodable op w) : (op.instr w).wellFormed = true := by
  cases op with
  | rdreg => exact decide_eq_true (h.register rfl)
  | _ => rfl

/-! ## The rows of the opcode table (R72, R73) -/

/-- The match and mask pair of an opcode: its byte in OPC, and 0 in every reserved bit of its format. -/
def tableRow (op : Opcode) : Word × Word := (op.byte, 0xFF ||| reservedMask op.format)

theorem mem_opcodeRows {r : Word × Word} : r ∈ opcodeRows ↔ ∃ op, tableRow op = r := by
  constructor
  · intro h
    have hrows : opcodeRows = [Opcode.ldkey, .ldiv, .init, .enc, .dec, .benc, .bdec, .ctrld, .ctrrst, .ctrnxt, .cmacsk,
      .rdreg, .clear].map tableRow := by decide
    rw [hrows] at h
    obtain ⟨op, -, rfl⟩ := List.mem_map.1 h
    exact ⟨op, rfl⟩
  · rintro ⟨op, rfl⟩
    cases op <;> decide

theorem tableRow_bits (op : Opcode) :
    (tableRow op).2 &&& 0xFF = 0xFF ∧ (tableRow op).2 &&& reservedMask op.format = reservedMask op.format ∧
    op.byte &&& 0xFF = op.byte ∧ op.byte &&& reservedMask op.format = 0 := by
  cases op <;> decide

theorem tableRow_matches_iff {w : Word} {op : Opcode} :
    w &&& (tableRow op).2 = (tableRow op).1 ↔ w &&& 0xFF = op.byte ∧ w &&& reservedMask op.format = 0 := by
  obtain ⟨hlow, hres, hbyte, hclear⟩ := tableRow_bits op
  constructor
  · intro h
    constructor
    · rw [← hlow, ← BitVec.and_assoc, h]
      exact hbyte
    · rw [← hres, ← BitVec.and_assoc, h]
      exact hclear
  · rintro ⟨hw, hr⟩
    rw [tableRow, BitVec.and_or_distrib_left, hw, hr]
    exact BitVec.or_zero

/-- No word matches the rows of two opcodes. -/
theorem tableRow_matches_unique {w : Word} {op op' : Opcode} (h : w &&& (tableRow op).2 = (tableRow op).1)
    (h' : w &&& (tableRow op').2 = (tableRow op').1) : op = op' :=
  Option.some.inj ((opcodeOf?_opcField.2 (tableRow_matches_iff.1 h).1).symm.trans
    (opcodeOf?_opcField.2 (tableRow_matches_iff.1 h').1))

/-- REG as the statement reads it: the low four bits above OPC. -/
theorem regField_toNat (w : Word) : (regField w).toNat = (w >>> 8).toNat % 16 := by
  rw [BitVec.toNat_ushiftRight]
  exact BitVec.extractLsb'_toNat ..

/-! ## Words that are no command -/

theorem step_of_not_decodable {s : State} {w : Word} {B : Bytes} (hc : s.cmd = some ⟨w, B⟩)
    (h : ∀ op, ¬ Decodable op w) : step s = .next (s.answeredError .invalidCommand) := by
  cases hd : decode w with
  | error e => exact step_undecoded hc hd
  | ok i =>
    obtain ⟨op, hop⟩ := exists_decode_iff.1 ⟨i, hd⟩
    exact absurd hop (h op)

/-! ## The statements -/

/-- Settles O1: the word of a well-formed instruction passes the decoder's checks, and its operands are read back. -/
theorem decodeOfEncodeGivesInstruction : Obligations.DecodeOfEncodeGivesInstruction := by
  intro i hi
  obtain ⟨hopc, hres⟩ := encode_layout i
  have hop : opcodeOf? (opcField (encode i)) = some (Laws.EncodeLayout.opcodeOf i) := by
    rw [hopc, opcodeOf?_byte_setWidth]
  exact decode_eq_ok_iff.2 ⟨_, ⟨opcodeOf?_opcField.1 hop, hres, register_of_wellFormed hi⟩, instr_encode i⟩

/-- Settles O2: encoding what was decoded masks off the reserved bits, and these are 0. -/
theorem encodeOfDecodeGivesWord : Obligations.EncodeOfDecodeGivesWord := by
  intro w i hd
  obtain ⟨op, hop, rfl⟩ := decode_eq_ok_iff.1 hd
  exact ⟨wellFormed_instr hop, by rw [encode_instr hop.low, and_not_of_and_eq_zero hop.reserved]⟩

/-- Settles O3: a row matches exactly when the checks of its opcode and reserved bits pass; the rows are pairwise
different, so a word's opcode tells them apart. -/
theorem decodesExactlyTheTableWords : Obligations.DecodesExactlyTheTableWords := by
  constructor
  · intro w
    rw [exists_decode_iff]
    constructor
    · rintro ⟨op, hlow, hres, hreg⟩
      refine ⟨⟨tableRow op, mem_opcodeRows.2 ⟨op, rfl⟩, tableRow_matches_iff.2 ⟨hlow, hres⟩⟩, fun hr => ?_⟩
      rw [← regField_toNat]
      exact hreg ((format_r_iff op).2 (hlow.symm.trans hr))
    · rintro ⟨⟨r, hmem, hmatch⟩, hreg⟩
      obtain ⟨op, rfl⟩ := mem_opcodeRows.1 hmem
      obtain ⟨hlow, hres⟩ := tableRow_matches_iff.1 hmatch
      refine ⟨op, hlow, hres, fun hr => ?_⟩
      rw [regField_toNat]
      exact hreg (hlow.trans ((format_r_iff op).1 hr))
  · have hdistinct : opcodeRows.Pairwise (· ≠ ·) := by decide
    refine hdistinct.imp_of_mem fun ha hb hne w => ?_
    rintro ⟨hma, hmb⟩
    obtain ⟨op, rfl⟩ := mem_opcodeRows.1 ha
    obtain ⟨op', rfl⟩ := mem_opcodeRows.1 hb
    exact hne (congrArg tableRow (tableRow_matches_unique hma hmb))

/-- Settles O5: every assigned opcode is 0x01 to 0x0D. -/
theorem unassignedOpcodeFails : Obligations.UnassignedOpcodeFails := by
  intro s w B hc hopc
  refine step_of_not_decodable hc fun op hop => ?_
  have hlow := toNat_byte_of_low hop.low
  have hassigned := byte_assigned op
  omega

/-- Settles O6: the opcode number gives the format, whose reserved bits a decodable word has at 0. -/
theorem reservedBitsFail : Obligations.ReservedBitsFail := by
  intro s w B hc h
  refine step_of_not_decodable hc fun op ⟨hlow, hres, _⟩ => ?_
  rw [← toNat_byte_of_low hlow] at h
  obtain ⟨hn, hi, hb, hctr, hr⟩ := format_of_byte op
  have hclear {f : Format} (hf : op.format = f) : w &&& reservedMask f = 0 := hf ▸ hres
  rcases h with ⟨hopc, hset⟩ | ⟨hopc, hset⟩ | ⟨hopc, hset⟩ | ⟨hopc, hset⟩ | ⟨hopc, hset⟩
  · exact hset (hclear (hn hopc))
  · exact hset (hclear (hi hopc))
  · exact hset (hclear (hb hopc))
  · exact hset (hclear (hctr hopc))
  · exact hset (hclear (hr hopc))

/-- Settles O4: the decoder evaluated on the nine words. -/
theorem sampleWordsDecode : Obligations.SampleWordsDecode := by
  unfold Obligations.SampleWordsDecode
  decide

/-- Settles O7: the assembler evaluated on the five lines. -/
theorem pseudoCommandsExpand : Obligations.PseudoCommandsExpand :=
  ⟨by decide, by decide, by decide, by decide, by decide⟩

end Sys2Proof.Machine
end

section
/-!
SUPPORT. The byte-order codec (spec/40_codec.md R100 to R106): big-endian as little-endian of the reversed string, the
bytes of an integer and the integer of a byte string, one undoing the other, and the words of a key or block.
-/

namespace Sys2Proof.Machine

/-! ## The bytes of an integer (R100) -/

theorem byteOf_toNat (n k : Nat) : (byteOf n k).toNat = n / 2 ^ (8 * k) % 256 := by
  rw [byteOf, BitVec.toNat_ofNat, Nat.shiftRight_eq_div_pow]

theorem toBytes_big_getElem? {n L i : Nat} (h : i < L) :
    (toBytes n L .big).toList[i]? = some (byteOf n (L - 1 - i)) := by
  simp [toBytes, h]

theorem toBytes_little_getElem? {n L i : Nat} (h : i < L) : (toBytes n L .little).toList[i]? = some (byteOf n i) := by
  simp [toBytes, h]

/-- The two orders are the reverse of each other (R103). -/
theorem reverse_toBytes_big (n L : Nat) : (toBytes n L .big).toList.reverse = (toBytes n L .little).toList := by
  refine List.ext_getElem? fun i => ?_
  by_cases hi : i < L
  · rw [List.getElem?_reverse (by simpa using hi), length_toList, toBytes_big_getElem? (by omega),
      toBytes_little_getElem? hi, show L - 1 - (L - 1 - i) = i by omega]
  · rw [List.getElem?_eq_none (by simpa using hi), List.getElem?_eq_none (by simpa using hi)]

/-- The byte of weight 0 comes first, and after it the bytes of the rest of the integer. -/
theorem toBytes_little_succ (n L : Nat) :
    (toBytes n (L + 1) .little).toList = BitVec.ofNat 8 n :: (toBytes (n / 256) L .little).toList := by
  have hnext (i : Nat) : byteOf n (i + 1) = byteOf (n / 256) i := by
    rw [byteOf, byteOf, Nat.mul_succ, Nat.add_comm, Nat.shiftRight_add, Nat.shiftRight_eq_div_pow n 8]
  simp only [toBytes, List.range_succ_eq_map, List.map_cons, List.map_map]
  exact congrArg₂ List.cons rfl (List.map_congr_left fun i _ => hnext i)

/-! ## The integer of a byte string (R101) -/

theorem fromBytes_little_cons (b : Byte) (B : Bytes) :
    fromBytes (b :: B) .little = 256 * fromBytes B .little + b.toNat := rfl

theorem fromBytes_reverse_little (B : Bytes) : fromBytes B.reverse .little = fromBytes B .big := List.foldr_reverse

/-- The library's digits in base 256, least significant first. -/
theorem fromBytes_little_eq_ofDigits (B : Bytes) : fromBytes B .little = Nat.ofDigits 256 (B.map BitVec.toNat) := by
  induction B with
  | nil => rfl
  | cons b B ih => rw [fromBytes_little_cons, ih, List.map_cons, Nat.ofDigits_cons, Nat.add_comm]

theorem fromBytes_big_cons (b : Byte) (B : Bytes) :
    fromBytes (b :: B) .big = b.toNat * 2 ^ (8 * B.length) + fromBytes B .big := by
  simp only [← fromBytes_reverse_little, fromBytes_little_eq_ofDigits, List.map_reverse, List.map_cons,
    Nat.ofDigits_reverse_cons, List.length_map, pow_mul]
  rw [Nat.add_comm, Nat.mul_comm]
  rfl

theorem fromBytes_lt (B : Bytes) (o : Order) : fromBytes B o < 2 ^ (8 * B.length) := by
  have hlittle (B : Bytes) : fromBytes B .little < 2 ^ (8 * B.length) := by
    have hdigit : ∀ d ∈ B.map BitVec.toNat, d < 256 := List.forall_mem_map.2 fun b _ => b.isLt
    rw [fromBytes_little_eq_ofDigits, pow_mul, ← List.length_map BitVec.toNat]
    exact Nat.ofDigits_lt_base_pow_length (by decide) hdigit
  cases o with
  | little => exact hlittle B
  | big => simpa [fromBytes_reverse_little] using hlittle B.reverse

theorem fromBytes_little_eq_sum (B : Bytes) :
    fromBytes B .little = ((List.range B.length).map fun i => (B.getD i 0).toNat * 2 ^ (8 * i)).sum := by
  induction B with
  | nil => rfl
  | cons b B ih =>
    have hweight (i : Nat) : (B.getD i 0).toNat * 2 ^ (8 * (i + 1)) = 256 * ((B.getD i 0).toNat * 2 ^ (8 * i)) := by
      ring
    simp only [fromBytes_little_cons, ih, List.length_cons, List.range_succ_eq_map, List.map_cons, List.map_map,
      List.sum_cons, Function.comp_def, List.getD_cons_zero, List.getD_cons_succ, hweight, List.sum_map_mul_left]
    omega

theorem fromBytes_big_eq_sum (B : Bytes) :
    fromBytes B .big = ((List.range B.length).map fun i => (B.getD i 0).toNat * 2 ^ (8 * (B.length - 1 - i))).sum := by
  induction B with
  | nil => rfl
  | cons b B ih =>
    have hweight (i : Nat) : B.length + 1 - 1 - (i + 1) = B.length - 1 - i := by omega
    simp only [fromBytes_big_cons, ih, List.length_cons, List.range_succ_eq_map, List.map_cons, List.map_map,
      List.sum_cons, Function.comp_def, List.getD_cons_zero, List.getD_cons_succ, hweight]
    rfl

/-! ## The round trips (R103) -/

theorem fromBytes_toBytes (n L : Nat) (o : Order) : fromBytes (toBytes n L o).toList o = n % 2 ^ (8 * L) := by
  have hlittle : fromBytes (toBytes n L .little).toList .little = n % 2 ^ (8 * L) := by
    induction L generalizing n with
    | zero => exact (Nat.mod_one n).symm
    | succ L ih =>
      rw [toBytes_little_succ, fromBytes_little_cons, ih, BitVec.toNat_ofNat, Nat.mul_succ, Nat.add_comm (8 * L),
        pow_add, Nat.mod_mul, Nat.add_comm]
      rfl
  cases o with
  | little => exact hlittle
  | big => rwa [← fromBytes_reverse_little, reverse_toBytes_big]

theorem fromBytes_toBytes_of_lt {n L : Nat} (h : n < 2 ^ (8 * L)) (o : Order) :
    fromBytes (toBytes n L o).toList o = n := by
  rw [fromBytes_toBytes, Nat.mod_eq_of_lt h]

theorem toBytes_fromBytes_toList {L : Nat} {B : Bytes} (h : B.length = L) (o : Order) :
    (toBytes (fromBytes B o) L o).toList = B := by
  have hlittle (B : Bytes) : (toBytes (fromBytes B .little) B.length .little).toList = B := by
    induction B with
    | nil => rfl
    | cons b B ih =>
      have hb := b.isLt
      have hhead : BitVec.ofNat 8 (256 * fromBytes B .little + b.toNat) = b :=
        BitVec.eq_of_toNat_eq (by rw [BitVec.toNat_ofNat]; omega)
      have htail : (256 * fromBytes B .little + b.toNat) / 256 = fromBytes B .little := by omega
      rw [List.length_cons, toBytes_little_succ, fromBytes_little_cons, hhead, htail, ih]
  subst h
  cases o with
  | little => exact hlittle B
  | big =>
    rw [← List.reverse_inj, reverse_toBytes_big, ← fromBytes_reverse_little, ← List.length_reverse (as := B)]
    exact hlittle B.reverse

/-! ## The words of a key or block (R104 to R106) -/

theorem length_sub {B : Bytes} {i j : Nat} (h : j ≤ B.length) : (sub B i j).length = j - i := by
  simp only [sub, List.length_take, List.length_drop]
  omega

/-- Four bytes fill a word. -/
theorem wordOf_toNat {B : Bytes} (h : B.length = 4) (o : Order) : (wordOf B o).toNat = fromBytes B o := by
  have hlt := fromBytes_lt B o
  rw [h] at hlt
  rw [wordOf, BitVec.toNat_ofNat, Nat.mod_eq_of_lt hlt]

theorem toBytes_wordOf_toList {B : Bytes} (h : B.length = 4) (o : Order) :
    (toBytes (wordOf B o).toNat 4 o).toList = B := by
  rw [wordOf_toNat h, toBytes_fromBytes_toList h]

theorem wordOf_toBytes (w : Word) (o : Order) : wordOf (toBytes w.toNat 4 o).toList o = w := by
  rw [wordOf, fromBytes_toBytes_of_lt w.isLt, BitVec.ofNat_toNat, BitVec.setWidth_eq]

/-- A block is its two groups of four bytes. -/
theorem sub_append_sub (BB : Block) : sub BB.toList 0 4 ++ sub BB.toList 4 8 = BB.toList := by
  have hrest : sub BB.toList 4 8 = BB.toList.drop 4 := List.take_of_length_le (by simp)
  rw [hrest]
  exact List.take_append_drop 4 BB.toList

theorem sub_append_left (A B : ByteVec 4) : sub (append A B).toList 0 4 = A.toList :=
  List.take_left' A.len

theorem sub_append_right (A B : ByteVec 4) : sub (append A B).toList 4 8 = B.toList := by
  rw [sub, append_toList, List.drop_left' A.len]
  exact List.take_of_length_le B.len.le

theorem blockBytes_toList (v : Word × Word) (o : Order) :
    (blockBytes v o).toList = (toBytes v.1.toNat 4 o).toList ++ (toBytes v.2.toNat 4 o).toList := append_toList ..

theorem blockBytes_blockWords (BB : Block) (o : Order) : blockBytes (blockWords BB o) o = BB := by
  ext1
  rw [blockBytes_toList, blockWords, toBytes_wordOf_toList (length_sub (by simp)),
    toBytes_wordOf_toList (length_sub (by simp)), sub_append_sub]

theorem blockWords_blockBytes (v : Word × Word) (o : Order) : blockWords (blockBytes v o) o = v := by
  rw [blockWords, blockBytes, sub_append_left, sub_append_right, wordOf_toBytes, wordOf_toBytes]

/-! ## The statements -/

/-- Settles O18: byte i holds the digit of its weight. -/
theorem toBytesGivesDigits : Obligations.ToBytesGivesDigits := by
  refine ⟨fun n L i hi => ⟨?_, ?_⟩, by decide, by decide⟩
  · rw [toBytes_big_getElem? hi, Option.map_some, byteOf_toNat]
  · rw [toBytes_little_getElem? hi, Option.map_some, byteOf_toNat]

/-- Settles O19: both sums by induction on the string, the bound by that of digits in base 256. -/
theorem fromBytesIsPositionalSum : Obligations.FromBytesIsPositionalSum :=
  ⟨fun B => ⟨fromBytes_big_eq_sum B, fromBytes_little_eq_sum B, fromBytes_lt B⟩, by decide⟩

/-- Settles O20: little-endian by induction on the length, big-endian by reversal. -/
theorem codecRoundTrips : Obligations.CodecRoundTrips :=
  ⟨fun _ _ o h => fromBytes_toBytes_of_lt h o, fun _ B o => ByteVec.ext (toBytes_fromBytes_toList B.len o),
    fun n L => (reverse_toBytes_big n L).symm⟩

/-- Settles O21: a word holds its four bytes whole, so the codec's round trips carry over to keys and blocks. -/
theorem blockWordsRoundTrip : Obligations.BlockWordsRoundTrip := by
  have hword {n : Nat} (V : ByteVec n) (o : Order) {i j : Nat} (hj : j ≤ n) (hij : j - i = 4) :
      (wordOf (sub V.toList i j) o).toNat = fromBytes (sub V.toList i j) o :=
    wordOf_toNat (by rw [length_sub (by simpa using hj), hij]) o
  refine ⟨fun KB o => ?_, fun BB o => ?_, blockBytes_toList, blockBytes_blockWords, blockWords_blockBytes⟩
  · exact ⟨hword KB o (by decide) rfl, hword KB o (by decide) rfl, hword KB o (by decide) rfl,
      hword KB o (by decide) rfl⟩
  · exact ⟨hword BB o (by decide) rfl, hword BB o (by decide) rfl⟩

end Sys2Proof.Machine
end

section
/-!
SUPPORT. The round function (spec/41_round_function.md R120 to R128): its cycles undo each other and move the sum by delta,
its loops give what the rules' loops over the integers give, and what BENC and BDEC answer.
-/

namespace Sys2Proof.Machine

/-! ## Cycles (R121, R122) -/

theorem repeatCycle_eq_iterate (f : Work → Work) (n : Nat) : repeatCycle f n = f^[n] := by
  induction n with
  | zero => rfl
  | succ n ih => exact congrArg (· ∘ f) ih

theorem decCycle_encCycle (K : KeyWords) : Function.LeftInverse (decCycle K) (encCycle K) := fun w => by
  simp only [encCycle, decCycle, BitVec.add_sub_cancel]

theorem encCycle_decCycle (K : KeyWords) : Function.LeftInverse (encCycle K) (decCycle K) := fun w => by
  simp only [encCycle, decCycle, BitVec.sub_add_cancel]

theorem encCycle_sum (K : KeyWords) (w : Work) : (encCycle K w).sum = w.sum + delta := rfl

theorem decCycle_sum (K : KeyWords) (w : Work) : (decCycle K w).sum = w.sum - delta := rfl

/-- The sum after `n` cycles as the rules write it (R122, R124). -/
theorem ofNat_delta_mul (n : Nat) : BitVec.ofNat 32 (0x9E3779B9 * n) = delta * BitVec.ofNat 32 n := BitVec.ofNat_mul ..

theorem delta_mul_succ (n : Nat) : delta * BitVec.ofNat 32 (n + 1) = delta + delta * BitVec.ofNat 32 n := by
  rw [BitVec.ofNat_add, BitVec.mul_add, BitVec.mul_one, BitVec.add_comm]

theorem repeat_encCycle_sum (K : KeyWords) (n : Nat) (w : Work) :
    (repeatCycle (encCycle K) n w).sum = w.sum + delta * BitVec.ofNat 32 n := by
  induction n generalizing w with
  | zero => exact (BitVec.add_zero _).symm
  | succ n ih => rw [repeatCycle, ih, encCycle_sum, delta_mul_succ, BitVec.add_assoc]

theorem repeat_decCycle_sum (K : KeyWords) (n : Nat) (w : Work) :
    (repeatCycle (decCycle K) n w).sum = w.sum - delta * BitVec.ofNat 32 n := by
  induction n generalizing w with
  | zero => exact (BitVec.sub_zero _).symm
  | succ n ih => rw [repeatCycle, ih, decCycle_sum, delta_mul_succ, sub_sub]

/-- Encryption ends with the sum that decryption starts from. -/
theorem repeat_encCycle_eq (K : KeyWords) (v : Word × Word) (n : Nat) :
    repeatCycle (encCycle K) n ⟨v.1, v.2, 0⟩ =
      ⟨(xteaEnc K v n).1, (xteaEnc K v n).2, delta * BitVec.ofNat 32 n⟩ :=
  congrArg (Work.mk _ _) ((repeat_encCycle_sum K n _).trans (BitVec.zero_add _))

/-- Decryption ends with the sum that encryption starts from. -/
theorem repeat_decCycle_eq (K : KeyWords) (v : Word × Word) (n : Nat) :
    repeatCycle (decCycle K) n ⟨v.1, v.2, delta * BitVec.ofNat 32 n⟩ = ⟨(xteaDec K v n).1, (xteaDec K v n).2, 0⟩ :=
  congrArg (Work.mk _ _) ((repeat_decCycle_sum K n _).trans (BitVec.sub_self _))

/-! ## Encryption and decryption undo each other (R123) -/

theorem xteaDec_xteaEnc (K : KeyWords) (v : Word × Word) (n : Nat) : xteaDec K (xteaEnc K v n) n = v := by
  rw [xteaDec, ← repeat_encCycle_eq, repeatCycle_eq_iterate, repeatCycle_eq_iterate, (decCycle_encCycle K).iterate n]

theorem xteaEnc_xteaDec (K : KeyWords) (v : Word × Word) (n : Nat) : xteaEnc K (xteaDec K v n) n = v := by
  rw [xteaEnc, ← repeat_decCycle_eq, repeatCycle_eq_iterate, repeatCycle_eq_iterate, (encCycle_decCycle K).iterate n]

theorem dBlk_eBlk (KB : Key) (BB : Block) (n : Nat) (o : Order) : dBlk KB (eBlk KB BB n o) n o = BB := by
  rw [dBlk, eBlk, blockWords_blockBytes, xteaDec_xteaEnc, blockBytes_blockWords]

theorem eBlk_dBlk (KB : Key) (BB : Block) (n : Nat) (o : Order) : eBlk KB (dBlk KB BB n o) n o = BB := by
  rw [eBlk, dBlk, blockWords_blockBytes, xteaEnc_xteaDec, blockBytes_blockWords]

/-! ## The loops over the integers (R121, R122) -/

/-- The key words as `encLoop` and `decLoop` take them. -/
def KeyWords.toNats (K : KeyWords) : List Nat := [K.k0.toNat, K.k1.toNat, K.k2.toNat, K.k3.toNat]

/-- The working values as `encLoop` and `decLoop` take them. -/
def Work.toNats (w : Work) : Nat × Nat × Nat := (w.v0.toNat, w.v1.toNat, w.sum.toNat)

/-- What a half-step of `encLoop` adds and one of `decLoop` subtracts, before the result is reduced. -/
def halfStepNat (K : List Nat) (v sum i : Nat) : Nat := (((v <<< 4) ^^^ (v >>> 5)) + v) ^^^ (sum + K.getD i 0)

/-- An index masked to two bits picks the same key word on both sides. -/
theorem KeyWords.toNats_getD (K : KeyWords) (x : Word) : K.toNats.getD (x.toNat &&& 3) 0 = (K.at (x &&& 3)).toNat := by
  have hindex : (x &&& 3).toNat = x.toNat &&& 3 := BitVec.toNat_and ..
  have hlt : x.toNat &&& 3 < 4 := Nat.and_lt_two_pow _ (n := 2) (by decide)
  rw [KeyWords.at, hindex]
  generalize x.toNat &&& 3 = k at hlt
  interval_cases k <;> rfl

theorem ofNat_mix (v : Word) : BitVec.ofNat 32 (((v.toNat <<< 4) ^^^ (v.toNat >>> 5)) + v.toNat) = mix v := by
  have hleft : BitVec.ofNat 32 (v.toNat <<< 4) = v <<< 4 := (BitVec.shiftLeft_eq v 4).symm
  have hright : BitVec.ofNat 32 (v.toNat >>> 5) = v >>> 5 := BitVec.eq_of_toNat_eq (by simp; omega)
  rw [mix, BitVec.ofNat_add, BitVec.ofNat_xor, hleft, hright, BitVec.ofNat_toNat, BitVec.setWidth_eq]

/-- Reducing a half-step's term once at its end gives the word whose every inner sum is reduced (R121). -/
theorem ofNat_halfStepNat (K : KeyWords) (v sum x : Word) :
    BitVec.ofNat 32 (halfStepNat K.toNats v.toNat sum.toNat (x.toNat &&& 3)) = mix v ^^^ (sum + K.at (x &&& 3)) := by
  rw [halfStepNat, K.toNats_getD, BitVec.ofNat_xor, ofNat_mix, BitVec.ofNat_add, BitVec.ofNat_toNat, BitVec.ofNat_toNat,
    BitVec.setWidth_eq, BitVec.setWidth_eq]

theorem add_toNat_mod (u : Word) (a : Nat) : (u.toNat + a) % 2 ^ 32 = (u + BitVec.ofNat 32 a).toNat := by
  rw [BitVec.toNat_add, BitVec.toNat_ofNat, Nat.add_mod_mod]

theorem sub_toNat_emod (u : Word) (a : Nat) : (((u.toNat : Int) - a) % 2 ^ 32).toNat = (u - BitVec.ofNat 32 a).toNat := by
  rw [BitVec.toNat_sub, BitVec.toNat_ofNat]
  omega

theorem add_halfStepNat (K : KeyWords) (u v sum x : Word) :
    (u.toNat + halfStepNat K.toNats v.toNat sum.toNat (x.toNat &&& 3)) % 2 ^ 32 =
      (u + (mix v ^^^ (sum + K.at (x &&& 3)))).toNat := by
  rw [add_toNat_mod, ofNat_halfStepNat]

theorem sub_halfStepNat (K : KeyWords) (u v sum x : Word) :
    (((u.toNat : Int) - (halfStepNat K.toNats v.toNat sum.toNat (x.toNat &&& 3) : Nat)) % 2 ^ 32).toNat =
      (u - (mix v ^^^ (sum + K.at (x &&& 3)))).toNat := by
  rw [sub_toNat_emod, ofNat_halfStepNat]

/-- A pass of the loop of R121 is one cycle of the model. -/
theorem encLoop_succ (K : KeyWords) (n : Nat) (w : Work) :
    encLoop K.toNats (n + 1) w.toNats = encLoop K.toNats n (encCycle K w).toNats := by
  have hv0 := add_halfStepNat K w.v0 w.v1 w.sum w.sum
  have hsum : (w.sum.toNat + 0x9E3779B9) % 2 ^ 32 = (w.sum + delta).toNat := add_toNat_mod w.sum 0x9E3779B9
  have hv1 := add_halfStepNat K w.v1 (encCycle K w).v0 (w.sum + delta) ((w.sum + delta) >>> 11)
  rw [halfStepNat] at hv0 hv1
  rw [BitVec.toNat_ushiftRight] at hv1
  simp only [Work.toNats, encLoop, encCycle, keyTerm0, keyTerm1, hv0, hsum] at hv1 ⊢
  rw [hv1]

/-- A pass of the loop of R122 is one cycle of the model. -/
theorem decLoop_succ (K : KeyWords) (n : Nat) (w : Work) :
    decLoop K.toNats (n + 1) w.toNats = decLoop K.toNats n (decCycle K w).toNats := by
  have hv1 := sub_halfStepNat K w.v1 w.v0 w.sum (w.sum >>> 11)
  have hsum : (((w.sum.toNat : Int) - 0x9E3779B9) % 2 ^ 32).toNat = (w.sum - delta).toNat :=
    sub_toNat_emod w.sum 0x9E3779B9
  have hv0 := sub_halfStepNat K w.v0 (decCycle K w).v1 (w.sum - delta) (w.sum - delta)
  rw [halfStepNat] at hv1 hv0
  rw [BitVec.toNat_ushiftRight] at hv1
  simp only [Work.toNats, decLoop, decCycle, keyTerm0, keyTerm1, hv1, hsum] at hv0 ⊢
  rw [hv0]

theorem encLoop_eq_repeat (K : KeyWords) (n : Nat) (w : Work) :
    encLoop K.toNats n w.toNats =
      ((repeatCycle (encCycle K) n w).v0.toNat, (repeatCycle (encCycle K) n w).v1.toNat) := by
  induction n generalizing w with
  | zero => rfl
  | succ n ih => rw [encLoop_succ, ih, repeatCycle]

theorem decLoop_eq_repeat (K : KeyWords) (n : Nat) (w : Work) :
    decLoop K.toNats n w.toNats =
      (((repeatCycle (decCycle K) n w).v0.toNat : Int), ((repeatCycle (decCycle K) n w).v1.toNat : Int)) := by
  induction n generalizing w with
  | zero => rfl
  | succ n ih => rw [decLoop_succ, ih, repeatCycle]

/-! ## BENC and BDEC (R126, R127) -/

theorem exists_orderOf? {ord : BitVec 2} (h : ord.toNat ≤ 1) : ∃ o, orderOf? ord = some o :=
  Option.ne_none_iff_exists'.1 fun hnone => Nat.not_lt.2 h (orderOf?_eq_none.1 hnone)

section blockCommand

variable (f : Key → Block → Nat → Order → Block) {ord : BitVec 2} (cycles : BitVec 16) {s : State}

theorem blockCommand_of_noOrder (hord : 1 < ord.toNat) :
    blockCommand f ord cycles s = .next (s.answeredError .invalidByteOrder) := by
  rw [blockCommand, orderOf?_eq_none.2 hord]
  rfl

theorem blockCommand_of_badLength (hord : ord.toNat ≤ 1) (hlen : overMax s ∨ s.inp.length ≠ 24) :
    blockCommand f ord cycles s = .next (s.answeredError .invalidLength) := by
  obtain ⟨o, ho⟩ := exists_orderOf? hord
  simp only [blockCommand, ho]
  by_cases hmax : overMax s
  · rw [if_pos ((tooLong_iff s).2 hmax)]
    rfl
  · rw [if_neg fun h => hmax ((tooLong_iff s).1 h), keyAndBlock?_eq_none.2 (hlen.resolve_left hmax)]
    rfl

theorem blockCommand_of_operands {o : Order} (hord : orderOf? ord = some o) {KB : Key} {BB : Block} (hfits : Fits s)
    (hinp : s.inp = KB.toList ++ BB.toList) :
    blockCommand f ord cycles s = .next (s.answered s.arch .ok (f KB BB cycles.toNat o).toList) := by
  simp only [blockCommand, hord, (not_tooLong_iff s).2 hfits, hinp, keyAndBlock?_append]
  rfl

end blockCommand

/-- The three clauses of R126 and R127, exclusive of each other, for a block command. -/
theorem blockCommand_answers (f : Key → Block → Nat → Order → Block) (s : State) (ord : BitVec 2) (cycles : BitVec 16) :
    (1 < ord.toNat → blockCommand f ord cycles s = .next (s.answeredError .invalidByteOrder)) ∧
    (ord.toNat ≤ 1 → overMax s ∨ s.inp.length ≠ 24 →
      blockCommand f ord cycles s = .next (s.answeredError .invalidLength)) ∧
    (∀ (KB : Key) (BB : Block) (o : Order), Fits s → s.inp = KB.toList ++ BB.toList →
      (ord = 0 ∧ o = .big ∨ ord = 1 ∧ o = .little) →
      blockCommand f ord cycles s = .next (s.answered s.arch .ok (f KB BB cycles.toNat o).toList)) :=
  ⟨blockCommand_of_noOrder f cycles, blockCommand_of_badLength f cycles,
    fun _ _ _ hfits hinp hord => blockCommand_of_operands f cycles (orderOf?_eq_some.2 hord) hfits hinp⟩

/-- A block command `i` issued on an idle core that takes 24 bytes. -/
theorem transact_block {i : Instr} {f : Key → Block → Nat → Order → Block} {ord : BitVec 2} {cycles : BitVec 16}
    (hi : exec i = blockCommand f ord cycles) (hwf : i.wellFormed = true) {o : Order} (hord : orderOf? ord = some o)
    {s : State} (hidle : s.cmd = none) (hmax : ∀ m, s.params.maxXfer = some m → 24 ≤ m) (KB : Key) (BB : Block) :
    transact s ⟨encode i, KB.toList ++ BB.toList⟩ =
      some (s.answered s.arch .ok (f KB BB cycles.toNat o).toList, ⟨.ok, (f KB BB cycles.toNat o).toList⟩) := by
  refine transact_decoded hidle (decodeOfEncodeGivesInstruction i hwf) ?_
  rw [hi]
  refine blockCommand_of_operands f cycles hord (fun m hm => ?_) rfl
  simpa [State.inp] using hmax m hm

/-- Two block commands in turn, where the second's block function undoes the first's. -/
theorem transact_block_block {i j : Instr} {f g : Key → Block → Nat → Order → Block} {ord : BitVec 2} {cycles : BitVec 16}
    (hi : exec i = blockCommand f ord cycles) (hiwf : i.wellFormed = true)
    (hj : exec j = blockCommand g ord cycles) (hjwf : j.wellFormed = true)
    (hundo : ∀ KB BB n o, g KB (f KB BB n o) n o = BB) (hord : ord.toNat ≤ 1)
    {s : State} (hidle : s.cmd = none) (hmax : ∀ m, s.params.maxXfer = some m → 24 ≤ m) (KB : Key) (BB : Block) :
    ∃ t u C, transact s ⟨encode i, KB.toList ++ BB.toList⟩ = some (t, ⟨.ok, C⟩) ∧
      transact t ⟨encode j, KB.toList ++ C⟩ = some (u, ⟨.ok, BB.toList⟩) := by
  obtain ⟨o, ho⟩ := exists_orderOf? hord
  have hback := transact_block hj hjwf ho (s := s.answered s.arch .ok (f KB BB cycles.toNat o).toList) rfl hmax KB
    (f KB BB cycles.toNat o)
  rw [hundo] at hback
  exact ⟨_, _, _, transact_block hi hiwf ho hidle hmax KB BB, hback⟩

/-! ## The statements -/

/-- Settles O23: each pass of the integer loop is one cycle on words, because a half-step's term may be reduced once at
its end; the loops then agree by induction on the cycle count. -/
theorem xteaFollowsIntegerLoops : Obligations.XteaFollowsIntegerLoops := by
  intro K v n
  have hstart : 0x9E3779B9 * n % 2 ^ 32 = (delta * BitVec.ofNat 32 n).toNat := by
    rw [← ofNat_delta_mul, BitVec.toNat_ofNat]
  rw [hstart]
  exact ⟨(encLoop_eq_repeat K n ⟨v.1, v.2, 0⟩).symm, (decLoop_eq_repeat K n ⟨v.1, v.2, delta * BitVec.ofNat 32 n⟩).symm⟩

/-- Settles O24: every decryption cycle undoes an encryption cycle and the other way round, and each loop ends at the sum
the other starts from; the block functions follow by the codec's round trips. -/
theorem xteaDecryptInvertsEncrypt : Obligations.XteaDecryptInvertsEncrypt :=
  ⟨fun K n => ⟨(xteaDec_xteaEnc K · n), (xteaEnc_xteaDec K · n),
      Function.bijective_iff_has_inverse.2 ⟨(xteaDec K · n), (xteaDec_xteaEnc K · n), (xteaEnc_xteaDec K · n)⟩⟩,
    fun KB BB n o => ⟨dBlk_eBlk KB BB n o, eBlk_dBlk KB BB n o⟩⟩

/-- Settles O25: (a) to (c) evaluate; in (d) every cycle moves the sum by delta. -/
theorem roundCornerCases : Obligations.RoundCornerCases := by
  refine ⟨fun _ _ => ⟨rfl, rfl⟩, by decide, fun K => ⟨BitVec.zero_add _, rfl⟩, fun K v0 v1 n => ?_⟩
  rw [ofNat_delta_mul]
  exact ⟨(repeat_encCycle_sum K n _).trans (BitVec.zero_add _), (repeat_decCycle_sum K n _).trans (BitVec.sub_self _)⟩

/-- Settles O28: the second command runs on the core the first left idle, and its block function undoes the first's. -/
theorem bencAndBdecUndoEachOther : Obligations.BencAndBdecUndoEachOther := by
  intro s KB BB ord cycles hidle hmax hord
  exact ⟨transact_block_block (f := eBlk) (g := dBlk) rfl rfl rfl rfl dBlk_eBlk hord hidle hmax KB BB,
    transact_block_block (f := dBlk) (g := eBlk) rfl rfl rfl rfl eBlk_dBlk hord hidle hmax KB BB⟩

/-- Settles O26: the clauses of a block command, for E_blk. -/
theorem bencAnswers : Obligations.BencAnswers :=
  ⟨fun _ _ _ _ => rfl, blockCommand_answers eBlk⟩

/-- Settles O27: the clauses of a block command, for D_blk. -/
theorem bdecAnswers : Obligations.BdecAnswers :=
  ⟨fun _ _ _ _ => rfl, blockCommand_answers dBlk⟩

end Sys2Proof.Machine
end

section
/-!
SUPPORT. Context construction (spec/42_context.md R140 to R144): the commands that take an input of one length, for LDKEY and
LDIV, and the answer of INIT at each check of R254 it reaches.
-/

namespace Sys2Proof.Machine

/-! ## An input of one length (R58, R82) -/

/-- A command that takes exactly `n` bytes: the MAX_XFER check, the length check with its error `e`, then `r` on the bytes. -/
def exactInput {n : Nat} (e : Error) (s : State) (r : ByteVec n → Result) : Result :=
  if s.tooLong then s.fail .invalidLength
  else match ofBytes? n s.inp with
    | none => s.fail e
    | some V => r V

section exactInput

variable {n : Nat} {e : Error} {s : State} {r : ByteVec n → Result}

theorem exactInput_of_overMax (hmax : overMax s) : exactInput e s r = .next (s.answeredError .invalidLength) :=
  if_pos ((tooLong_iff s).2 hmax)

theorem exactInput_of_wrongLength (hfits : Fits s) (hlen : s.inp.length ≠ n) :
    exactInput e s r = .next (s.answeredError e) := by
  simp [exactInput, (not_tooLong_iff s).2 hfits, ofBytes?_eq_none.2 hlen, fail_eq]

theorem exactInput_of_bytes (V : ByteVec n) (hfits : Fits s) (hinp : s.inp = V.toList) : exactInput e s r = r V := by
  simp [exactInput, (not_tooLong_iff s).2 hfits, hinp]

end exactInput

theorem exec_ldkey (s : State) :
    exec .ldkey s = exactInput .invalidKeyLength s fun k => s.succeed { s.arch with kstg := k, kstgv := true } [] := by
  simp only [exec, execLdkey, exactInput]
  cases ofBytes? 16 s.inp <;> rfl

theorem exec_ldiv (s : State) :
    exec .ldiv s = exactInput .invalidIVLength s fun v => s.succeed { s.arch with ivstg := v, ivstgv := true } [] := by
  simp only [exec, execLdiv, exactInput]
  cases ofBytes? 8 s.inp <;> rfl

/-! ## The operands of INIT (R77, R79, R143) -/

theorem modeOf?_eq_none_iff_toNat {mode : BitVec 3} : modeOf? mode = none ↔ mode.toNat ∈ [0, 4, 7] := by
  revert mode; decide

theorem exists_modeOf? {mode : BitVec 3} (h : mode.toNat ∈ [1, 2, 3, 5, 6]) : ∃ m, modeOf? mode = some m := by
  refine Option.ne_none_iff_exists'.1 ?_
  revert mode; decide

theorem needsIV_iff {m : Mode} : m.needsIV = true ↔ m = .cbc ∨ m = .cfb ∨ m = .ofb := by cases m <;> decide

theorem needsIV_iff_toNat {mode : BitVec 3} {m : Mode} (h : modeOf? mode = some m) :
    m.needsIV = true ↔ mode.toNat ∈ [2, 3, 5] := by
  rw [modeOf?_eq_some.1 h]
  cases m <;> decide

theorem eq_ctr_iff_toNat {mode : BitVec 3} {m : Mode} (h : modeOf? mode = some m) : m = .ctr ↔ mode.toNat = 6 := by
  rw [modeOf?_eq_some.1 h]
  cases m <;> decide

/-- The default of R79 is even, so a count is even where the one it stands for is. -/
theorem roundsEff_parity (rounds : BitVec 16) : (roundsEff rounds).toNat % 2 = rounds.toNat % 2 := by
  unfold roundsEff
  split
  · next hzero => rw [hzero]; rfl
  · rfl

/-- R143 by the modes that have no IV. -/
theorem initialFb_eq (m : Mode) (S : Arch) : initialFb m S = if m = .ecb ∨ m = .ctr then .zero 8 else S.ivstg := by
  cases m <;> rfl

/-! ## INIT, check by check (R142, R254) -/

section init

variable {s : State} {mode : BitVec 3} {ord : BitVec 2} {rounds : BitVec 16}

theorem exec_init_of_noOrder (hord : 1 < ord.toNat) :
    exec (.init mode ord rounds) s = .next (s.answeredError .invalidByteOrder) := by
  simp [exec, execInit, orderOf?_eq_none.2 hord, fail_eq]

variable {o : Order} (hord : orderOf? ord = some o)
include hord

theorem exec_init_of_noMode (hmode : modeOf? mode = none) :
    exec (.init mode ord rounds) s = .next (s.answeredError .unsupportedMode) := by
  simp [exec, execInit, hord, hmode, fail_eq]

variable {m : Mode} (hmode : modeOf? mode = some m)
include hmode

theorem exec_init_of_oddRounds (hodd : rounds.toNat % 2 = 1) :
    exec (.init mode ord rounds) s = .next (s.answeredError .invalidRounds) := by
  simp [exec, execInit, hord, hmode, roundsEff_parity, hodd, fail_eq]

variable (heven : rounds.toNat % 2 = 0)
include heven

theorem exec_init_of_input (hlen : overMax s ∨ s.inp ≠ []) :
    exec (.init mode ord rounds) s = .next (s.answeredError .invalidLength) := by
  have hinp : s.tooLong = true ∨ s.inp ≠ [] := hlen.imp_left (tooLong_iff s).2
  simp only [exec, execInit, hord, hmode, roundsEff_parity, heven]
  rcases hinp with hlong | hinp
  · simp [hlong, fail_eq]
  · simp [hinp, fail_eq]

variable (hinp : s.inp = [])
include hinp

theorem exec_init_of_noKey (hkey : s.arch.kstgv = false) :
    exec (.init mode ord rounds) s = .next (s.answeredError .invalidKeyLength) := by
  simp [exec, execInit, hord, hmode, roundsEff_parity, heven, not_tooLong_of_empty hinp, hinp, hkey, fail_eq]

variable (hkey : s.arch.kstgv = true)
include hkey

theorem exec_init_of_noIV (hneeds : m.needsIV = true) (hiv : s.arch.ivstgv = false) :
    exec (.init mode ord rounds) s = .next (s.answeredError .missingIV) := by
  simp [exec, execInit, hord, hmode, roundsEff_parity, heven, not_tooLong_of_empty hinp, hinp, hkey, hneeds, hiv, fail_eq]

/-- CTR needs no IV, so the check before this one passes whatever is staged. -/
theorem exec_init_of_noCounter (hctr : m = .ctr) (hctrv : s.arch.ctrv = false) :
    exec (.init mode ord rounds) s = .next (s.answeredError .missingCounter) := by
  have hneeds : m.needsIV = false := by rw [hctr]; rfl
  simp only [exec, execInit, hord, hmode, roundsEff_parity, heven, not_tooLong_of_empty hinp, hinp, hkey, hneeds]
  simp [hctr, hctrv, fail_eq]

theorem exec_init_of_staged (hiv : m.needsIV = true → s.arch.ivstgv = true) (hctrv : m = .ctr → s.arch.ctrv = true) :
    exec (.init mode ord rounds) s = .next (s.answered (initContext m o (roundsEff rounds) s.arch) .ok []) := by
  have hivCheck : ¬ (m.needsIV = true ∧ s.arch.ivstgv = false) := fun h => by simp [hiv h.1] at h
  have hctrCheck : ¬ (m = .ctr ∧ s.arch.ctrv = false) := fun h => by simp [hctrv h.1] at h
  simp only [exec, execInit, hord, hmode, roundsEff_parity, heven, not_tooLong_of_empty hinp, hinp, hkey, if_neg hivCheck,
    if_neg hctrCheck]
  rfl

end init

/-! ## The statements -/

/-- Settles O31: every check of INIT passes, and the record the statement writes is the context INIT builds. -/
theorem initCreatesContext : Obligations.InitCreatesContext := by
  intro s mode ord rounds m o hord hmode heven hinp hkey hiv hctrv
  have hmodeOf : modeOf? mode = some m := modeOf?_eq_some.2 <| by
    rcases hmode with ⟨rfl, rfl⟩ | ⟨rfl, rfl⟩ | ⟨rfl, rfl⟩ | ⟨rfl, rfl⟩ | ⟨rfl, rfl⟩ <;> rfl
  rw [← initialFb_eq]
  exact exec_init_of_staged (orderOf?_eq_some.2 hord) hmodeOf heven hinp hkey (hiv ∘ needsIV_iff.1) hctrv

/-- Settles O32: each error by the first check that fails, the fields before it naming a byte order and a mode. -/
theorem initErrorsInOrder : Obligations.InitErrorsInOrder := by
  intro s mode ord rounds
  refine ⟨exec_init_of_noOrder, fun hord hmode => ?_, fun hord hmode => ?_⟩
  · obtain ⟨o, ho⟩ := exists_orderOf? hord
    exact exec_init_of_noMode ho (modeOf?_eq_none_iff_toNat.2 hmode)
  · obtain ⟨o, ho⟩ := exists_orderOf? hord
    obtain ⟨m, hm⟩ := exists_modeOf? hmode
    exact ⟨exec_init_of_oddRounds ho hm, fun heven => ⟨exec_init_of_input ho hm heven, fun hinp =>
      ⟨exec_init_of_noKey ho hm heven hinp, fun hkey =>
        ⟨fun hiv => exec_init_of_noIV ho hm heven hinp hkey ((needsIV_iff_toNat hm).2 hiv),
          fun hctr => exec_init_of_noCounter ho hm heven hinp hkey ((eq_ctr_iff_toNat hm).2 hctr)⟩⟩⟩⟩

/-- Settles O29: LDKEY takes exactly 16 bytes and stages them. -/
theorem ldkeyStagesKey : Obligations.LdkeyStagesKey := by
  intro s
  rw [exec_ldkey]
  exact ⟨exactInput_of_overMax, exactInput_of_wrongLength, exactInput_of_bytes⟩

/-- Settles O30: LDIV takes exactly 8 bytes and stages them. -/
theorem ldivStagesIV : Obligations.LdivStagesIV := by
  intro s
  rw [exec_ldiv]
  exact ⟨exactInput_of_overMax, exactInput_of_wrongLength, exactInput_of_bytes⟩

end Sys2Proof.Machine
end

section
/-!
SUPPORT. The blocks of an input (spec/43_modes.md R170), and the CBC and CFB transforms as one chain of steps on blocks
(R175 to R178): its equations, its splitting, and the decryption that undoes it.
-/

namespace Sys2Proof.Machine

/-! ## The blocks of an input (R170) -/

theorem length_blocks (B : Bytes) : (blocks B).length = B.length / 8 := by
  obtain ⟨Xs, T, rfl, hT⟩ := exists_blocks_tail B
  rw [blocks_unblocks_append Xs hT, List.length_append, length_unblocks]
  omega

theorem unblocks_blocks {B : Bytes} (h : B.length % 8 = 0) : unblocks (blocks B) = B := by
  obtain ⟨Xs, T, rfl, hT⟩ := exists_blocks_tail B
  have hnil : T = [] := List.eq_nil_of_length_eq_zero (by simp at h; omega)
  rw [hnil, List.append_nil, blocks_unblocks]

theorem blocks_unblocks_append_any (Xs : List Block) (B : Bytes) : blocks (unblocks Xs ++ B) = Xs ++ blocks B := by
  induction Xs with
  | nil => rfl
  | cons X Xs ih => rw [unblocks_cons, List.append_assoc, blocks_cons, ih, List.cons_append]

/-- A cut at a block boundary splits no block. -/
theorem blocks_append {A : Bytes} (h : A.length % 8 = 0) (B : Bytes) : blocks (A ++ B) = blocks A ++ blocks B := by
  rw [← blocks_unblocks_append_any, unblocks_blocks h]

theorem toList_of_unblocks_append_getElem? {Xs : List Block} (T : Bytes) {j : Nat} {X : Block} (h : Xs[j]? = some X) :
    X.toList = ((unblocks Xs ++ T).drop (8 * j)).take 8 := by
  induction Xs generalizing j with
  | nil => cases h
  | cons Y Xs ih =>
    cases j with
    | zero =>
      cases h
      simp
    | succ j => rw [ih h, unblocks_cons, List.append_assoc, Nat.mul_succ, Nat.add_comm, ← List.drop_drop,
        List.drop_left' Y.len]

theorem toList_of_blocks_getElem? {B : Bytes} {j : Nat} {X : Block} (h : (blocks B)[j]? = some X) :
    X.toList = (B.drop (8 * j)).take 8 := by
  obtain ⟨Xs, T, rfl, hT⟩ := exists_blocks_tail B
  rw [blocks_unblocks_append Xs hT] at h
  exact toList_of_unblocks_append_getElem? T h

/-- Bytes `8j` to `8j + 7` of an input, where it has them, are its block `j`. -/
theorem blocks_getElem?_of_sub {B : Bytes} {j : Nat} {X : Block} (h : X.toList = sub B (8 * j) (8 * j + 8)) :
    (blocks B)[j]? = some X := by
  have hlen : 8 = min 8 (B.length - 8 * j) := by simpa [sub] using congrArg List.length h
  have hj : j < (blocks B).length := by rw [length_blocks]; omega
  rw [List.getElem?_eq_getElem hj, Option.some.injEq]
  ext1
  rw [toList_of_blocks_getElem? (List.getElem?_eq_getElem hj), h, sub, Nat.add_sub_cancel_left]

/-! ## XOR with a common string -/

theorem zipWith_xor_common : ∀ A B K : Bytes, A.length = K.length → B.length = K.length →
    List.zipWith (· ^^^ ·) (List.zipWith (· ^^^ ·) A K) (List.zipWith (· ^^^ ·) B K) = List.zipWith (· ^^^ ·) A B
  | [], _, _, _, _ => rfl
  | _ :: _, [], k :: K, _, hB => by cases hB
  | a :: A, b :: B, k :: K, hA, hB => by
    have hhead : (a ^^^ k) ^^^ (b ^^^ k) = a ^^^ b := by
      rw [BitVec.xor_comm b k, BitVec.xor_assoc, ← BitVec.xor_assoc k k b, BitVec.xor_self, BitVec.zero_xor]
    simp only [List.zipWith_cons_cons, hhead, zipWith_xor_common A B K (by simpa using hA) (by simpa using hB)]

/-- A string XORed into both cancels in the difference. -/
theorem xor_common {n : Nat} (A B K : ByteVec n) : xor (xor A K) (xor B K) = xor A B := by
  ext1
  exact zipWith_xor_common _ _ _ (by simp) (by simp)

/-! ## The chain of CBC and CFB -/

/-- Blocks through a register: `g` gives the output block from the register and the input block, and the next register is
`next` of the input and the output block. -/
def chain (g next : Block → Block → Block) : Block → List Block → List Block × Block
  | fb, [] => ([], fb)
  | fb, X :: Xs =>
    let C := g fb X
    let r := chain g next (next X C) Xs
    (C :: r.1, r.2)

/-- On encryption the register takes the output block, on decryption the input block: always the ciphertext. -/
def takeOutput (_ C : Block) : Block := C

def takeInput (X _ : Block) : Block := X

/-- One block of CBC encryption (R175). -/
def cbcEncStep (E : Block → Block) (fb X : Block) : Block := E (xor X fb)

/-- One block of CBC decryption (R176). -/
def cbcDecStep (D : Block → Block) (fb X : Block) : Block := xor (D X) fb

/-- One block of CFB in either direction (R177, R178). -/
def cfbStep (E : Block → Block) (fb X : Block) : Block := xor X (E fb)

theorem cbcEnc_eq_chain (E : Block → Block) (fb : Block) (Xs : List Block) :
    cbcEnc E fb Xs = chain (cbcEncStep E) takeOutput fb Xs := by
  induction Xs generalizing fb with
  | nil => rfl
  | cons X Xs ih => rw [cbcEnc, ih]; rfl

theorem cbcDec_eq_chain (D : Block → Block) (fb : Block) (Xs : List Block) :
    cbcDec D fb Xs = chain (cbcDecStep D) takeInput fb Xs := by
  induction Xs generalizing fb with
  | nil => rfl
  | cons X Xs ih => rw [cbcDec, ih]; rfl

theorem cfbEnc_eq_chain (E : Block → Block) (fb : Block) (Xs : List Block) :
    cfbEnc E fb Xs = chain (cfbStep E) takeOutput fb Xs := by
  induction Xs generalizing fb with
  | nil => rfl
  | cons X Xs ih => rw [cfbEnc, ih]; rfl

theorem cfbDec_eq_chain (E : Block → Block) (fb : Block) (Xs : List Block) :
    cfbDec E fb Xs = chain (cfbStep E) takeInput fb Xs := by
  induction Xs generalizing fb with
  | nil => rfl
  | cons X Xs ih => rw [cfbDec, ih]; rfl

section chain

variable (g next : Block → Block → Block)

@[simp] theorem length_chain (fb : Block) (Xs : List Block) : (chain g next fb Xs).1.length = Xs.length := by
  induction Xs generalizing fb with
  | nil => rfl
  | cons X Xs ih => simp [chain, ih]

/-- The chain of `A ‖ B` is that of `A` and then, from the register it left, that of `B`. -/
theorem chain_append (fb : Block) (Xs Ys : List Block) :
    chain g next fb (Xs ++ Ys) =
      ((chain g next fb Xs).1 ++ (chain g next (chain g next fb Xs).2 Ys).1,
        (chain g next (chain g next fb Xs).2 Ys).2) := by
  induction Xs generalizing fb with
  | nil => rfl
  | cons X Xs ih => simp [chain, ih]

/-- On decryption output `j` depends on input blocks `j - 1` and `j` alone. -/
theorem chain_takeInput_eq_zipWith (fb : Block) (Xs : List Block) :
    (chain g takeInput fb Xs).1 = List.zipWith g (fb :: Xs) Xs := by
  induction Xs generalizing fb with
  | nil => rfl
  | cons X Xs ih => simp [chain, ih, takeInput]

theorem chain_takeOutput_eq_zipWith (fb : Block) (Xs : List Block) :
    (chain g takeOutput fb Xs).1 = List.zipWith g (fb :: (chain g takeOutput fb Xs).1) Xs := by
  induction Xs generalizing fb with
  | nil => rfl
  | cons X Xs ih => simpa [chain, takeOutput] using ih (g fb X)

theorem chain_takeInput_register (fb : Block) (Xs : List Block) :
    (chain g takeInput fb Xs).2 = Xs.getLast?.getD fb := by
  induction Xs generalizing fb with
  | nil => rfl
  | cons X Xs ih => simp [chain, ih, takeInput, List.getLast?_cons]

theorem chain_takeOutput_register (fb : Block) (Xs : List Block) :
    (chain g takeOutput fb Xs).2 = (chain g takeOutput fb Xs).1.getLast?.getD fb := by
  induction Xs generalizing fb with
  | nil => rfl
  | cons X Xs ih => simp [chain, ih, takeOutput, List.getLast?_cons]

/-- Decryption runs through the registers encryption ran through, so a step that undoes its step undoes the chain. -/
theorem chain_takeInput_chain_takeOutput {g' : Block → Block → Block} (hundo : ∀ fb X, g' fb (g fb X) = X) (fb : Block)
    (Xs : List Block) :
    chain g' takeInput fb (chain g takeOutput fb Xs).1 = (Xs, (chain g takeOutput fb Xs).2) := by
  induction Xs generalizing fb with
  | nil => rfl
  | cons X Xs ih =>
    have hrest := ih (g fb X)
    simp only [chain, takeInput, takeOutput] at hrest ⊢
    rw [hrest, hundo]

end chain

theorem cbcDecStep_cbcEncStep {E D : Block → Block} (hDE : ∀ X, D (E X) = X) (fb X : Block) :
    cbcDecStep D fb (cbcEncStep E fb X) = X := by
  rw [cbcDecStep, cbcEncStep, hDE, xor_xor_cancel]

theorem cfbStep_cfbStep (E : Block → Block) (fb X : Block) : cfbStep E fb (cfbStep E fb X) = X := xor_xor_cancel _ _

/-! ## The statement -/

/-- Settles O22: an input is the bytes of its blocks and a tail of fewer than 8 bytes. -/
theorem blocksAreTheInput : Obligations.BlocksAreTheInput :=
  ⟨length_blocks, fun _ _ _ => toList_of_blocks_getElem?, fun _ => unblocks_blocks⟩

end Sys2Proof.Machine
end

section
/-!
SUPPORT. ENC and DEC as commands (spec/43_modes.md R170, R171): their errors, their success, the same by a transaction; and
their transforms on any input: lengths, the split of a call (R172, R183), and decryption undoing encryption (R186).
-/

namespace Sys2Proof.Machine

/-! ## The shared entry rule, check by check (R170) -/

section cipherCommand

variable (f : Params → Mode → Arch → Bytes → Bytes × Arch) {s : State}

theorem cipherCommand_of_overMax (hmax : overMax s) : cipherCommand f s = .next (s.answeredError .invalidLength) :=
  if_pos ((tooLong_iff s).2 hmax)

variable (hfits : Fits s)
include hfits

theorem cipherCommand_of_noContext (hctx : s.arch.ctx = .none) :
    cipherCommand f s = .next (s.answeredError .invalidState) := by
  simp [cipherCommand, (not_tooLong_iff s).2 hfits, hctx, fail_eq]

variable (hctx : s.arch.ctx ≠ .none) {m : Mode} (hmode : s.arch.mode = some m)
include hctx hmode

theorem cipherCommand_of_partBlock (hm : m.wholeBlocks = true) (hlen : s.inp.length % 8 ≠ 0) :
    cipherCommand f s = .next (s.answeredError .invalidLength) := by
  simp [cipherCommand, (not_tooLong_iff s).2 hfits, hctx, hmode, hm, hlen, fail_eq]

theorem cipherCommand_of_length (hlen : m.wholeBlocks = true → s.inp.length % 8 = 0) :
    cipherCommand f s = .next (s.answered { (f s.params m s.arch s.inp).2 with ctx := .active } .ok
      (f s.params m s.arch s.inp).1) := by
  have hpass : ¬ (m.wholeBlocks = true ∧ s.inp.length % 8 ≠ 0) := fun ⟨hm, h⟩ => h (hlen hm)
  simp only [cipherCommand, (not_tooLong_iff s).2 hfits, hctx, hmode, if_neg hpass]
  rfl

end cipherCommand

theorem exists_wholeBlocks_mode {S : Arch} (h : WholeBlocks S) : ∃ m, S.mode = some m ∧ m.wholeBlocks = true := by
  rcases h with h | h | h <;> exact ⟨_, h, rfl⟩

theorem exists_keystream_mode {S : Arch} (h : KeystreamMode S) :
    ∃ m, S.mode = some m ∧ m.wholeBlocks = false := by
  rcases h with h | h <;> exact ⟨_, h, rfl⟩

/-! ## The two commands and their transforms -/

/-- ENC and DEC with the transform of each. -/
inductive Ciphers : Instr → (Params → Mode → Arch → Bytes → Bytes × Arch) → Prop
  | enc : Ciphers .enc encTransform
  | dec : Ciphers .dec decTransform

theorem exists_ciphers {i : Instr} (hi : i = .enc ∨ i = .dec) : ∃ f, Ciphers i f := by
  rcases hi with rfl | rfl
  exacts [⟨_, .enc⟩, ⟨_, .dec⟩]

section ciphers

variable {i : Instr} {f : Params → Mode → Arch → Bytes → Bytes × Arch} (hi : Ciphers i f)
include hi

theorem Ciphers.exec_eq (s : State) : exec i s = cipherCommand f s := by cases hi <;> rfl

theorem Ciphers.decode_encode : decode (encode i) = .ok i :=
  decodeOfEncodeGivesInstruction i (by cases hi <;> rfl)

theorem Ciphers.keystream {m : Mode} (hm : m.wholeBlocks = false) (p : Params) (S : Arch) (In : Bytes) :
    f p m S In = keystreamCipher p S In := by
  cases m with
  | ofb | ctr => cases hi <;> rfl
  | ecb | cbc | cfb => cases hm

/-- ENC or DEC issued on an idle core with a context, on an input of a length its mode takes. -/
theorem Ciphers.transact_of_length {s : State} {In : Bytes} {m : Mode} (hidle : s.cmd = none)
    (hmax : ∀ n, s.params.maxXfer = some n → In.length ≤ n) (hctx : s.arch.ctx ≠ .none)
    (hmode : s.arch.mode = some m) (hlen : m.wholeBlocks = true → In.length % 8 = 0) :
    transact s ⟨encode i, In⟩ =
      some (s.answered { (f s.params m s.arch In).2 with ctx := .active } .ok (f s.params m s.arch In).1,
        ⟨.ok, (f s.params m s.arch In).1⟩) := by
  refine transact_decoded hidle hi.decode_encode ?_
  rw [hi.exec_eq]
  exact cipherCommand_of_length f (s := { s with cmd := some ⟨encode i, In⟩, resp := none }) hmax hctx hmode hlen

end ciphers

/-! ## The transforms of the whole-block modes -/

/-- A transform that runs the input's blocks through FB. -/
def chainTransform (g next : Block → Block → Block) (S : Arch) (In : Bytes) : Bytes × Arch :=
  (unblocks (chain g next S.fb (blocks In)).1, { S with fb := (chain g next S.fb (blocks In)).2 })

theorem encTransform_cbc (p : Params) (S : Arch) (In : Bytes) :
    encTransform p .cbc S In = chainTransform (cbcEncStep S.eCtx) takeOutput S In := by
  simp only [encTransform, cbcEnc_eq_chain, chainTransform]

theorem decTransform_cbc (p : Params) (S : Arch) (In : Bytes) :
    decTransform p .cbc S In = chainTransform (cbcDecStep S.dCtx) takeInput S In := by
  simp only [decTransform, cbcDec_eq_chain, chainTransform]

theorem encTransform_cfb (p : Params) (S : Arch) (In : Bytes) :
    encTransform p .cfb S In = chainTransform (cfbStep S.eCtx) takeOutput S In := by
  simp only [encTransform, cfbEnc_eq_chain, chainTransform]

theorem decTransform_cfb (p : Params) (S : Arch) (In : Bytes) :
    decTransform p .cfb S In = chainTransform (cfbStep S.eCtx) takeInput S In := by
  simp only [decTransform, cfbDec_eq_chain, chainTransform]

theorem chainTransform_append (g next : Block → Block → Block) (S : Arch) {A : Bytes} (hA : A.length % 8 = 0)
    (B : Bytes) :
    chainTransform g next S (A ++ B) =
      ((chainTransform g next S A).1 ++ (chainTransform g next (chainTransform g next S A).2 B).1,
        (chainTransform g next (chainTransform g next S A).2 B).2) := by
  simp only [chainTransform, blocks_append hA, chain_append, unblocks_append]

theorem chainTransform_takeInput_takeOutput {g g' : Block → Block → Block} (hundo : ∀ fb X, g' fb (g fb X) = X)
    (S : Arch) {In : Bytes} (hlen : In.length % 8 = 0) :
    chainTransform g' takeInput S (chainTransform g takeOutput S In).1 =
      (In, (chainTransform g takeOutput S In).2) := by
  simp only [chainTransform, blocks_unblocks, chain_takeInput_chain_takeOutput g hundo, unblocks_blocks hlen]

/-- ECB on each block by itself (R173, R174). -/
theorem unblocks_map_append (E : Block → Block) {A : Bytes} (hA : A.length % 8 = 0) (B : Bytes) :
    unblocks ((blocks (A ++ B)).map E) = unblocks ((blocks A).map E) ++ unblocks ((blocks B).map E) := by
  rw [blocks_append hA, List.map_append, unblocks_append]

/-- The block functions of the context undo each other (R123). -/
theorem dCtx_eCtx (S : Arch) (X : Block) : S.dCtx (S.eCtx X) = X := dBlk_eBlk _ _ _ _

/-! ## The keystream transform -/

/-- The first `n` keystream bytes of a state. -/
def ksBytes (S : Arch) (n : Nat) : Bytes := (List.range n).map (ksByte S)

@[simp] theorem length_ksBytes (S : Arch) (n : Nat) : (ksBytes S n).length = n := by simp [ksBytes]

theorem xorKeystream_output (In : Bytes) (S : Arch) :
    (xorKeystream In S).1 = List.zipWith (· ^^^ ·) In (ksBytes S In.length) := by
  refine List.ext_getElem? fun j => ?_
  by_cases hj : j < In.length
  · rw [xorKeystream_byte In S hj]
    simp [ksBytes, hj]
  · rw [List.getElem?_eq_none (by simpa using hj), List.getElem?_eq_none (by simpa using hj)]

theorem keystreamCipher_output (p : Params) (S : Arch) (In : Bytes) :
    (keystreamCipher p S In).1 = List.zipWith (· ^^^ ·) In (ksBytes S In.length) := xorKeystream_output In S

@[simp] theorem length_keystreamCipher (p : Params) (S : Arch) (In : Bytes) :
    (keystreamCipher p S In).1.length = In.length := length_xorKeystream In S

/-- The state left depends on the number of bytes and not on the bytes. -/
theorem keystreamCipher_state_congr (p : Params) (S : Arch) {A B : Bytes} (h : A.length = B.length) :
    (keystreamCipher p S A).2 = (keystreamCipher p S B).2 := by
  rw [keystreamCipher_state, keystreamCipher_state, h]

theorem keystreamCipher_append {p : Params} (hcarry : p.ksCarry = true) (S : Arch) (A B : Bytes) :
    keystreamCipher p S (A ++ B) =
      ((keystreamCipher p S A).1 ++ (keystreamCipher p (keystreamCipher p S A).2 B).1,
        (keystreamCipher p (keystreamCipher p S A).2 B).2) := by
  simp only [keystreamCipher, hcarry, if_true, xorKeystream_append]

theorem keystreamCipher_keystreamCipher (p : Params) (S : Arch) (In : Bytes) :
    keystreamCipher p S (keystreamCipher p S In).1 = (In, (keystreamCipher p S In).2) := by
  refine Prod.ext ?_ (keystreamCipher_state_congr p S (length_keystreamCipher p S In))
  rw [keystreamCipher_output, length_keystreamCipher, keystreamCipher_output]
  exact zipWith_xor_cancel _ _ (by simp)

/-- CTX plays no part in a keystream call. -/
theorem keystreamCipher_ctx (p : Params) (S : Arch) (c : CtxState) (In : Bytes) :
    keystreamCipher p { S with ctx := c } In =
      ((keystreamCipher p S In).1, { (keystreamCipher p S In).2 with ctx := c }) := by
  refine Prod.ext ?_ ?_
  · rw [keystreamCipher_output, keystreamCipher_output]; rfl
  · rw [keystreamCipher_state, keystreamCipher_state]; rfl

/-! ## Both transforms, all modes -/

section ciphers

variable {i : Instr} {f : Params → Mode → Arch → Bytes → Bytes × Arch} (hi : Ciphers i f)
include hi

theorem Ciphers.transform_ctx (p : Params) (m : Mode) (S : Arch) (c : CtxState) (In : Bytes) :
    f p m { S with ctx := c } In = ((f p m S In).1, { (f p m S In).2 with ctx := c }) := by
  cases m with
  | ecb | cbc | cfb => cases hi <;> rfl
  | ofb | ctr => cases hi <;> exact keystreamCipher_ctx p S c In

/-- One call on `A ‖ B` is a call on `A` and then one on `B`, at a block boundary or with the carry (R172, R183). -/
theorem Ciphers.transform_append {p : Params} {m : Mode} (S : Arch) {A : Bytes} (B : Bytes)
    (hcut : m.wholeBlocks = true ∧ A.length % 8 = 0 ∨ m.wholeBlocks = false ∧ p.ksCarry = true) :
    f p m S (A ++ B) = ((f p m S A).1 ++ (f p m (f p m S A).2 B).1, (f p m (f p m S A).2 B).2) := by
  rcases hcut with ⟨hm, hA⟩ | ⟨hm, hcarry⟩
  · cases m with
    | ecb =>
      cases hi
      exacts [Prod.ext (unblocks_map_append S.eCtx hA B) rfl, Prod.ext (unblocks_map_append S.dCtx hA B) rfl]
    | cbc =>
      cases hi <;> simp only [encTransform_cbc, decTransform_cbc] <;> exact chainTransform_append _ _ S hA B
    | cfb =>
      cases hi <;> simp only [encTransform_cfb, decTransform_cfb] <;> exact chainTransform_append _ _ S hA B
    | ofb | ctr => cases hm
  · simp only [hi.keystream hm, keystreamCipher_append hcarry]

/-- The output is as long as the input (R170). -/
theorem Ciphers.length_transform (p : Params) {m : Mode} (S : Arch) {In : Bytes}
    (hlen : m.wholeBlocks = true → In.length % 8 = 0) : (f p m S In).1.length = In.length := by
  have hblocks (hm : m.wholeBlocks = true) : 8 * (blocks In).length = In.length := by
    rw [length_blocks]
    have := hlen hm
    omega
  cases m with
  | ecb | cbc | cfb => cases hi <;> simp [encTransform, decTransform, hblocks rfl]
  | ofb | ctr => cases hi <;> exact length_keystreamCipher p S In

end ciphers

/-- DEC from the state ENC started from gives the message back, and ends where ENC ended (R186). -/
theorem decTransform_encTransform (p : Params) {m : Mode} (S : Arch) {P : Bytes}
    (hlen : m.wholeBlocks = true → P.length % 8 = 0) :
    decTransform p m S (encTransform p m S P).1 = (P, (encTransform p m S P).2) := by
  cases m with
  | ecb =>
    have hback : (fun X => S.dCtx (S.eCtx X)) = id := funext (dCtx_eCtx S)
    simp only [encTransform, decTransform, blocks_unblocks, List.map_map, Function.comp_def, hback, List.map_id,
      unblocks_blocks (hlen rfl)]
  | cbc =>
    rw [encTransform_cbc, decTransform_cbc]
    exact chainTransform_takeInput_takeOutput (cbcDecStep_cbcEncStep (dCtx_eCtx S)) S (hlen rfl)
  | cfb =>
    rw [encTransform_cfb, decTransform_cfb]
    exact chainTransform_takeInput_takeOutput (cfbStep_cfbStep S.eCtx) S (hlen rfl)
  | ofb => exact keystreamCipher_keystreamCipher p S P
  | ctr => exact keystreamCipher_keystreamCipher p S P

/-! ## Contexts that agree (R186) -/

section sameContext

variable {S T : Arch} (h : SameContext S T)
include h

theorem SameContext.mode_eq : S.mode = T.mode := by
  obtain ⟨hkey, hmode, hord, hrounds, hfb, hksbuf, hksrem, hcord, hcval⟩ := h
  exact hmode

theorem SameContext.eCtx_eq : S.eCtx = T.eCtx := by
  obtain ⟨hkey, hmode, hord, hrounds, hfb, hksbuf, hksrem, hcord, hcval⟩ := h
  funext X
  simp only [Arch.eCtx, Arch.cycles, hkey, hord, hrounds]

theorem SameContext.dCtx_eq : S.dCtx = T.dCtx := by
  obtain ⟨hkey, hmode, hord, hrounds, hfb, hksbuf, hksrem, hcord, hcval⟩ := h
  funext X
  simp only [Arch.dCtx, Arch.cycles, hkey, hord, hrounds]

theorem SameContext.ksBlock_eq : ksBlock S = ksBlock T := by
  obtain ⟨hkey, hmode, hord, hrounds, hfb, hksbuf, hksrem, hcord, hcval⟩ := h
  funext k
  simp only [ksBlock, hkey, hmode, hord, hrounds, hfb, hcord, hcval]

theorem SameContext.ksBytes_eq (n : Nat) : ksBytes S n = ksBytes T n := by
  have hblock := h.ksBlock_eq
  obtain ⟨hkey, hmode, hord, hrounds, hfb, hksbuf, hksrem, hcord, hcval⟩ := h
  have hbyte : ksByte S = ksByte T := by
    funext i
    simp only [ksByte, hblock, hksbuf, hksrem]
  rw [ksBytes, hbyte, ksBytes]

theorem SameContext.with_fb (X : Block) : SameContext { S with fb := X } { T with fb := X } := by
  obtain ⟨hkey, hmode, hord, hrounds, hfb, hksbuf, hksrem, hcord, hcval⟩ := h
  exact ⟨hkey, hmode, hord, hrounds, rfl, hksbuf, hksrem, hcord, hcval⟩

theorem SameContext.afterKs_same (N : Nat) : SameContext (S.afterKs N) (T.afterKs N) := by
  have hmade : ksBlocksMade S N = ksBlocksMade T N := by
    obtain ⟨hkey, hmode, hord, hrounds, hfb, hksbuf, hksrem, hcord, hcval⟩ := h
    rw [ksBlocksMade, hksrem, ksBlocksMade]
  have hlast (X : Block) (n : Nat) : lastKsBlock S X n = lastKsBlock T X n := by
    rw [lastKsBlock, h.ksBlock_eq, lastKsBlock]
  obtain ⟨hkey, hmode, hord, hrounds, hfb, hksbuf, hksrem, hcord, hcval⟩ := h
  simp only [SameContext, Arch.afterKs]
  rw [hkey, hmode, hord, hrounds, hfb, hksbuf, hksrem, hcord, hcval, hmade, hlast, hlast]
  simp only [and_self]

theorem SameContext.keystreamCipher_same (p : Params) (In : Bytes) :
    (keystreamCipher p S In).1 = (keystreamCipher p T In).1 ∧
      SameContext (keystreamCipher p S In).2 (keystreamCipher p T In).2 := by
  refine ⟨by rw [keystreamCipher_output, keystreamCipher_output, h.ksBytes_eq], ?_⟩
  obtain ⟨hkey, hmode, hord, hrounds, hfb, hksbuf, hksrem, hcord, hcval⟩ := h.afterKs_same In.length
  rw [keystreamCipher_state, keystreamCipher_state]
  exact ⟨hkey, hmode, hord, hrounds, hfb, hksbuf, by rw [hksrem], hcord, hcval⟩

theorem SameContext.chainTransform_same (g next : Block → Block → Block) (In : Bytes) :
    (chainTransform g next S In).1 = (chainTransform g next T In).1 ∧
      SameContext (chainTransform g next S In).2 (chainTransform g next T In).2 := by
  have hwith := h.with_fb
  obtain ⟨hkey, hmode, hord, hrounds, hfb, hksbuf, hksrem, hcord, hcval⟩ := h
  rw [chainTransform, chainTransform, hfb]
  exact ⟨rfl, hwith _⟩

/-- Decryption reads nothing but the context, and keeps contexts alike. -/
theorem SameContext.decTransform_same (p : Params) (m : Mode) (In : Bytes) :
    (decTransform p m S In).1 = (decTransform p m T In).1 ∧
      SameContext (decTransform p m S In).2 (decTransform p m T In).2 := by
  cases m with
  | ecb => exact ⟨by simp only [decTransform, h.dCtx_eq], h⟩
  | cbc =>
    rw [decTransform_cbc, decTransform_cbc, h.dCtx_eq]
    exact h.chainTransform_same _ _ _
  | cfb =>
    rw [decTransform_cfb, decTransform_cfb, h.eCtx_eq]
    exact h.chainTransform_same _ _ _
  | ofb => exact h.keystreamCipher_same p In
  | ctr => exact h.keystreamCipher_same p In

end sameContext

end Sys2Proof.Machine
end

section
/-!
SUPPORT. The statements about ENC and DEC: their errors, the equations of ECB, CBC and CFB, the split of a call, the round
trip between two cores and the reach of a changed block or byte (spec/43_modes.md R170 to R186).
-/

namespace Sys2Proof.Machine

/-! ## One command in CBC and CFB -/

theorem zipWith_register_getElem? (g : Block → Block → Block) (fb : Block) {Rs Xs : List Block}
    (hlen : Rs.length = Xs.length) {j : Nat} {X : Block} (hX : Xs[j]? = some X) :
    (List.zipWith g (fb :: Rs) Xs)[j]? = some (g ((fb :: Rs).getD j (.zero 8)) X) := by
  obtain ⟨hj, rfl⟩ := List.getElem?_eq_some_iff.1 hX
  have hR : j < (fb :: Rs).length := by rw [List.length_cons]; omega
  rw [List.getElem?_zipWith, List.getElem?_eq_getElem hR, List.getElem?_eq_getElem hj,
    List.getD_eq_getElem _ _ hR]

section ciphers

variable {i : Instr} {f : Params → Mode → Arch → Bytes → Bytes × Arch} (hi : Ciphers i f)
  {g : Block → Block → Block} {s : State} {m : Mode} (hfits : Fits s) (hctx : s.arch.ctx ≠ .none) (hmode : s.arch.mode = some m)
  (hlen : s.inp.length % 8 = 0)
include hi hfits hctx hmode hlen

theorem Ciphers.exec_chain_takeOutput
    (hf : f s.params m s.arch s.inp = chainTransform g takeOutput s.arch s.inp) :
    ∃ Cs : List Block,
      exec i s = .next (s.answered
        { s.arch with fb := Cs.getLast?.getD s.arch.fb, ctx := .active } .ok (unblocks Cs)) ∧
      Cs.length = s.inp.length / 8 ∧
      ∀ (j : Nat) (X : Block), X.toList = sub s.inp (8 * j) (8 * j + 8) →
        Cs[j]? = some (g ((s.arch.fb :: Cs).getD j (.zero 8)) X) := by
  refine ⟨(chain g takeOutput s.arch.fb (blocks s.inp)).1, ?_, by rw [length_chain, length_blocks], fun j X hX => ?_⟩
  · rw [hi.exec_eq, cipherCommand_of_length f hfits hctx hmode fun _ => hlen, hf, chainTransform,
      chain_takeOutput_register]
  · refine Eq.trans ?_ (zipWith_register_getElem? g s.arch.fb (length_chain g takeOutput _ _)
      (blocks_getElem?_of_sub hX))
    rw [← chain_takeOutput_eq_zipWith]

theorem Ciphers.exec_chain_takeInput
    (hf : f s.params m s.arch s.inp = chainTransform g takeInput s.arch s.inp) :
    ∃ Ps : List Block,
      exec i s = .next (s.answered
        { s.arch with fb := (blocks s.inp).getLast?.getD s.arch.fb, ctx := .active } .ok (unblocks Ps)) ∧
      Ps.length = s.inp.length / 8 ∧
      ∀ (j : Nat) (X : Block), X.toList = sub s.inp (8 * j) (8 * j + 8) →
        Ps[j]? = some (g ((s.arch.fb :: blocks s.inp).getD j (.zero 8)) X) := by
  refine ⟨(chain g takeInput s.arch.fb (blocks s.inp)).1, ?_, by rw [length_chain, length_blocks], fun j X hX => ?_⟩
  · rw [hi.exec_eq, cipherCommand_of_length f hfits hctx hmode fun _ => hlen, hf, chainTransform,
      chain_takeInput_register]
  · rw [chain_takeInput_eq_zipWith]
    exact zipWith_register_getElem? g s.arch.fb rfl (blocks_getElem?_of_sub hX)

theorem Ciphers.exec_map {F : Block → Block}
    (hf : f s.params m s.arch s.inp = (unblocks ((blocks s.inp).map F), s.arch)) :
    ∃ Cs : List Block,
      exec i s = .next (s.answered { s.arch with ctx := .active } .ok (unblocks Cs)) ∧
      Cs.length = s.inp.length / 8 ∧
      ∀ (j : Nat) (X : Block), X.toList = sub s.inp (8 * j) (8 * j + 8) → Cs[j]? = some (F X) := by
  refine ⟨(blocks s.inp).map F, ?_, by rw [List.length_map, length_blocks], fun j X hX => ?_⟩
  · rw [hi.exec_eq, cipherCommand_of_length f hfits hctx hmode fun _ => hlen, hf]
  · rw [List.getElem?_map, blocks_getElem?_of_sub hX, Option.map_some]

end ciphers

/-! ## A changed block on decryption (R185) -/

section decryption

variable (g : Block → Block → Block) (fb : Block) (pre post : List Block) (X X' : Block)

/-- The output before block `X`, the output of `X` under the register `pre` leaves, and the output after it. -/
theorem chain_takeInput_split :
    (chain g takeInput fb (pre ++ X :: post)).1 =
      (chain g takeInput fb pre).1 ++ g (chain g takeInput fb pre).2 X :: (chain g takeInput X post).1 := by
  rw [chain_append]; rfl

theorem chain_takeInput_at :
    (chain g takeInput fb (pre ++ X :: post)).1[pre.length]? = some (g (chain g takeInput fb pre).2 X) := by
  rw [chain_takeInput_split, List.getElem?_append_right (by simp)]
  simp

theorem chain_takeInput_after :
    (chain g takeInput fb (pre ++ X :: post)).1[pre.length + 1]? = post.head?.map (g X) := by
  rw [chain_takeInput_split, List.getElem?_append_right (by simp)]
  cases post <;> simp [chain]

theorem chain_takeInput_elsewhere {j : Nat} (hat : j ≠ pre.length) (hafter : j ≠ pre.length + 1) :
    (chain g takeInput fb (pre ++ X :: post)).1[j]? = (chain g takeInput fb (pre ++ X' :: post)).1[j]? := by
  simp only [chain_takeInput_split]
  by_cases hj : j < pre.length
  · rw [List.getElem?_append_left (by simpa using hj), List.getElem?_append_left (by simpa using hj)]
  · obtain ⟨k, rfl⟩ : ∃ k, j = pre.length + (k + 2) := ⟨j - pre.length - 2, by omega⟩
    rw [List.getElem?_append_right (by simp), List.getElem?_append_right (by simp)]
    cases post <;> simp [chain, takeInput]

end decryption

theorem exists_dec_chain (p : Params) {S : Arch} (h : S.mode = some .cbc ∨ S.mode = some .cfb) :
    ∃ m g, S.mode = some m ∧ (∀ In, decTransform p m S In = chainTransform g takeInput S In) ∧
      (S.mode = some .cbc → g = cbcDecStep S.dCtx) ∧ (S.mode = some .cfb → g = cfbStep S.eCtx) := by
  rcases h with hm | hm
  · exact ⟨.cbc, _, hm, decTransform_cbc p S, fun _ => rfl, by simp [hm]⟩
  · exact ⟨.cfb, _, hm, decTransform_cfb p S, by simp [hm], fun _ => rfl⟩

/-- DEC of a sequence of blocks in CBC or CFB, by transaction. -/
theorem transact_dec_chain {g : Block → Block → Block} {s : State} {m : Mode}
    (hf : ∀ In, decTransform s.params m s.arch In = chainTransform g takeInput s.arch In) (hidle : s.cmd = none)
    (hctx : s.arch.ctx ≠ .none) (hmode : s.arch.mode = some m) (Xs : List Block)
    (hmax : ∀ n, s.params.maxXfer = some n → (unblocks Xs).length ≤ n) :
    ∃ t, transact s ⟨encode .dec, unblocks Xs⟩ =
      some (t, ⟨.ok, unblocks (chain g takeInput s.arch.fb Xs).1⟩) := by
  have h := Ciphers.dec.transact_of_length hidle hmax hctx hmode fun _ => by simp
  rw [hf, chainTransform, blocks_unblocks] at h
  exact ⟨_, h⟩

/-! ## Lengths and modes of a call -/

theorem exists_mode_of_lengthRule {S : Arch} {N : Nat} (h : WholeBlocks S ∧ N % 8 = 0 ∨ KeystreamMode S) :
    ∃ m, S.mode = some m ∧ (m.wholeBlocks = true → N % 8 = 0) := by
  rcases h with ⟨hwhole, hN⟩ | hks
  · obtain ⟨m, hmode, -⟩ := exists_wholeBlocks_mode hwhole
    exact ⟨m, hmode, fun _ => hN⟩
  · obtain ⟨m, hmode, hm⟩ := exists_keystream_mode hks
    exact ⟨m, hmode, fun hwhole => by simp [hm] at hwhole⟩

/-- A call that may be cut after `A`, and the lengths the calls then have. -/
theorem exists_mode_of_cut {S : Arch} {p : Params} {A B : Bytes}
    (h : WholeBlocks S ∧ A.length % 8 = 0 ∧ B.length % 8 = 0 ∨ KeystreamMode S ∧ p.ksCarry = true) :
    ∃ m, S.mode = some m ∧
      (m.wholeBlocks = true ∧ A.length % 8 = 0 ∨ m.wholeBlocks = false ∧ p.ksCarry = true) ∧
      (m.wholeBlocks = true → A.length % 8 = 0) ∧ (m.wholeBlocks = true → B.length % 8 = 0) ∧
      (m.wholeBlocks = true → (A ++ B).length % 8 = 0) := by
  rcases h with ⟨hwhole, hA, hB⟩ | ⟨hks, hcarry⟩
  · obtain ⟨m, hmode, hm⟩ := exists_wholeBlocks_mode hwhole
    exact ⟨m, hmode, .inl ⟨hm, hA⟩, fun _ => hA, fun _ => hB, fun _ => by rw [List.length_append]; omega⟩
  · obtain ⟨m, hmode, hm⟩ := exists_keystream_mode hks
    exact ⟨m, hmode, .inr ⟨hm, hcarry⟩, by simp [hm], by simp [hm], by simp [hm]⟩

theorem CipherWrites.mode_eq {S T : Arch} {m : Mode} (h : CipherWrites S m T) : T.mode = S.mode := by cases h <;> rfl

theorem Ciphers.transform_mode {i : Instr} {f : Params → Mode → Arch → Bytes → Bytes × Arch} (hi : Ciphers i f)
    (p : Params) {m : Mode} {S : Arch} (In : Bytes) (hmode : S.mode = some m) : (f p m S In).2.mode = some m := by
  cases hi with
  | enc => rw [(encTransform_writes p In hmode).mode_eq, hmode]
  | dec => rw [(decTransform_writes p In hmode).mode_eq, hmode]

/-! ## The statements -/

/-- Settles O39: by the checks of the shared entry rule, in their order. -/
theorem cipherErrors : Obligations.CipherErrors := by
  intro i s hi
  obtain ⟨f, hf⟩ := exists_ciphers hi
  rw [hf.exec_eq]
  refine ⟨cipherCommand_of_overMax f, cipherCommand_of_noContext f, fun hfits hctx hwhole hlen => ?_⟩
  obtain ⟨m, hmode, hm⟩ := exists_wholeBlocks_mode hwhole
  exact cipherCommand_of_partBlock f hfits hctx hmode hm hlen

/-- Settles O45: past the same checks, both transforms are `keystreamCipher`. -/
theorem keystreamModesAreDirectionBlind : Obligations.KeystreamModesAreDirectionBlind := by
  intro s hks
  obtain ⟨m, hmode, hm⟩ := exists_keystream_mode hks
  rw [Ciphers.enc.exec_eq, Ciphers.dec.exec_eq]
  simp only [cipherCommand, hmode, Ciphers.enc.keystream hm, Ciphers.dec.keystream hm]

/-- Settles O40: both transforms map a block function over the input's blocks. -/
theorem ecbWorksBlockByBlock : Obligations.EcbWorksBlockByBlock := fun _ hfits hctx hmode hlen =>
  ⟨Ciphers.enc.exec_map hfits hctx hmode hlen rfl, Ciphers.dec.exec_map hfits hctx hmode hlen rfl⟩

/-- Settles O41: the CBC transforms as chains, whose register is the ciphertext of either direction. -/
theorem cbcChainsBlocks : Obligations.CbcChainsBlocks := fun _ hfits hctx hmode hlen =>
  ⟨Ciphers.enc.exec_chain_takeOutput hfits hctx hmode hlen (encTransform_cbc _ _ _),
    Ciphers.dec.exec_chain_takeInput hfits hctx hmode hlen (decTransform_cbc _ _ _)⟩

/-- Settles O42: as O41, with the one step CFB has for both directions. -/
theorem cfbChainsBlocks : Obligations.CfbChainsBlocks := fun _ hfits hctx hmode hlen =>
  ⟨Ciphers.enc.exec_chain_takeOutput hfits hctx hmode hlen (encTransform_cfb _ _ _),
    Ciphers.dec.exec_chain_takeInput hfits hctx hmode hlen (decTransform_cfb _ _ _)⟩

/-- Settles O46: the transform of `A ‖ B` is the two transforms in turn, and the CTX of the first changes nothing in the
second. -/
theorem oneCallEqualsTwoCalls : Obligations.OneCallEqualsTwoCalls := by
  intro i s A B hi hidle hmax hctx hcase
  obtain ⟨f, hf⟩ := exists_ciphers hi
  obtain ⟨m, hmode, hcut, hA, hB, hAB⟩ := exists_mode_of_cut hcase
  have hfitA : A.length ≤ (A ++ B).length := List.length_append ▸ Nat.le_add_right ..
  have hfitB : B.length ≤ (A ++ B).length := List.length_append ▸ Nat.le_add_left ..
  have hfirst := hf.transact_of_length hidle (fun n hn => hfitA.trans (hmax n hn)) hctx hmode hA
  have hsecond := hf.transact_of_length
    (s := s.answered { (f s.params m s.arch A).2 with ctx := .active } .ok (f s.params m s.arch A).1) rfl
    (fun n hn => hfitB.trans (hmax n hn)) nofun (hf.transform_mode s.params A hmode) hB
  have hboth := hf.transact_of_length hidle hmax hctx hmode hAB
  rw [hf.transform_append s.arch B hcut] at hboth
  rw [answered_arch, answered_params, hf.transform_ctx s.params m (f s.params m s.arch A).2] at hsecond
  exact ⟨_, _, _, _, _, hfirst, hsecond, hboth, rfl⟩

/-- Settles O47: DEC on the second core is DEC from the first's state, which gives the message back and ends where ENC
ended. -/
theorem decryptGivesPlaintextBack : Obligations.DecryptGivesPlaintextBack := by
  intro s1 s2 P hidle1 hidle2 hctx1 hctx2 hsame hparams hmax hrule
  obtain ⟨m, hmode, hlen⟩ := exists_mode_of_lengthRule hrule
  have hmode2 : s2.arch.mode = some m := hsame.mode_eq ▸ hmode
  have hC := Ciphers.enc.length_transform s1.params s1.arch hlen
  obtain ⟨hout, hstate⟩ := hsame.decTransform_same s1.params m (encTransform s1.params m s1.arch P).1
  rw [decTransform_encTransform s1.params s1.arch hlen] at hout hstate
  have hdec := Ciphers.dec.transact_of_length hidle2 (by rw [hC, ← hparams]; exact hmax) hctx2 hmode2
    (by rw [hC]; exact hlen)
  rw [← hparams, ← hout] at hdec
  exact ⟨_, _, _, Ciphers.enc.transact_of_length hidle1 hmax hctx1 hmode hlen, hdec, hstate⟩

/-- Settles O48: the chain before the changed block is the same, and the one after it starts from it as register. -/
theorem decryptErrorsStayLocal : Obligations.DecryptErrorsStayLocal := by
  intro s pre post X X' hidle hctx hmax hmode
  obtain ⟨m, g, hm, hf, hcbc, hcfb⟩ := exists_dec_chain s.params hmode
  obtain ⟨t, ht⟩ := transact_dec_chain hf hidle hctx hm (pre ++ X :: post) hmax
  obtain ⟨t', ht'⟩ := transact_dec_chain hf hidle hctx hm (pre ++ X' :: post) (by simpa using hmax)
  refine ⟨t, t', _, _, ht, ht', by simp, by simp, fun _ => chain_takeInput_elsewhere _ _ _ _ _ _, ?_, ?_⟩
  · intro hmode D D' hD hD'
    rw [chain_takeInput_after, Option.map_eq_some_iff] at hD hD'
    obtain ⟨Y, hY, rfl⟩ := hD
    obtain ⟨Y', hY', rfl⟩ := hD'
    obtain rfl : Y = Y' := Option.some.inj (hY.symm.trans hY')
    rw [hcbc hmode, cbcDecStep, cbcDecStep, xor_comm _ X, xor_comm _ X', xor_common]
  · intro hmode D D' hD hD'
    rw [chain_takeInput_at, Option.some.injEq] at hD hD'
    rw [← hD, ← hD', hcfb hmode, cfbStep, cfbStep, xor_common]

/-- Settles O49: both calls XOR the same keystream, which cancels in the difference, and leave the state of their length. -/
theorem keystreamErrorsStayInTheirByte : Obligations.KeystreamErrorsStayInTheirByte := by
  intro i s A B hi hidle hctx hks hlen hmax
  obtain ⟨f, hf⟩ := exists_ciphers hi
  obtain ⟨m, hmode, hm⟩ := exists_keystream_mode hks
  refine ⟨_, _, _, _, hf.transact_of_length hidle hmax hctx hmode (by simp [hm]),
    hf.transact_of_length hidle (hlen ▸ hmax) hctx hmode (by simp [hm]), ?_, ?_⟩
  · rw [answered_arch, answered_arch, hf.keystream hm, hf.keystream hm, keystreamCipher_state_congr _ _ hlen]
  · rw [hf.keystream hm, hf.keystream hm, keystreamCipher_output, keystreamCipher_output, ← hlen]
    exact zipWith_xor_common _ _ _ (by simp) (by simp [hlen])

end Sys2Proof.Machine
end

section
/-!
SUPPORT. The counter generator (spec/44_counter.md R200 to R204): CTRLD as a command that takes an input of one length,
CTRRST and CTRNXT as the two commands that take no input and need a loaded counter, and a run of CTRNXT as the counter
step iterated.
-/

namespace Sys2Proof.Machine

/-! ## CTRLD, check by check (R200, R254) -/

section ctrld

variable {s : State} {ord : BitVec 2}

theorem exec_ctrld_of_noOrder (hord : 1 < ord.toNat) :
    exec (.ctrld ord) s = .next (s.answeredError .invalidByteOrder) := by
  rw [exec, execCtrld, orderOf?_eq_none.2 hord]
  rfl

theorem exec_ctrld_of_order {o : Order} (hord : orderOf? ord = some o) :
    exec (.ctrld ord) s = exactInput .invalidLength s fun n =>
      s.succeed { s.arch with nonce := n, cord := o, cval := nonceValue n o, ctrv := true } [] := by
  simp only [exec, execCtrld, hord, exactInput]
  cases ofBytes? 8 s.inp <;> rfl

theorem exec_ctrld_of_badLength (hord : ord.toNat ≤ 1) (hlen : overMax s ∨ s.inp.length ≠ 8) :
    exec (.ctrld ord) s = .next (s.answeredError .invalidLength) := by
  obtain ⟨o, ho⟩ := exists_orderOf? hord
  rw [exec_ctrld_of_order ho]
  cases hlong : s.tooLong with
  | true => exact exactInput_of_overMax ((tooLong_iff s).1 hlong)
  | false =>
    have hfits : Fits s := (not_tooLong_iff s).1 hlong
    have hwrong : s.inp.length ≠ 8 := hlen.resolve_left fun hmax => by simp [(tooLong_iff s).2 hmax] at hlong
    exact exactInput_of_wrongLength hfits hwrong

theorem exec_ctrld_of_nonce {o : Order} {n : Block} (hord : orderOf? ord = some o) (hfits : Fits s)
    (hinp : s.inp = n.toList) :
    exec (.ctrld ord) s = .next (s.answered
      { s.arch with nonce := n, cord := o, cval := nonceValue n o, ctrv := true } .ok []) := by
  rw [exec_ctrld_of_order hord, exactInput_of_bytes n hfits hinp, succeed_eq]

end ctrld

/-! ## The commands of a loaded counter (R201, R202) -/

/-- The checks that CTRRST and CTRNXT share, then `r`: MAX_XFER, an empty input, a loaded counter. -/
def counterCommand (s : State) (r : Result) : Result :=
  if s.tooLong then s.fail .invalidLength
  else if s.inp.length ≠ 0 then s.fail .invalidLength
  else if s.arch.ctrv = false then s.fail .invalidState
  else r

theorem exec_ctrrst (s : State) :
    exec .ctrrst s =
      counterCommand s (s.succeed { s.arch with cval := nonceValue s.arch.nonce s.arch.cord } []) := rfl

theorem exec_ctrnxt (s : State) :
    exec .ctrnxt s = counterCommand s (s.succeed s.arch.ctrNext s.arch.ctrBlock.toList) := rfl

section counterCommand

variable {s : State} {r : Result}

/-- The first two checks give one error, so an input fails the command whether it is over MAX_XFER or not. -/
theorem counterCommand_of_input (hinp : s.inp ≠ []) : counterCommand s r = .next (s.answeredError .invalidLength) := by
  have hlen : s.inp.length ≠ 0 := by simpa using hinp
  rw [counterCommand, if_pos hlen, ite_self, fail_eq]

theorem counterCommand_of_unloaded (hinp : s.inp = []) (hctrv : s.arch.ctrv = false) :
    counterCommand s r = .next (s.answeredError .invalidState) := by
  simp [counterCommand, not_tooLong_of_empty hinp, hinp, hctrv, fail_eq]

theorem counterCommand_of_loaded (hinp : s.inp = []) (hctrv : s.arch.ctrv = true) : counterCommand s r = r := by
  simp [counterCommand, not_tooLong_of_empty hinp, hinp, hctrv]

end counterCommand

/-! ## Runs of CTRNXT (R203, R204) -/

/-- The counter after `j` steps: CVAL has moved by `j` modulo 2^64, and nothing else has. -/
theorem iterate_ctrNext (j : Nat) (S : Arch) : Arch.ctrNext^[j] S = { S with cval := S.cval + BitVec.ofNat 64 j } := by
  induction j generalizing S with
  | zero => rw [Function.iterate_zero_apply, BitVec.add_zero]
  | succ j ih => rw [Function.iterate_succ_apply, ih, ctrNext_cval, add_one_add_ofNat]; rfl

theorem transact_ctrld {s : State} {ord : BitVec 2} {o : Order} (hidle : s.cmd = none)
    (hmax : ∀ m, s.params.maxXfer = some m → 8 ≤ m) (hord : orderOf? ord = some o) (n : Block) :
    transact s ⟨encode (.ctrld ord), n.toList⟩ =
      some (s.answered { s.arch with nonce := n, cord := o, cval := nonceValue n o, ctrv := true } .ok [], ⟨.ok, []⟩) := by
  refine transact_decoded hidle (decodeOfEncodeGivesInstruction _ rfl) (exec_ctrld_of_nonce hord (fun m hm => ?_) rfl)
  simpa [State.inp] using hmax m hm

theorem transact_ctrnxt {s : State} (hidle : s.cmd = none) (hctrv : s.arch.ctrv = true) :
    transact s ⟨encode .ctrnxt, []⟩ =
      some (s.answered s.arch.ctrNext .ok s.arch.ctrBlock.toList, ⟨.ok, s.arch.ctrBlock.toList⟩) := by
  refine transact_decoded hidle (decodeOfEncodeGivesInstruction .ctrnxt rfl) ?_
  rw [exec_ctrnxt]
  exact counterCommand_of_loaded (s := { s with cmd := some ⟨encode .ctrnxt, []⟩, resp := none }) rfl hctrv

/-- `k` CTRNXT on a loaded counter: block `j` is that of the counter after `j` steps. -/
theorem session_ctrnxt (k : Nat) {s : State} (hidle : s.cmd = none) (hctrv : s.arch.ctrv = true) :
    ∃ t, session s (List.replicate k ⟨encode .ctrnxt, []⟩) =
        some (t, (List.range k).map fun j => ⟨.ok, (Arch.ctrNext^[j] s.arch).ctrBlock.toList⟩) ∧
      t.arch = Arch.ctrNext^[k] s.arch := by
  induction k generalizing s with
  | zero => exact ⟨s, rfl, rfl⟩
  | succ k ih =>
    obtain ⟨t, hsession, harch⟩ := ih (s := s.answered s.arch.ctrNext .ok s.arch.ctrBlock.toList) rfl hctrv
    refine ⟨t, session_cons.2 ⟨_, _, _, transact_ctrnxt hidle hctrv, hsession, ?_⟩, harch⟩
    rw [List.range_succ_eq_map, List.map_cons, List.map_map]
    rfl

theorem nonceValue_add_toNat (n : Block) (o : Order) (j : Nat) :
    (nonceValue n o + BitVec.ofNat 64 j).toNat = (fromBytes n.toList o + j) % 2 ^ 64 := by
  rw [nonceValue, ← BitVec.ofNat_add, BitVec.toNat_ofNat]

/-- The nonce's value is below 2^64, and its eight bytes in the same order are the nonce. -/
theorem toBytes_nonce (n : Block) (o : Order) : (toBytes (fromBytes n.toList o % 2 ^ 64) 8 o).toList = n.toList := by
  have hlt := fromBytes_lt n.toList o
  rw [n.len] at hlt
  rw [Nat.mod_eq_of_lt hlt, toBytes_fromBytes_toList n.len]

/-! ## The statements -/

/-- Settles O53: the counter CTRLD loads is stepped by each CTRNXT, and its value after `j` steps is the nonce's plus
`j`, for the blocks as for the counter left at the end. -/
theorem counterBlocksCountFromNonce : Obligations.CounterBlocksCountFromNonce := by
  intro s n ord o k hidle hmax hord
  have hload := transact_ctrld hidle hmax (orderOf?_eq_some.2 hord) n
  obtain ⟨t, hrun, harch⟩ := session_ctrnxt k
    (s := s.answered { s.arch with nonce := n, cord := o, cval := nonceValue n o, ctrv := true } .ok []) rfl rfl
  simp only [answered_arch, iterate_ctrNext, Arch.ctrBlock, nonceValue_add_toNat] at hrun harch
  refine ⟨t, _, session_cons.2 ⟨_, _, _, hload, hrun, rfl⟩, by simp, fun j hj => by simp [hj], fun hk => ?_, ?_⟩
  · rw [List.getElem?_map, List.getElem?_range hk, Option.map_some, Nat.add_zero, toBytes_nonce]
  · rw [harch, nonceValue_add_toNat]

/-- Settles O50: the byte order is checked before the length, and an input of 8 bytes is the nonce. -/
theorem ctrldLoadsCounter : Obligations.CtrldLoadsCounter :=
  fun _ _ => ⟨exec_ctrld_of_noOrder, exec_ctrld_of_badLength, fun _ _ hfits hinp hord =>
    exec_ctrld_of_nonce (orderOf?_eq_some.2 hord) hfits hinp⟩

/-- Settles O51: the checks of a loaded counter, then the rewind. -/
theorem ctrrstRewindsCounter : Obligations.CtrrstRewindsCounter := by
  intro s
  rw [exec_ctrrst]
  exact ⟨counterCommand_of_input, counterCommand_of_unloaded, counterCommand_of_loaded⟩

/-- Settles O52: the checks of a loaded counter, then the block and the counter step. -/
theorem ctrnxtGivesCounterBlock : Obligations.CtrnxtGivesCounterBlock := by
  intro s
  rw [exec_ctrnxt]
  exact ⟨counterCommand_of_input, counterCommand_of_unloaded, counterCommand_of_loaded⟩

end Sys2Proof.Machine
end

section
/-!
SUPPORT. CMAC subkeys (spec/45_cmac.md R220 to R222): doubling as arithmetic and as an injection, and CMACSK as a command
that takes an input of one length.
-/

namespace Sys2Proof.Machine

/-! ## Doubling (R220) -/

theorem getLsbD_63_iff (x : DWord) : x.getLsbD 63 = true ↔ 2 ^ 63 ≤ x.toNat := by
  have hmsb : x.getLsbD 63 = x.msb := (BitVec.msb_eq_getLsbD_last x).symm
  rw [hmsb, BitVec.msb_eq_decide, decide_eq_true_iff]

theorem dbl_of_top {x : DWord} (h : x.getLsbD 63 = true) : dbl x = x <<< 1 ^^^ 0x1B := if_pos h

theorem dbl_of_noTop {x : DWord} (h : x.getLsbD 63 = false) : dbl x = x <<< 1 := if_neg (Bool.eq_false_iff.1 h)

theorem dbl_toNat (x : DWord) :
    (dbl x).toNat = if x.toNat < 2 ^ 63 then 2 * x.toNat else (2 * x.toNat - 2 ^ 64) ^^^ 0x1B := by
  have hlt := x.isLt
  have hshift : (x <<< 1).toNat = 2 * x.toNat % 2 ^ 64 := by
    rw [BitVec.toNat_shiftLeft, Nat.shiftLeft_eq, Nat.pow_one, Nat.mul_comm]
  cases htop : x.getLsbD 63 with
  | false =>
    have hsmall : x.toNat < 2 ^ 63 := by
      rw [← Nat.not_le, ← getLsbD_63_iff, htop]
      decide
    rw [if_pos hsmall, dbl_of_noTop htop, hshift, Nat.mod_eq_of_lt (by omega)]
  | true =>
    have hlarge : 2 ^ 63 ≤ x.toNat := (getLsbD_63_iff x).1 htop
    have hmod : 2 * x.toNat % 2 ^ 64 = 2 * x.toNat - 2 ^ 64 := by omega
    rw [if_neg (by omega), dbl_of_top htop, BitVec.toNat_xor, hshift, hmod]
    rfl

/-- The shift leaves bit 0 clear and 0x1B is odd, so bit 0 of the double shows which branch was taken. -/
theorem dbl_getLsbD_0 (x : DWord) : (dbl x).getLsbD 0 = x.getLsbD 63 := by
  cases htop : x.getLsbD 63 with
  | false => simp [dbl_of_noTop htop]
  | true => simp [dbl_of_top htop]

/-- Only the top bit falls out of a shift by one. -/
theorem eq_of_shiftLeft_one_eq {x y : DWord} (htop : x.getLsbD 63 = y.getLsbD 63) (h : x <<< 1 = y <<< 1) : x = y := by
  refine BitVec.eq_of_getLsbD_eq fun i hi => ?_
  by_cases hlast : i = 63
  · rw [hlast, htop]
  · have hbit := congrArg (BitVec.getLsbD · (i + 1)) h
    have hin : i + 1 < 64 := by omega
    simpa [hi, hin] using hbit

theorem dbl_injective : Function.Injective dbl := fun x y h => by
  have htop : x.getLsbD 63 = y.getLsbD 63 := by rw [← dbl_getLsbD_0, h, dbl_getLsbD_0]
  refine eq_of_shiftLeft_one_eq htop ?_
  cases hx : x.getLsbD 63 with
  | false => rwa [dbl_of_noTop hx, dbl_of_noTop (htop ▸ hx)] at h
  | true => rwa [dbl_of_top hx, dbl_of_top (htop ▸ hx), BitVec.xor_left_inj] at h

/-! ## Subkeys and CMACSK (R221, R222) -/

theorem subkeys_eq (KB : Key) : subkeys KB = (dbl (cmacL KB), dbl (dbl (cmacL KB))) := rfl

theorem eq_cmacL_of_toNat {KB : Key} {L : DWord}
    (h : L.toNat = fromBytes (eBlk KB (.zero 8) Config.cmacCycles .big).toList .big) : L = cmacL KB := by
  rw [cmacL, ← h, BitVec.ofNat_toNat, BitVec.setWidth_eq]

/-- A subkey is the integer of the bytes CMACSK emits for it. -/
theorem ofNat_fromBytes_subkeyBytes (K : DWord) : BitVec.ofNat 64 (fromBytes (subkeyBytes K).toList .big) = K := by
  rw [subkeyBytes, fromBytes_toBytes_of_lt K.isLt, BitVec.ofNat_toNat, BitVec.setWidth_eq]

/-- What CMACSK emits: `K1 ‖ K2`. -/
def cmacskOut (KB : Key) : Bytes := (subkeyBytes (subkeys KB).1).toList ++ (subkeyBytes (subkeys KB).2).toList

theorem exec_cmacsk (s : State) :
    exec .cmacsk s = exactInput .invalidKeyLength s fun KB => s.succeed s.arch (cmacskOut KB) := by
  simp only [exec, execCmacsk, exactInput]
  cases ofBytes? 16 s.inp <;> rfl

/-! ## The statements -/

/-- Settles O55: the top bit, which a shift drops, is bit 0 of the double, so doubling is injective, and a map of the
64-bit values to themselves is then bijective. -/
theorem doublingIsBijective : Obligations.DoublingIsBijective := by
  refine ⟨dbl_toNat, Finite.injective_iff_bijective.1 dbl_injective, fun A B hL => ?_⟩
  simp only [subkeys_eq]
  exact ⟨dbl_injective.ne hL, dbl_injective.ne (dbl_injective.ne hL)⟩

/-- Settles O54: CMACSK takes exactly 16 bytes and answers their subkeys. -/
theorem cmacskGivesSubkeys : Obligations.CmacskGivesSubkeys := by
  intro s
  rw [exec_cmacsk]
  refine ⟨exactInput_of_overMax, exactInput_of_wrongLength, fun KB L hfits hinp hL => ?_⟩
  rw [exactInput_of_bytes KB hfits hinp, succeed_eq, eq_cmacL_of_toNat hL]
  rfl

end Sys2Proof.Machine
end

section
/-!
SUPPORT. The MAC compositions as functions (spec/45_cmac.md R223 to R229): the parts of a message by its blocks, the blocks
CMAC makes of it, and the chain of the block cipher over them.
-/

namespace Sys2Proof.Machine

/-! ## The parts of a string (R8) -/

theorem sub_append_left_of_length {A B : Bytes} {n : Nat} (h : A.length = n) : sub (A ++ B) 0 n = A := by
  rw [sub, List.drop_zero, Nat.sub_zero, ← h, List.take_left]

theorem sub_append_right_of_length {A B : Bytes} {n k : Nat} (hn : A.length = n) (hk : A.length + B.length = k) :
    sub (A ++ B) n k = B := by
  rw [sub, ← hn, List.drop_left, List.take_of_length_le (by omega)]

theorem sub_last_block (Ms : List Block) (M : Block) :
    sub (unblocks (Ms ++ [M])) ((unblocks (Ms ++ [M])).length - 8) (unblocks (Ms ++ [M])).length = M.toList := by
  have hM : unblocks [M] = M.toList := List.append_nil _
  rw [unblocks_append, hM]
  exact sub_append_right_of_length (by simp) (by simp)

theorem xor_zero_left {n : Nat} (A : ByteVec n) : xor (.zero n) A = A := by
  ext1
  exact List.ext_getElem (by simp) (by simp)

/-! ## The blocks of CMAC (R225) -/

theorem cmacBlocks_whole (K1 K2 : DWord) (Ms : List Block) (M : Block) :
    cmacBlocks K1 K2 (unblocks (Ms ++ [M])) = Ms ++ [xor M (subkeyBytes K1)] := by
  have hlen : (unblocks (Ms ++ [M])).length = 8 * (Ms.length + 1) := by
    rw [length_unblocks, List.length_append, List.length_singleton]
  have hfirst : sub (unblocks (Ms ++ [M])) 0 ((unblocks (Ms ++ [M])).length - 8) = unblocks Ms := by
    rw [hlen, unblocks_append]
    exact sub_append_left_of_length (by simp; omega)
  rw [cmacBlocks, dif_pos ⟨by omega, by omega⟩]
  simp only [hfirst, sub_last_block, blocks_unblocks]

theorem cmacBlocks_tail (K1 K2 : DWord) (Ms : List Block) {T : Bytes} (hT : T.length < 8) (htail : T ≠ [] ∨ Ms = []) :
    cmacBlocks K1 K2 (unblocks Ms ++ T) = Ms ++ [xor (padBlock T hT) (subkeyBytes K2)] := by
  have hlen : (unblocks Ms ++ T).length = 8 * Ms.length + T.length := by simp
  have hdiv : 8 * ((unblocks Ms ++ T).length / 8) = 8 * Ms.length := by omega
  have hragged : ¬ (0 < (unblocks Ms ++ T).length ∧ (unblocks Ms ++ T).length % 8 = 0) := by
    rintro ⟨hpos, hmod⟩
    have hnil : T = [] := List.eq_nil_of_length_eq_zero (by omega)
    rcases htail with h | rfl
    · exact h hnil
    · simp [hnil] at hpos
  have hfirst : sub (unblocks Ms ++ T) 0 (8 * ((unblocks Ms ++ T).length / 8)) = unblocks Ms := by
    rw [hdiv]
    exact sub_append_left_of_length (length_unblocks Ms)
  have hlast : sub (unblocks Ms ++ T) (8 * ((unblocks Ms ++ T).length / 8)) (unblocks Ms ++ T).length = T := by
    rw [hdiv]
    exact sub_append_right_of_length (length_unblocks Ms) List.length_append.symm
  rw [cmacBlocks, dif_neg hragged]
  simp only [hfirst, hlast, blocks_unblocks]

/-- CMAC always has a last block, for the empty message too. -/
theorem exists_cmacBlocks_last (K1 K2 : DWord) (M : Bytes) : ∃ Ms X, cmacBlocks K1 K2 M = Ms ++ [X] := by
  unfold cmacBlocks
  split <;> exact ⟨_, _, rfl⟩

/-! ## The chain (R225, R229) -/

theorem macChain_append_singleton (KB : Key) (Ms : List Block) (M : Block) :
    macChain KB (Ms ++ [M]) = eBlk KB (xor (macChain KB Ms) M) 32 .big := by
  rw [macChain, List.foldl_append]
  rfl

theorem macChain_singleton (KB : Key) (M : Block) : macChain KB [M] = eBlk KB M 32 .big := by
  have h := macChain_append_singleton KB [] M
  rwa [macChain_nil, xor_zero_left] at h

theorem cbcMac_of_whole (KB : Key) {M : Bytes} (hlen : M.length % 8 = 0) (hne : M ≠ []) :
    cbcMac KB M = .ok (macChain KB (blocks M)) := if_pos (cbcMacTakes_iff.2 ⟨hlen, hne⟩)

/-- CBC-MAC of one or more blocks. -/
theorem cbcMac_unblocks (KB : Key) (M : Block) (Ms : List Block) :
    cbcMac KB (unblocks (M :: Ms)) = .ok (macChain KB (M :: Ms)) := by
  have hlen : (unblocks (M :: Ms)).length = 8 * (Ms.length + 1) := by rw [length_unblocks, List.length_cons]
  rw [cbcMac_of_whole KB (by omega) (List.ne_nil_of_length_pos (by omega)), blocks_unblocks]

theorem not_cbcMacTakes {M : Bytes} (h : M.length % 8 ≠ 0 ∨ M = []) : ¬ cbcMacTakes M = true := by
  rw [cbcMacTakes_iff]
  exact fun ⟨hlen, hne⟩ => h.elim (· hlen) hne

/-! ## The CMAC object (R223 to R227) -/

theorem cmacNew_key (KB : Key) : cmacNew KB.toList = .ok ⟨KB, (subkeys KB).1, (subkeys KB).2, [], false⟩ := by
  rw [cmacNew, ofBytes?_toList]

section object

variable {c : CmacObject}

theorem CmacObject.update_of_open (hfin : c.fin = false) (B : Bytes) :
    c.update B = .ok { c with msg := c.msg ++ B } := if_neg (Bool.eq_false_iff.1 hfin)

theorem CmacObject.final_of_open (hfin : c.fin = false) :
    c.final = .ok (macChain c.kb (cmacBlocks c.k1 c.k2 c.msg), { c with fin := true }) := if_neg (Bool.eq_false_iff.1 hfin)

theorem CmacObject.final_of_finished (hfin : c.fin = true) : c.final = .error .invalidState := if_pos hfin

theorem CmacObject.hexDigest_of_final {X : Block} {d : CmacObject} (h : c.final = .ok (X, d)) :
    c.hexDigest = .ok (String.ofList (hexOf X.toList), d) := by
  rw [hexDigest, h]

end object

theorem hexDigit_eq {n : Nat} (h : n < 16) : hexDigit n = "0123456789abcdef".toList.getD n '?' := by
  revert n; decide

theorem hexOf_eq (B : Bytes) : hexOf B = B.flatMap fun b =>
    ["0123456789abcdef".toList.getD (b.toNat / 16) '?', "0123456789abcdef".toList.getD (b.toNat % 16) '?'] := by
  refine List.flatMap_congr fun b _ => ?_
  have hb := b.isLt
  rw [hexDigit_eq (by omega), hexDigit_eq (by omega)]

theorem length_hexOf (B : Bytes) : (hexOf B).length = 2 * B.length := by
  simp [hexOf, List.length_flatMap, Nat.mul_comm]

/-! ## The statements -/

/-- Settles O59: the two branches of R225, by the blocks and the tail of the message. -/
theorem cmacPadsLastBlock : Obligations.CmacPadsLastBlock := by
  refine ⟨cmacBlocks_whole, fun K1 K2 Ms T M hT htail hM => ?_⟩
  have hpad : M = padBlock T hT := by
    ext1
    rw [hM, List.append_assoc]
    rfl
  rw [cmacBlocks_tail K1 K2 Ms hT htail, hpad]
  rfl

/-- Settles O60: in the forgery the second step XORs the tag `t` with `m ^ t`, which is `m` again. -/
theorem cbcMacForgery : Obligations.CbcMacForgery := by
  refine ⟨fun KB M h => if_neg (not_cbcMacTakes h), fun KB M => cbcMac_of_whole KB, macChain_nil,
    macChain_append_singleton, fun KB m => ⟨eBlk KB m 32 .big, ?_, ?_⟩⟩
  · have htag := cbcMac_unblocks KB m []
    rwa [unblocks_cons, unblocks_nil, List.append_nil, macChain_singleton] at htag
  · have htag := cbcMac_unblocks KB m [xor m (eBlk KB m 32 .big)]
    have hforged : macChain KB ([m] ++ [xor m (eBlk KB m 32 .big)]) = eBlk KB m 32 .big := by
      rw [macChain_append_singleton, macChain_singleton, xor_comm m, xor_self_left]
    rwa [unblocks_cons, unblocks_cons, unblocks_nil, List.append_nil, ← List.singleton_append, hforged] at htag

/-- Settles O58: by the equations of the object's functions before and after FIN is set. -/
theorem cmacObjectLife : Obligations.CmacObjectLife := by
  refine ⟨fun key hlen => ?_, cmacNew_key, fun c B hfin => c.update_of_open hfin B, fun c hfin => ?_, fun c B hfin => ?_⟩
  · rw [cmacNew, ofBytes?_eq_none.2 hlen]
  · have hfinal := c.final_of_open hfin
    refine ⟨hfinal, _, c.hexDigest_of_final hfinal, ?_, ?_⟩
    · rw [String.toList_ofList, length_hexOf, length_toList]
    · rw [String.toList_ofList, hexOf_eq]
  · have hfinal := c.final_of_finished hfin
    exact ⟨if_pos hfin, hfinal, by rw [CmacObject.hexDigest, hfinal]⟩

end Sys2Proof.Machine
end

section
/-!
SUPPORT. The MAC compositions run on the core (spec/45_cmac.md R226, R229): by CMACSK and BENC, and by a CBC context.
-/

namespace Sys2Proof.Machine

/-! ## A command that takes an input of one length, as a transaction -/

/-- A command whose rule is an exact input, issued with it on an idle core that takes so many bytes. -/
theorem transact_exactInput {i : Instr} {n : Nat} {e : Error} {S : Arch → ByteVec n → Arch} {out : ByteVec n → Bytes}
    (hi : ∀ s, exec i s = exactInput e s fun V => s.succeed (S s.arch V) (out V)) (hwf : i.wellFormed = true) {s : State}
    (hidle : s.cmd = none) (hmax : ∀ m, s.params.maxXfer = some m → n ≤ m) (V : ByteVec n) :
    transact s ⟨encode i, V.toList⟩ = some (s.answered (S s.arch V) .ok (out V), ⟨.ok, out V⟩) := by
  refine transact_decoded hidle (decodeOfEncodeGivesInstruction i hwf) ?_
  rw [hi, exactInput_of_bytes V (fun m hm => ?_) rfl]
  · rfl
  · simpa [State.inp] using hmax m hm

/-! ## CMACSK and BENC (R226) -/

/-- One CMACSK on such a core: the subkeys, and no field of R23 changed. -/
theorem subkeysOnCore_eq {s : State} (hidle : s.cmd = none) (hmax : ∀ m, s.params.maxXfer = some m → 16 ≤ m)
    (KB : Key) : subkeysOnCore s KB = some (s.answered s.arch .ok (cmacskOut KB), subkeys KB) := by
  have hcmacsk : transact s ⟨0x0000000B, KB.toList⟩ = _ :=
    transact_exactInput (i := .cmacsk) (S := fun S _ => S) exec_cmacsk rfl hidle hmax KB
  have hK1 : sub (cmacskOut KB) 0 8 = (subkeyBytes (subkeys KB).1).toList := sub_append_left_of_length (ByteVec.len _)
  have hK2 : sub (cmacskOut KB) 8 16 = (subkeyBytes (subkeys KB).2).toList :=
    sub_append_right_of_length (ByteVec.len _) (by simp)
  simp only [subkeysOnCore, hcmacsk, hK1, hK2, ofNat_fromBytes_subkeyBytes]

section benc

variable {s : State} (hidle : s.cmd = none) (hmax : ∀ m, s.params.maxXfer = some m → 24 ≤ m)
include hidle hmax

/-- The chain of R226 from the zero block is the tag, and the core is idle again with no field of R23 changed. -/
theorem chainOnCore_tag (KB : Key) (Ms : List Block) :
    ∃ t, chainOnCore KB s (.zero 8) Ms = some (t, macChain KB Ms) ∧ t.arch = s.arch ∧ t.cmd = none := by
  obtain ⟨t, hchain, harch, -, hcmd⟩ := chainOnCore_eq KB Ms (.zero 8) hidle hmax
  exact ⟨t, hchain, harch, hcmd⟩

theorem cmacOnCore_tag (KB : Key) (M : Bytes) :
    ∃ t, cmacOnCore s KB M = some (t, macChain KB (cmacBlocks (subkeys KB).1 (subkeys KB).2 M)) ∧
      t.arch = s.arch ∧ t.cmd = none := by
  have hsubkeys := subkeysOnCore_eq hidle (fun m hm => le_trans (by decide) (hmax m hm)) KB
  obtain ⟨t, hchain, hkeeps⟩ := chainOnCore_tag (s := s.answered s.arch .ok (cmacskOut KB)) rfl hmax KB
    (cmacBlocks (subkeys KB).1 (subkeys KB).2 M)
  refine ⟨t, ?_, hkeeps⟩
  rw [cmacOnCore, hsubkeys]
  exact hchain

theorem CmacObject.finalOnCore_of_open {c : CmacObject} (hfin : c.fin = false) :
    ∃ t, c.finalOnCore s = .ok (some (t, macChain c.kb (cmacBlocks c.k1 c.k2 c.msg), { c with fin := true })) ∧
      t.arch = s.arch ∧ t.cmd = none := by
  obtain ⟨t, hchain, hkeeps⟩ := chainOnCore_tag hidle hmax c.kb (cmacBlocks c.k1 c.k2 c.msg)
  refine ⟨t, ?_, hkeeps⟩
  rw [finalOnCore, if_neg (Bool.eq_false_iff.1 hfin), hchain]
  rfl

theorem cbcMacOnCore_of_whole (KB : Key) {M : Bytes} (hlen : M.length % 8 = 0) (hne : M ≠ []) :
    ∃ t, cbcMacOnCore s KB M = .ok (some (t, macChain KB (blocks M))) ∧ t.arch = s.arch ∧ t.cmd = none := by
  obtain ⟨t, hchain, hkeeps⟩ := chainOnCore_tag hidle hmax KB (blocks M)
  refine ⟨t, ?_, hkeeps⟩
  rw [cbcMacOnCore, if_pos (cbcMacTakes_iff.2 ⟨hlen, hne⟩), hchain]

end benc

theorem cmacNewOnCore_key {s : State} (hidle : s.cmd = none) (hmax : ∀ m, s.params.maxXfer = some m → 16 ≤ m)
    (KB : Key) : cmacNewOnCore s KB.toList =
      .ok (some (s.answered s.arch .ok (cmacskOut KB), ⟨KB, (subkeys KB).1, (subkeys KB).2, [], false⟩)) := by
  simp only [cmacNewOnCore, ofBytes?_toList, subkeysOnCore_eq hidle hmax]
  rfl

theorem CmacObject.hexDigestOnCore_of_final {c d : CmacObject} {s t : State} {X : Block}
    (h : c.finalOnCore s = .ok (some (t, X, d))) :
    c.hexDigestOnCore s = .ok (some (t, String.ofList (hexOf X.toList), d)) := by
  rw [hexDigestOnCore, h]
  rfl

/-! ## A CBC context (R226, R175) -/

/-- The register CBC encryption leaves is the fold of the block cipher, which from the zero block is the MAC chain. -/
theorem cbcEnc_register (E : Block → Block) (fb : Block) (Xs : List Block) :
    (cbcEnc E fb Xs).2 = Xs.foldl (fun X M => E (xor X M)) fb := by
  induction Xs generalizing fb with
  | nil => rfl
  | cons X Xs ih => rw [cbcEnc, ih, List.foldl_cons, xor_comm]

/-- The last block of a CBC ciphertext is the register it leaves. -/
theorem sub_last_cbcEnc (E : Block → Block) (fb : Block) {Xs : List Block} (hne : Xs ≠ []) :
    sub (unblocks (cbcEnc E fb Xs).1) ((unblocks (cbcEnc E fb Xs).1).length - 8) (unblocks (cbcEnc E fb Xs).1).length =
      (cbcEnc E fb Xs).2.toList := by
  have hout : (cbcEnc E fb Xs).1 ≠ [] := by simpa [← List.length_pos_iff] using hne
  obtain ⟨Cs, C, hC⟩ := (List.eq_nil_or_concat' _).resolve_left hout
  have hreg : (cbcEnc E fb Xs).2 = C := by
    rw [cbcEnc_eq_chain] at hC ⊢
    rw [chain_takeOutput_register, hC, List.getLast?_concat, Option.getD_some]
  rw [hC, hreg, sub_last_block]

/-- The context of R226 before its ENC: key `KB`, mode CBC, a zero register, big-endian and 64 rounds. -/
def macContext (KB : Key) (S : Arch) : Arch :=
  initContext .cbc .big 64 { S with kstg := KB, kstgv := true, ivstg := .zero 8, ivstgv := true }

theorem macContext_eCtx (KB : Key) (S : Arch) : (macContext KB S).eCtx = fun X => eBlk KB X Config.cmacCycles .big := by
  have hcycles : (macContext KB S).cycles = Config.cmacCycles := by
    show (64 : BitVec 16).toNat / 2 = 32
    decide
  funext X
  rw [Arch.eCtx, hcycles]
  rfl

/-- The register its ENC leaves is the MAC chain. -/
theorem cbcEnc_macContext_register (KB : Key) (S : Arch) (Xs : List Block) :
    (cbcEnc (macContext KB S).eCtx (.zero 8) Xs).2 = macChain KB Xs := by
  rw [cbcEnc_register, macContext_eCtx, macChain]

/-- ENC of whole blocks in that context, on an idle core with no bound. -/
theorem transact_enc_macContext {s : State} {KB : Key} {S : Arch} (hidle : s.cmd = none) (hmax : s.params.maxXfer = none)
    (harch : s.arch = macContext KB S) (Xs : List Block) :
    ∃ t, transact s ⟨encode .enc, unblocks Xs⟩ =
        some (t, ⟨.ok, unblocks (cbcEnc (macContext KB S).eCtx (.zero 8) Xs).1⟩) ∧
      t.arch = { macContext KB S with fb := macChain KB Xs, ctx := .active } := by
  have hmode : s.arch.mode = some .cbc := by rw [harch]; rfl
  have henc := Ciphers.enc.transact_of_length (In := unblocks Xs) hidle (by simp [hmax]) (by rw [harch]; nofun) hmode
    (by simp)
  rw [harch, encTransform, blocks_unblocks] at henc
  refine ⟨_, henc, ?_⟩
  rw [← cbcEnc_macContext_register KB S]
  rfl

/-- LDKEY, LDIV of zeros and INIT CBC on an idle core succeed and build that context; the ENC after them answers in it. -/
theorem session_cbcContextRequests {s t : State} {KB : Key} {Xs : List Block} {a : Response} (hidle : s.cmd = none)
    (hmax : s.params.maxXfer = none)
    (henc : transact (s.answered (macContext KB s.arch) .ok []) ⟨encode .enc, unblocks Xs⟩ = some (t, a)) :
    session s (cbcContextRequests KB Xs) = some (t, [⟨.ok, []⟩, ⟨.ok, []⟩, ⟨.ok, []⟩, a]) := by
  have hldkey := transact_exactInput (S := fun S k => { S with kstg := k, kstgv := true }) (out := fun _ => []) exec_ldkey
    rfl hidle (by simp [hmax]) KB
  have hldiv := transact_exactInput (S := fun S v => { S with ivstg := v, ivstgv := true }) (out := fun _ => []) exec_ldiv
    rfl (s := s.answered { s.arch with kstg := KB, kstgv := true } .ok []) rfl (by simp [hmax]) (.zero 8)
  have hinit := transact_decoded (r := ⟨encode (.init 2 0 0), []⟩)
    (s := s.answered { s.arch with kstg := KB, kstgv := true, ivstg := .zero 8, ivstgv := true } .ok []) rfl
    (decodeOfEncodeGivesInstruction (.init 2 0 0) rfl)
    (exec_init_of_staged (o := .big) (m := .cbc) rfl rfl rfl rfl rfl (fun _ => rfl) nofun)
  have hfourth := session_cons.2 ⟨_, _, _, henc, session_nil t, rfl⟩
  have hthird := session_cons.2 ⟨_, _, _, hinit, hfourth, rfl⟩
  exact session_cons.2 ⟨_, _, _, hldkey, session_cons.2 ⟨_, _, _, hldiv, hthird, rfl⟩, rfl⟩

/-! ## The statements -/

/-- Settles O56: CMACSK gives the object's subkeys and each BENC one step of its chain; both leave every field of R23. -/
theorem cmacOnCoreGivesTag : Obligations.CmacOnCoreGivesTag := by
  refine ⟨fun s KB M hidle hmax => ?_, fun s KB M h => if_neg (not_cbcMacTakes h),
    fun s KB M hidle hmax hlen hne => ?_⟩
  · obtain ⟨t, htag, harch, hcmd⟩ := cmacOnCore_tag hidle hmax KB M
    have hnew := cmacNewOnCore_key hidle (fun m hm => le_trans (by decide) (hmax m hm)) KB
    refine ⟨_, _, _, _, t, cmacNew_key KB, CmacObject.update_of_open rfl M, CmacObject.final_of_open rfl, htag, harch,
      hcmd, ⟨_, hnew, rfl, rfl⟩, fun v hvidle hvmax => ?_⟩
    obtain ⟨w, hfinal, hwarch, hwcmd⟩ := CmacObject.finalOnCore_of_open hvidle hvmax
      (c := ⟨KB, (subkeys KB).1, (subkeys KB).2, M, false⟩) rfl
    exact ⟨w, _, hfinal, CmacObject.hexDigestOnCore_of_final hfinal,
      CmacObject.hexDigest_of_final (CmacObject.final_of_open rfl), hwarch, hwcmd⟩
  · obtain ⟨t, htag, harch, hcmd⟩ := cbcMacOnCore_of_whole hidle hmax KB hlen hne
    exact ⟨t, _, htag, cbcMac_of_whole KB hlen hne, harch, hcmd⟩

/-- Settles O57: ENC in the context the first three commands build leaves the MAC chain in its register, which is the last
block of its output. -/
theorem cbcContextGivesSameTag : Obligations.CbcContextGivesSameTag := by
  intro s KB M hidle hmax
  obtain ⟨Ms, X, hblocks⟩ := exists_cmacBlocks_last (subkeys KB).1 (subkeys KB).2 M
  generalize cmacBlocks (subkeys KB).1 (subkeys KB).2 M = Xs at hblocks ⊢
  obtain ⟨t, henc, harch⟩ := transact_enc_macContext (s := s.answered (macContext KB s.arch) .ok []) rfl hmax rfl Xs
  have hsession := session_cbcContextRequests hidle hmax henc
  have hne : Xs ≠ [] := by simp [hblocks]
  have htag : tagByCbcContext s KB Xs = some (t, macChain KB Xs) := by
    simp only [tagByCbcContext, hsession, sub_last_cbcEnc _ _ hne, ofBytes?_toList, cbcEnc_macContext_register]
    rfl
  exact ⟨t, htag, by rw [harch]; exact ⟨rfl, rfl, rfl⟩⟩

end Sys2Proof.Machine
end

section
/-!
SUPPORT. The error checks of a command in their order (spec/60_exceptions.md R254): every command ends by its list of
checks, with the error of the first that applies or, when none does, with OK and an output of its length (R59, R82); and
each check of the list is a cause of its error (R251).
-/

namespace Sys2Proof.Machine

/-! ## Ending by a list of checks -/

/-- How a command ends in `s` by a list of checks: with the error of the first that applies, with OK and an output of `N`
bytes when none does, or in the stop of a context without a mode. -/
inductive EndsBy (s : State) (N : Nat) : List (Prop × Error) → Result → Prop
  | fail {P : Prop} {e : Error} {rest : List (Prop × Error)} (hP : P) :
      EndsBy s N ((P, e) :: rest) (.next (s.answeredError e))
  | pass {P : Prop} {e : Error} {rest : List (Prop × Error)} {r : Result} (hP : ¬ P) (h : EndsBy s N rest r) :
      EndsBy s N ((P, e) :: rest) r
  | ok (S : Arch) {out : Bytes} (hlen : out.length = N) : EndsBy s N [] (.next (s.answered S .ok out))
  | stop (checks : List (Prop × Error)) : EndsBy s N checks (.fault .contextWithoutMode)

namespace EndsBy

variable {s : State} {N : Nat} {P : Prop} {e : Error} {checks rest : List (Prop × Error)} {r : Result}

/-- One check of a command: what it answers when the check applies, and how it ends by the later ones when not. -/
theorem check (hfail : P → r = .next (s.answeredError e)) (hpass : ¬ P → EndsBy s N rest r) :
    EndsBy s N ((P, e) :: rest) r := by
  by_cases hP : P
  · rw [hfail hP]
    exact .fail hP
  · exact .pass hP (hpass hP)

theorem eq_of_firstError (h : EndsBy s N checks r) (hstop : r ≠ .fault .contextWithoutMode)
    (he : FirstError e checks) : r = .next (s.answeredError e) := by
  induction h with
  | fail hP =>
    obtain ⟨-, rfl⟩ | ⟨hnot, -⟩ := he
    · rfl
    · exact absurd hP hnot
  | pass hP _ ih => exact ih hstop (he.resolve_left fun h => hP h.1).2
  | ok => exact he.elim
  | stop => exact absurd rfl hstop

theorem succeeds_of_noError (h : EndsBy s N checks r) (hstop : r ≠ .fault .contextWithoutMode) (hno : NoError checks) :
    ∃ S out, r = .next (s.answered S .ok out) ∧ out.length = N := by
  induction h with
  | fail hP => exact absurd hP hno.1
  | pass _ _ ih => exact ih hstop hno.2
  | ok S hlen => exact ⟨S, _, rfl, hlen⟩
  | stop => exact absurd rfl hstop

/-- An error that is answered is that of a check that applies. -/
theorem exists_check_of_failed (h : EndsBy s N checks r) {t : State} {out : Bytes} (ht : r = .next t)
    (hresp : t.resp = some ⟨.failed e, out⟩) : ∃ c ∈ checks, c.1 ∧ c.2 = e := by
  induction h with
  | fail hP =>
    cases ht
    cases hresp
    exact ⟨_, List.mem_cons_self, hP, rfl⟩
  | pass _ _ ih =>
    obtain ⟨c, hmem, hc⟩ := ih ht
    exact ⟨c, List.mem_cons_of_mem _ hmem, hc⟩
  | ok =>
    cases ht
    cases hresp
  | stop => cases ht

/-! ## The checks on the command word and the input, which commands share -/

/-- The checks of R254 after those of the command word: its steps 5 to 7. -/
def lengthAndStateChecks (i : Instr) (s : State) : List (Prop × Error) := (errorChecks i s).drop 4

/-- A command whose word has no field that can be at fault reaches its length check. -/
theorem of_noOperand {i : Instr} (hreg : ∀ reg, i ≠ .rdreg reg) (hord : ordOperand? i = none)
    (hinit : ∀ m o r, i ≠ .init m o r) (h : EndsBy s N (lengthAndStateChecks i s) r) : EndsBy s N (errorChecks i s) r :=
  .pass (fun ⟨reg, h, _⟩ => hreg reg h) <| .pass (fun ⟨_, h, _⟩ => by simp [hord] at h) <|
    .pass (fun ⟨m, o, r, h, _⟩ => hinit m o r h) <| .pass (fun ⟨m, o, r, h, _⟩ => hinit m o r h) h

theorem reservedOrder_iff {ord : BitVec 2} : ord = 2 ∨ ord = 3 ↔ 1 < ord.toNat := by revert ord; decide

/-- Step 2 of R254 for a command with an ORD field. -/
theorem checkOrder {i : Instr} {ord : BitVec 2} (hi : ordOperand? i = some ord)
    (hfail : 1 < ord.toNat → r = .next (s.answeredError .invalidByteOrder))
    (hpass : ∀ o, orderOf? ord = some o → EndsBy s N rest r) :
    EndsBy s N ((∃ o, ordOperand? i = some o ∧ (o = 2 ∨ o = 3), .invalidByteOrder) :: rest) r := by
  have hreserved : (∃ o, ordOperand? i = some o ∧ (o = 2 ∨ o = 3)) ↔ 1 < ord.toNat := by
    simp only [hi, Option.some.injEq, exists_eq_left', reservedOrder_iff]
  refine .check (hfail ∘ hreserved.1) fun hord => ?_
  obtain ⟨o, ho⟩ := exists_orderOf? (Nat.not_lt.1 (hord ∘ hreserved.2))
  exact hpass o ho

/-- Steps 5 and 6 of R254 for a command that takes no input: both give one error, and an empty input passes both. -/
theorem checkEmptyInput (hfail : s.inp ≠ [] → r = .next (s.answeredError .invalidLength))
    (hpass : s.inp = [] → EndsBy s N rest r) :
    EndsBy s N ((overMax s, .invalidLength) :: (s.inp.length ≠ 0, .invalidLength) :: rest) r := by
  refine .check (fun ⟨m, _, hlt⟩ => hfail ?_) fun _ => .check (fun hlen => hfail ?_) fun hlen => hpass ?_
  · exact List.ne_nil_of_length_pos (Nat.zero_lt_of_lt hlt)
  · exact mt List.length_eq_zero_iff.2 hlen
  · exact List.length_eq_zero_iff.1 (not_not.1 hlen)

end EndsBy

/-! ## Every command ends by its checks -/

theorem fits_of_not_overMax {s : State} (h : ¬ overMax s) : Fits s := by
  rwa [← tooLong_iff, Bool.not_eq_true, not_tooLong_iff] at h

theorem exactInput_endsBy {n N : Nat} {e : Error} {s : State} {r : ByteVec n → Result} {rest : List (Prop × Error)}
    (hr : ∀ V, EndsBy s N rest (r V)) :
    EndsBy s N ((overMax s, .invalidLength) :: (s.inp.length ≠ n, e) :: rest) (exactInput e s r) := by
  refine .check exactInput_of_overMax fun hmax => ?_
  have hfits := fits_of_not_overMax hmax
  refine .check (exactInput_of_wrongLength hfits) fun hlen => ?_
  rw [exactInput_of_bytes ⟨s.inp, not_not.1 hlen⟩ hfits rfl]
  exact hr _

theorem blockCommand_endsBy (f : Key → Block → Nat → Order → Block) {ord : BitVec 2} {o : Order}
    (hord : orderOf? ord = some o) (cycles : BitVec 16) (s : State) :
    EndsBy s 8 [(overMax s, .invalidLength), (s.inp.length ≠ 24, .invalidLength)] (blockCommand f ord cycles s) := by
  have hle : ord.toNat ≤ 1 := Nat.not_lt.1 fun h => by simp [orderOf?_eq_none.2 h] at hord
  refine .check (fun hmax => blockCommand_of_badLength f cycles hle (.inl hmax)) fun hmax => ?_
  refine .check (fun hlen => blockCommand_of_badLength f cycles hle (.inr hlen)) fun hlen => ?_
  have hlen : s.inp.length = 24 := not_not.1 hlen
  rw [blockCommand_of_operands f cycles hord (KB := ⟨s.inp.take 16, by simp [hlen]⟩)
    (BB := ⟨s.inp.drop 16, by simp [hlen]⟩) (fits_of_not_overMax hmax) (List.take_append_drop 16 s.inp).symm]
  exact .ok _ (length_toList _)

theorem counterCommand_endsBy {s : State} {N : Nat} {r : Result} (hr : EndsBy s N [] r) :
    EndsBy s N [(overMax s, .invalidLength), (s.inp.length ≠ 0, .invalidLength), (s.arch.ctrv = false, .invalidState)]
      (counterCommand s r) := by
  refine .checkEmptyInput counterCommand_of_input fun hinp => .check (counterCommand_of_unloaded hinp) fun hctrv => ?_
  rwa [counterCommand_of_loaded hinp (Bool.not_eq_false _ ▸ hctrv)]

theorem wholeBlocks_iff {S : Arch} {m : Mode} (hmode : S.mode = some m) : WholeBlocks S ↔ m.wholeBlocks = true := by
  rw [WholeBlocks, hmode]
  cases m <;> decide

theorem Ciphers.exec_endsBy {i : Instr} {f : Params → Mode → Arch → Bytes → Bytes × Arch} (hi : Ciphers i f) (s : State) :
    EndsBy s s.inp.length
      [(overMax s, .invalidLength), (s.arch.ctx = .none, .invalidState),
        (WholeBlocks s.arch ∧ s.inp.length % 8 ≠ 0, .invalidLength)] (exec i s) := by
  rw [hi.exec_eq]
  refine .check (cipherCommand_of_overMax f) fun hmax => ?_
  have hfits := fits_of_not_overMax hmax
  refine .check (cipherCommand_of_noContext f hfits) fun hctx => ?_
  cases hmode : s.arch.mode with
  | none =>
    have hstop : cipherCommand f s = .fault .contextWithoutMode := by
      simp [cipherCommand, (not_tooLong_iff s).2 hfits, hctx, hmode]
    rw [hstop]
    exact .stop _
  | some m =>
    rw [wholeBlocks_iff hmode]
    refine .check (fun ⟨hm, hlen⟩ => cipherCommand_of_partBlock f hfits hctx hmode hm hlen) fun hpass => ?_
    have hlen : m.wholeBlocks = true → s.inp.length % 8 = 0 := fun hm => not_not.1 fun h => hpass ⟨hm, h⟩
    rw [cipherCommand_of_length f hfits hctx hmode hlen]
    exact .ok _ (hi.length_transform s.params s.arch hlen)

theorem needsIV_iff_mode {mode : BitVec 3} {m : Mode} (h : modeOf? mode = some m) :
    m.needsIV = true ↔ mode = 2 ∨ mode = 3 ∨ mode = 5 := by
  rw [modeOf?_eq_some.1 h]
  cases m <;> decide

theorem eq_ctr_iff_mode {mode : BitVec 3} {m : Mode} (h : modeOf? mode = some m) : m = .ctr ↔ mode = 6 := by
  rw [modeOf?_eq_some.1 h]
  cases m <;> decide

/-- Step 7 of R254 for INIT, whose word and input are in order. -/
theorem exec_init_endsBy_stateChecks {s : State} {mode : BitVec 3} {ord : BitVec 2} {rounds : BitVec 16} {o : Order}
    {m : Mode} (hord : orderOf? ord = some o) (hmode : modeOf? mode = some m) (heven : rounds.toNat % 2 = 0)
    (hinp : s.inp = []) :
    EndsBy s 0 (stateChecks s (.init mode ord rounds)) (exec (.init mode ord rounds) s) := by
  refine .check (exec_init_of_noKey hord hmode heven hinp) fun hkey => ?_
  have hkey : s.arch.kstgv = true := by simpa using hkey
  rw [← needsIV_iff_mode hmode, ← eq_ctr_iff_mode hmode]
  refine .check (fun ⟨hneeds, hiv⟩ => exec_init_of_noIV hord hmode heven hinp hkey hneeds hiv) fun hiv => ?_
  refine .check (fun ⟨hctr, hctrv⟩ => exec_init_of_noCounter hord hmode heven hinp hkey hctr hctrv) fun hctrv => ?_
  rw [exec_init_of_staged hord hmode heven hinp hkey (by simpa using hiv) (by simpa using hctrv)]
  exact .ok _ rfl

theorem exec_init_endsBy (mode : BitVec 3) (ord : BitVec 2) (rounds : BitVec 16) (s : State) :
    EndsBy s 0 (errorChecks (.init mode ord rounds) s) (exec (.init mode ord rounds) s) := by
  refine .pass nofun (.checkOrder rfl exec_init_of_noOrder fun o hord => .check ?_ fun hmode => ?_)
  · rintro ⟨_, _, _, ⟨⟩, hmode⟩
    exact exec_init_of_noMode hord (modeOf?_eq_none.2 hmode)
  obtain ⟨m, hm⟩ := Option.ne_none_iff_exists'.1 fun h => hmode ⟨_, _, _, rfl, modeOf?_eq_none.1 h⟩
  refine .check ?_ fun hodd => ?_
  · rintro ⟨_, _, _, ⟨⟩, -, hodd⟩
    exact exec_init_of_oddRounds hord hm hodd
  have heven : rounds.toNat % 2 = 0 := (Nat.mod_two_eq_zero_or_one _).resolve_right fun h =>
    hodd ⟨_, _, _, rfl, fun hzero => by simp [hzero] at h, h⟩
  exact .checkEmptyInput (fun hinp => exec_init_of_input hord hm heven (.inr hinp))
    (exec_init_endsBy_stateChecks hord hm heven)

theorem length_readReg? {reg : BitVec 4} {S : Arch} {out : Bytes} (h : readReg? reg S = some out) :
    out.length = if reg.toNat ≤ 2 then 4 else 8 := by
  unfold readReg? at h
  split at h <;> cases h <;> simp [*]

theorem exec_rdreg_endsBy (reg : BitVec 4) (s : State) :
    EndsBy s (if reg.toNat ≤ 2 then 4 else 8) (errorChecks (.rdreg reg) s) (exec (.rdreg reg) s) := by
  refine .check ?_ fun hreg => ?_
  · rintro ⟨_, ⟨⟩, hreg⟩
    exact exec_rdreg_of_noRegister hreg
  have hle : reg.toNat ≤ 4 := Nat.not_lt.1 fun h => hreg ⟨reg, rfl, h⟩
  refine .pass nofun (.pass nofun (.pass nofun (.checkEmptyInput (exec_rdreg_of_nonempty hle) fun hinp => ?_)))
  obtain ⟨out, hout⟩ := Option.ne_none_iff_exists'.1 (mt (readReg?_eq_none (S := s.arch)).1 (Nat.not_lt.2 hle))
  rw [exec_rdreg_of_empty hinp hout]
  exact .ok _ (length_readReg? hout)

theorem exec_clear_of_empty {s : State} (hinp : s.inp = []) : exec .clear s = .next (s.answered .reset .ok []) := by
  simp [exec, execClear, not_tooLong_of_empty hinp, hinp, succeed_eq]

theorem exec_clear_of_nonempty {s : State} (hinp : s.inp ≠ []) : exec .clear s = .next (s.answeredError .invalidLength) := by
  simp [exec, execClear, hinp, fail_eq]

theorem exec_endsBy (i : Instr) (s : State) : EndsBy s (outLength s.inp.length i) (errorChecks i s) (exec i s) := by
  cases i with
  | ldkey => rw [exec_ldkey]; exact .of_noOperand nofun rfl nofun (exactInput_endsBy fun _ => .ok _ rfl)
  | ldiv => rw [exec_ldiv]; exact .of_noOperand nofun rfl nofun (exactInput_endsBy fun _ => .ok _ rfl)
  | init mode ord rounds => exact exec_init_endsBy mode ord rounds s
  | enc => exact .of_noOperand nofun rfl nofun (Ciphers.enc.exec_endsBy s)
  | dec => exact .of_noOperand nofun rfl nofun (Ciphers.dec.exec_endsBy s)
  | benc ord cycles =>
    exact .pass nofun <| .checkOrder rfl (blockCommand_of_noOrder eBlk cycles) fun _ hord =>
      .pass nofun <| .pass nofun <| blockCommand_endsBy eBlk hord cycles s
  | bdec ord cycles =>
    exact .pass nofun <| .checkOrder rfl (blockCommand_of_noOrder dBlk cycles) fun _ hord =>
      .pass nofun <| .pass nofun <| blockCommand_endsBy dBlk hord cycles s
  | ctrld ord =>
    refine .pass nofun <| .checkOrder rfl exec_ctrld_of_noOrder fun _ hord => .pass nofun <| .pass nofun ?_
    rw [exec_ctrld_of_order hord]
    exact exactInput_endsBy fun _ => .ok _ rfl
  | ctrrst => exact .of_noOperand nofun rfl nofun (counterCommand_endsBy (.ok _ rfl))
  | ctrnxt => exact .of_noOperand nofun rfl nofun (counterCommand_endsBy (.ok _ (length_toList _)))
  | cmacsk =>
    rw [exec_cmacsk]
    exact .of_noOperand nofun rfl nofun (exactInput_endsBy fun _ => .ok _ (by simp [cmacskOut, outLength]))
  | rdreg reg => exact exec_rdreg_endsBy reg s
  | clear =>
    refine .of_noOperand nofun rfl nofun (.checkEmptyInput exec_clear_of_nonempty fun hinp => ?_)
    rw [exec_clear_of_empty hinp]
    exact .ok _ rfl

/-! ## Every check is a cause of its error (R251) -/

theorem cause_of_fixedLength {i : Instr} {s : State} {n : Nat} {e : Error} (hi : fixedLength? i = some (n, e))
    (hlen : s.inp.length ≠ n) : Cause i s e := by
  have hwrong : wrongLength i s := ⟨n, e, hi, hlen⟩
  cases i with
  | ldkey => cases hi; exact .inl ⟨.inl rfl, hlen⟩
  | ldiv => cases hi; exact ⟨rfl, hlen⟩
  | cmacsk => cases hi; exact .inl ⟨.inr rfl, hlen⟩
  | enc | dec => cases hi
  | init | benc | bdec | ctrld | ctrrst | ctrnxt | rdreg | clear =>
    cases hi; exact .inr (.inl ⟨nofun, nofun, nofun, hwrong⟩)

theorem cause_of_stateCheck (i : Instr) (s : State) : ∀ c ∈ stateChecks s i, c.1 → Cause i s c.2 := by
  cases i with
  | init m o r =>
    simp only [stateChecks, List.forall_mem_cons]
    refine ⟨fun hkey => .inr ⟨⟨m, o, r, rfl⟩, hkey⟩, fun ⟨hm, hiv⟩ => ⟨⟨m, o, r, rfl, hm⟩, hiv⟩, ?_, nofun⟩
    rintro ⟨rfl, hctrv⟩
    exact ⟨⟨o, r, rfl⟩, hctrv⟩
  | enc | dec =>
    simp only [stateChecks, List.forall_mem_cons]
    exact ⟨fun hctx => .inl ⟨by simp, hctx⟩, fun hlen => .inl ⟨by simp, hlen⟩, nofun⟩
  | ctrrst | ctrnxt =>
    simp only [stateChecks, List.forall_mem_cons]
    exact ⟨fun hctrv => .inr ⟨by simp, hctrv⟩, nofun⟩
  | ldkey | ldiv | benc | bdec | ctrld | cmacsk | rdreg | clear => exact nofun

/-- The checks of the command word and of MAX_XFER are, word for word, causes of R251. -/
theorem cause_of_errorCheck (i : Instr) (s : State) : ∀ c ∈ errorChecks i s, c.1 → Cause i s c.2 := by
  simp only [errorChecks, List.forall_mem_append, List.forall_mem_cons]
  refine ⟨⟨⟨id, id, id, id, fun hmax => .inr (.inr hmax), nofun⟩, ?_⟩, cause_of_stateCheck i s⟩
  cases hi : fixedLength? i with
  | none => exact nofun
  | some p => exact List.forall_mem_singleton.2 (cause_of_fixedLength hi)

theorem exec_failed_cause {i : Instr} {s t : State} {e : Error} {out : Bytes} (h : exec i s = .next t)
    (hresp : t.resp = some ⟨.failed e, out⟩) : Cause i s e := by
  obtain ⟨c, hmem, hc, rfl⟩ := (exec_endsBy i s).exists_check_of_failed h hresp
  exact cause_of_errorCheck i s c hmem hc

/-! ## Idling (R264) -/

theorem run_of_step_self {M : Host.Core} {s : M.State} (h : M.step s = .next s) (n : Nat) : M.run n s = .next s := by
  induction n with
  | zero => rfl
  | succ n ih => rw [Host.Core.run, h]; exact ih

/-! ## The statements -/

/-- Settles O9: each step of an idle core is idle. -/
theorem idlingChangesNothing : Obligations.IdlingChangesNothing :=
  fun _ n hidle => run_of_step_self (M := core) (step_idle hidle) n

/-- Settles O10: a word that is no command and a command that answers an error leave the state, and OK has status 0. -/
theorem failedCommandChangesNoState : Obligations.FailedCommandChangesNoState := by
  intro s t r a hc h hresp hcode
  cases hd : decode r.word with
  | error d =>
    rw [step_undecoded hc hd] at h
    cases h
    cases hresp
    exact ⟨rfl, rfl⟩
  | ok i =>
    rw [step_decoded hc hd] at h
    obtain ⟨e, rfl⟩ | ⟨S, out, -, rfl⟩ := exec_next h <;> cases hresp
    · exact ⟨rfl, rfl⟩
    · exact absurd rfl hcode

/-- Settles O15: a command ends by its checks, and with a mode in every context it does not stop. -/
theorem firstErrorIsReported : Obligations.FirstErrorIsReported := by
  refine ⟨fun s r d => step_undecoded, fun i s hmode => ?_⟩
  have hstop : exec i s ≠ .fault .contextWithoutMode := by
    obtain ⟨S, st, out, h⟩ := exec_answers hmode i
    rw [h]
    nofun
  exact ⟨fun e => (exec_endsBy i s).eq_of_firstError hstop, (exec_endsBy i s).succeeds_of_noError hstop⟩

/-- Settles O16: the error is that of a check that applies, which is a cause; the one cause of InvalidCommand in a command
is a register number that no word decodes to. -/
theorem errorHasItsCause : Obligations.ErrorHasItsCause := by
  refine ⟨by decide, fun i s t e out => exec_failed_cause, fun s t r out hc h hresp => ?_⟩
  cases hd : decode r.word with
  | error d => exact ⟨d, rfl⟩
  | ok i =>
    rw [step_decoded hc hd] at h
    obtain ⟨reg, rfl, hreg⟩ := exec_failed_cause h hresp
    have hwf : reg.toNat ≤ 4 := of_decide_eq_true (encodeOfDecodeGivesWord _ _ hd).1
    omega

end Sys2Proof.Machine
end

section
/-!
SUPPORT. Reset, CLEAR and the boot sequence (spec/70_reset_and_hazards.md R280, R282, R283): what the registers read right
after reset, and the loading commands as writes that commute, so that their order does not matter to the INIT after them.
-/

namespace Sys2Proof.Machine

/-! ## Readback right after reset (R280) -/

theorem readReg?_reset_word {reg : BitVec 4} (h : reg = 0 ∨ reg = 1 ∨ reg = 2) :
    readReg? reg .reset = some [0, 0, 0, 0] := by
  rcases h with rfl | rfl | rfl <;> decide

theorem readReg?_reset_dword {reg : BitVec 4} (h : reg = 3 ∨ reg = 4) :
    readReg? reg .reset = some [0, 0, 0, 0, 0, 0, 0, 0] := by
  rcases h with rfl | rfl <;> decide

/-! ## The loading commands (R140, R141, R200) -/

/-- LDKEY's write. -/
def Arch.loadKey (k : Key) (S : Arch) : Arch := { S with kstg := k, kstgv := true }

/-- LDIV's write. -/
def Arch.loadIV (v : Block) (S : Arch) : Arch := { S with ivstg := v, ivstgv := true }

/-- CTRLD's write. -/
def Arch.loadCounter (n : Block) (o : Order) (S : Arch) : Arch :=
  { S with nonce := n, cord := o, cval := nonceValue n o, ctrv := true }

/-- On an idle core with no MAX_XFER the request succeeds with no output, and its whole effect on `S` is the write `f`. -/
def Loads (r : Request) (f : Arch → Arch) : Prop :=
  ∀ s : State, s.cmd = none → s.params.maxXfer = none →
    transact s r = some (s.answered (f s.arch) .ok [], ⟨.ok, []⟩)

theorem loads_ldkey (k : Key) : Loads ⟨encode .ldkey, k.toList⟩ (Arch.loadKey k) := fun _ hidle hmax =>
  transact_exactInput (S := fun S k => S.loadKey k) (out := fun _ => []) exec_ldkey rfl hidle (by simp [hmax]) k

theorem loads_ldiv (v : Block) : Loads ⟨encode .ldiv, v.toList⟩ (Arch.loadIV v) := fun _ hidle hmax =>
  transact_exactInput (S := fun S v => S.loadIV v) (out := fun _ => []) exec_ldiv rfl hidle (by simp [hmax]) v

theorem loads_ctrld {ord : BitVec 2} {o : Order} (hord : orderOf? ord = some o) (n : Block) :
    Loads ⟨encode (.ctrld ord), n.toList⟩ (Arch.loadCounter n o) := fun _ hidle hmax =>
  transact_ctrld hidle (by simp [hmax]) hord n

/-! ## Sessions of loads, in any order (R62, R282) -/

theorem session_append {s t u : State} {rs qs : List Request} {as bs : List Response}
    (hfirst : session s rs = some (t, as)) (hsecond : session t qs = some (u, bs)) :
    session s (rs ++ qs) = some (u, as ++ bs) := by
  induction rs generalizing s as with
  | nil => cases hfirst; exact hsecond
  | cons r rs ih =>
    obtain ⟨s', a, as', hr, hrs, rfl⟩ := session_cons.1 hfirst
    exact session_cons.2 ⟨s', a, _, hr, ih hrs, rfl⟩

/-- A session of loads makes their writes in order, and leaves the core idle. -/
theorem session_loads {rs : List Request} {fs : List (Arch → Arch)} (hloads : List.Forall₂ Loads rs fs) {s : State}
    (hidle : s.cmd = none) (hmax : s.params.maxXfer = none) :
    ∃ t, session s rs = some (t, List.replicate rs.length ⟨.ok, []⟩) ∧ t.cmd = none ∧
      t.arch = fs.foldl (fun S f => f S) s.arch := by
  induction hloads generalizing s with
  | nil => exact ⟨s, rfl, hidle, rfl⟩
  | @cons r f rs fs hload _ ih =>
    obtain ⟨t, hrest, hkeeps⟩ := ih (s := s.answered (f s.arch) .ok []) rfl hmax
    exact ⟨t, session_cons.2 ⟨_, _, _, hload s hidle hmax, hrest, rfl⟩, hkeeps⟩

/-- The three loads write different fields, so in any order they leave the same state. -/
theorem foldl_loads_perm {fs : List (Arch → Arch)} {k : Key} {v n : Block} {o : Order}
    (hperm : fs.Perm [Arch.loadKey k, Arch.loadIV v, Arch.loadCounter n o]) (S : Arch) :
    fs.foldl (fun S f => f S) S = ((S.loadKey k).loadIV v).loadCounter n o := by
  refine hperm.foldl_eq' (fun f hf g hg S => ?_) S
  rw [hperm.mem_iff] at hf hg
  simp only [List.mem_cons, List.not_mem_nil, or_false] at hf hg
  rcases hf with rfl | rfl | rfl <;> rcases hg with rfl | rfl | rfl <;> rfl

/-- The three loads in any order, as requests. -/
theorem session_loads_perm {rs : List Request} {k : Key} {v n : Block} {ord : BitVec 2} {o : Order}
    (hord : orderOf? ord = some o)
    (hperm : rs.Perm [⟨encode .ldkey, k.toList⟩, ⟨encode .ldiv, v.toList⟩, ⟨encode (.ctrld ord), n.toList⟩]) {s : State}
    (hidle : s.cmd = none) (hmax : s.params.maxXfer = none) :
    ∃ t, session s rs = some (t, [⟨.ok, []⟩, ⟨.ok, []⟩, ⟨.ok, []⟩]) ∧ t.cmd = none ∧
      t.arch = ((s.arch.loadKey k).loadIV v).loadCounter n o := by
  have hloads : List.Forall₂ Loads
      [⟨encode .ldkey, k.toList⟩, ⟨encode .ldiv, v.toList⟩, ⟨encode (.ctrld ord), n.toList⟩]
      [Arch.loadKey k, Arch.loadIV v, Arch.loadCounter n o] :=
    .cons (loads_ldkey k) (.cons (loads_ldiv v) (.cons (loads_ctrld hord n) .nil))
  obtain ⟨fs, hloads, hfs⟩ := List.perm_comp_forall₂ hperm hloads
  obtain ⟨t, hsession, hcmd, harch⟩ := session_loads hloads hidle hmax
  rw [hperm.length_eq] at hsession
  exact ⟨t, hsession, hcmd, harch.trans (foldl_loads_perm hfs s.arch)⟩

/-! ## The statements -/

/-- Settles O14: the record is the reset record, and each register reads zeros from it. -/
theorem resetValues : Obligations.ResetValues :=
  ⟨rfl, fun _ hreg => exec_rdreg_of_empty rfl (readReg?_reset_word hreg),
    fun _ hreg => exec_rdreg_of_empty rfl (readReg?_reset_dword hreg)⟩

/-- Settles O35: CLEAR by its input. -/
theorem clearResetsState : Obligations.ClearResetsState :=
  fun _ => ⟨exec_clear_of_empty, exec_clear_of_nonempty⟩

/-- Settles O36: the loads commute, and after them INIT finds the key, the IV and the counter it asks for. -/
theorem bootSequenceGivesContext : Obligations.BootSequenceGivesContext := by
  intro s k iv nonce cord ord mode rounds co o m rs hidle hmax hcord hord hmode heven hperm
  obtain ⟨t, hloads, htidle, harch⟩ := session_loads_perm (orderOf?_eq_some.2 hcord) hperm hidle hmax
  have hinit := transact_decoded (r := ⟨encode (.init mode ord rounds), []⟩) htidle
    (decodeOfEncodeGivesInstruction _ rfl)
    (initCreatesContext _ mode ord rounds m o hord hmode heven rfl (by rw [harch]; rfl) (fun _ => by rw [harch]; rfl)
      (fun _ => by rw [harch]; rfl))
  refine ⟨_, session_append hloads (session_cons.2 ⟨_, _, _, hinit, session_nil _, rfl⟩), ?_⟩
  rw [answered_arch, harch]
  rfl

end Sys2Proof.Machine
end
